-- ==== Sys2Proof/Word.lean ====
section
/-! DEFINITION. The value types of DA-CORE (`00_scope.md` R14, R9; `10_state.md` R30; `30_encoding.md` R70).
Addition on all of them is modulo 2^width, as `BitVec` addition is. -/

namespace Sys2Proof

/-- A Byte, BYTEW = 8 bits (R14). -/
abbrev Byte := BitVec 8

/-- A Word, WORDW = 32 bits, all arithmetic modulo 2^32 (R14). -/
abbrev Word := BitVec 32

/-- A six-bit code of the encoder (R30). -/
abbrev Code := BitVec 6

/-- A command word, CMDW = 16 bits (R70). -/
abbrev CmdWord := BitVec 16

/-- A digest-sized file: sixteen bytes, DIGLEN = 16 (R23, R24, R25). -/
abbrev Digest := Vector Byte 16

end Sys2Proof
end

