-- ==== Sys2Proof/Config.lean ====
section
/-! DEFINITION. The free values: what the spec calls "unspecified" (`00_scope.md` R17, `10_state.md` R41). Each is a
constant with no body, so nothing can be proved about the value it gives. They are applied to positions of the counter
`State.freeCtr`, so that each draw is a value chosen afresh (log 1, log 2). DA-CORE has no other configuration: every
parameter of R9 is fixed (`Machine/Tables.lean`). -/

namespace Sys2Proof.Config

/-- An unspecified byte cell (R41): any value of 8 bits. -/
opaque freeByte : Nat → Byte

/-- An unspecified word register (R41): any value of 32 bits. -/
opaque freeWord : Nat → Word

/-- An unspecified cell of CODE (R41, R30): any value of 6 bits. -/
opaque freeCode : Nat → Code

/-- LEN of a core whose command a reset abandoned (`70_reset_and_hazards.md` R250): any length the invariant of R107
allows, 0 to 64. -/
opaque freeLen : Nat → Fin 65

/-- PWLEN of a core whose command a reset abandoned (R250): any value of 4 bits. -/
opaque freePwlen : Nat → BitVec 4

/-- INUM of a core whose command a reset abandoned (R250): any value of 10 bits. -/
opaque freeInum : Nat → BitVec 10

/-- What the read port shows at an address other than STATUS's while BUSY = 1 (`70_reset_and_hazards.md` R256): any byte,
by the counter and the address. -/
opaque busyRead : Nat → BitVec 9 → Byte

end Sys2Proof.Config
end

