-- ==== Sys2Proof/Syntax.lean ====
section
/-! DEFINITION. The 23 commands of DA-CORE as syntax (`30_encoding.md` R73), one constructor per row of
`spec/opcode_table.json`. Operand names are the spec's (R72, R74, R75). -/

namespace Sys2Proof

/-- The `sel` operand of BAPS by its assembler name (R74); sel 6 and 7 are reserved and name nothing. -/
inductive BapsSource where
  | pw | salt | marker | altp | int | pw0
  deriving DecidableEq, Repr

/-- The `q` operand of MVD (R75): the destination, ALT or INT. -/
inductive MvdDest where
  | alt | int
  deriving DecidableEq, Repr

/-- The `q` operand of EPRM and ENC (R75): the source digest, DIG or INT. -/
inductive DigestSource where
  | dig | int
  deriving DecidableEq, Repr

/-- A command. `ldpw` and `ldsl` carry the whole index nibble of format X (R71); which indices a command accepts is
`Instr.wellFormed`'s to say. -/
inductive Instr where
  | bclr
  | bapb (imm8 : Byte)
  | baps (sel : BapsSource)
  | mpad
  | munp
  | mini
  | mrnd (i : BitVec 6)
  | mfin
  | md5h
  | ldpw (idx : BitVec 4) (imm8 : Byte)
  | ldsl (idx : BitVec 4) (imm8 : Byte)
  | lddg (idx : BitVec 4) (imm8 : Byte)
  | ldpl (n : BitVec 4)
  | mvd (q : MvdDest)
  | clri
  | palt
  | pint
  | prnd
  | pwh
  | eprm (q : DigestSource)
  | epak
  | emap
  | enc (q : DigestSource)
  deriving DecidableEq, Repr

end Sys2Proof
end

