-- ==== Sys2Proof/WellFormed.lean ====
section
/-! DEFINITION. Which commands as syntax are commands of the machine: the constraint column of `30_encoding.md` R73 that
the types of `Syntax.lean` do not already enforce. -/

namespace Sys2Proof

/-- The operand constraints of R73: LDPW idx <= 14 (idx 15 is reserved), LDSL idx <= 7 (8 to 15 are reserved). -/
def Instr.wellFormed : Instr → Bool
  | .ldpw idx _ => decide (idx.toNat ≤ 14)
  | .ldsl idx _ => decide (idx.toNat ≤ 7)
  | .bclr | .bapb _ | .baps _ | .mpad | .munp | .mini | .mrnd _ | .mfin | .md5h
  | .lddg _ _ | .ldpl _ | .mvd _ | .clri | .palt | .pint | .prnd | .pwh
  | .eprm _ | .epak | .emap | .enc _ => true

end Sys2Proof
end

