-- ==== Sys2Proof/Decode.lean ====
section
/-! DEFINITION. Decoding and encoding of the 16-bit command word (`30_encoding.md` R70 to R76). `decode` is total: every
word is a command or is reserved, by a named reason. `encode` is written from the same table. -/

namespace Sys2Proof

/-- Why a word is reserved (R76). -/
inductive Reserved where
  /-- OP = 0 or OP >= 8. -/
  | opcode
  /-- A function number the family does not assign. -/
  | function
  /-- A "must be 0" bit is 1. -/
  | mustBeZero
  /-- LDPW with idx = 15, LDSL with idx >= 8. -/
  | index
  /-- BAPS with sel = 6 or 7. -/
  | selector
  deriving DecidableEq, Repr

/-- The decoder's answer. -/
inductive Decoded where
  | instr (i : Instr)
  | reserved (why : Reserved)
  deriving DecidableEq, Repr

/-- OP = CW[15:12] (R70). -/
def opField (cw : CmdWord) : BitVec 4 := cw.extractLsb' 12 4

/-- FN = CW[11:8] (R70); the cell index `idx` of format X (R72). -/
def fnField (cw : CmdWord) : BitVec 4 := cw.extractLsb' 8 4

/-- IMM = CW[7:0] (R70). -/
def immField (cw : CmdWord) : Byte := cw.extractLsb' 0 8

/-- Format N: IMM must be 0x00 (R71). -/
def formatN (imm : Byte) (i : Instr) : Decoded :=
  if imm = 0 then .instr i else .reserved .mustBeZero

/-- Format S: bits 7:3 must be 0, bits 2:0 = `sel`, of which 0 to 5 are assigned (R71, R73, R74). -/
def formatS (imm : Byte) : Decoded :=
  match imm.toNat with
  | 0 => .instr (.baps .pw)
  | 1 => .instr (.baps .salt)
  | 2 => .instr (.baps .marker)
  | 3 => .instr (.baps .altp)
  | 4 => .instr (.baps .int)
  | 5 => .instr (.baps .pw0)
  | n => if n < 8 then .reserved .selector else .reserved .mustBeZero

/-- Format R: bits 7:6 must be 0, bits 5:0 = `i` (R71). -/
def formatR (imm : Byte) : Decoded :=
  if imm.toNat < 64 then .instr (.mrnd (imm.extractLsb' 0 6)) else .reserved .mustBeZero

/-- Format L: bits 7:4 must be 0, bits 3:0 = `n` (R71). -/
def formatL (imm : Byte) : Decoded :=
  if imm.toNat < 16 then .instr (.ldpl (imm.extractLsb' 0 4)) else .reserved .mustBeZero

/-- Format Q: bits 7:1 must be 0, bit 0 = `q`, which picks one of two instructions (R71, R75). -/
def formatQ (imm : Byte) (i0 i1 : Instr) : Decoded :=
  match imm.toNat with
  | 0 => .instr i0
  | 1 => .instr i1
  | _ => .reserved .mustBeZero

/-- OP = 1, the BUF family (R73). -/
def decodeBuf (fn : BitVec 4) (imm : Byte) : Decoded :=
  match fn.toNat with
  | 0 => formatN imm .bclr
  | 1 => .instr (.bapb imm)
  | 2 => formatS imm
  | _ => .reserved .function

/-- OP = 2, the MD5 family (R73). -/
def decodeMd5 (fn : BitVec 4) (imm : Byte) : Decoded :=
  match fn.toNat with
  | 0 => formatN imm .mpad
  | 1 => formatN imm .munp
  | 2 => formatN imm .mini
  | 3 => formatR imm
  | 4 => formatN imm .mfin
  | 15 => formatN imm .md5h
  | _ => .reserved .function

/-- OP = 6, the PWH family without the X-format loads (R73). -/
def decodePwh (fn : BitVec 4) (imm : Byte) : Decoded :=
  match fn.toNat with
  | 0 => formatL imm
  | 1 => formatQ imm (.mvd .alt) (.mvd .int)
  | 2 => formatN imm .clri
  | 3 => formatN imm .palt
  | 4 => formatN imm .pint
  | 5 => formatN imm .prnd
  | 15 => formatN imm .pwh
  | _ => .reserved .function

/-- OP = 7, the ENC family (R73). -/
def decodeEnc (fn : BitVec 4) (imm : Byte) : Decoded :=
  match fn.toNat with
  | 0 => formatQ imm (.eprm .dig) (.eprm .int)
  | 1 => formatN imm .epak
  | 2 => formatN imm .emap
  | 15 => formatQ imm (.enc .dig) (.enc .int)
  | _ => .reserved .function

/-- The decoder (R73, R76). -/
def decode (cw : CmdWord) : Decoded :=
  match (opField cw).toNat with
  | 1 => decodeBuf (fnField cw) (immField cw)
  | 2 => decodeMd5 (fnField cw) (immField cw)
  | 3 => if (fnField cw).toNat ≤ 14 then .instr (.ldpw (fnField cw) (immField cw)) else .reserved .index
  | 4 => if (fnField cw).toNat ≤ 7 then .instr (.ldsl (fnField cw) (immField cw)) else .reserved .index
  | 5 => .instr (.lddg (fnField cw) (immField cw))
  | 6 => decodePwh (fnField cw) (immField cw)
  | 7 => decodeEnc (fnField cw) (immField cw)
  | _ => .reserved .opcode

/-- The instruction of an answer, if it is one. -/
def Decoded.toOption : Decoded → Option Instr
  | .instr i => some i
  | .reserved _ => none

/-- What the decoder reads from the word `w` of `nbits` bits; every row of the opcode table has 16. -/
def decodeTableWord (nbits w : Nat) : Option Instr :=
  if nbits ≤ 16 ∧ w < 2 ^ 16 then (decode (BitVec.ofNat 16 w)).toOption else none

/-- A word from its three fields (R70). -/
def packWord (op fn : BitVec 4) (imm : Byte) : CmdWord := op ++ fn ++ imm

/-- The selector number of a BAPS source (R74). -/
def BapsSource.sel : BapsSource → BitVec 3
  | .pw => 0
  | .salt => 1
  | .marker => 2
  | .altp => 3
  | .int => 4
  | .pw0 => 5

/-- The `q` bit of MVD (R75). -/
def MvdDest.q : MvdDest → BitVec 1
  | .alt => 0
  | .int => 1

/-- The `q` bit of EPRM and ENC (R75). -/
def DigestSource.q : DigestSource → BitVec 1
  | .dig => 0
  | .int => 1

/-- The word of a command (R73); for an ill-formed command, the reserved word its fields spell. -/
def encode : Instr → CmdWord
  | .bclr => packWord 1 0 0
  | .bapb imm8 => packWord 1 1 imm8
  | .baps sel => packWord 1 2 (sel.sel.setWidth 8)
  | .mpad => packWord 2 0 0
  | .munp => packWord 2 1 0
  | .mini => packWord 2 2 0
  | .mrnd i => packWord 2 3 (i.setWidth 8)
  | .mfin => packWord 2 4 0
  | .md5h => packWord 2 15 0
  | .ldpw idx imm8 => packWord 3 idx imm8
  | .ldsl idx imm8 => packWord 4 idx imm8
  | .lddg idx imm8 => packWord 5 idx imm8
  | .ldpl n => packWord 6 0 (n.setWidth 8)
  | .mvd q => packWord 6 1 (q.q.setWidth 8)
  | .clri => packWord 6 2 0
  | .palt => packWord 6 3 0
  | .pint => packWord 6 4 0
  | .prnd => packWord 6 5 0
  | .pwh => packWord 6 15 0
  | .eprm q => packWord 7 0 (q.q.setWidth 8)
  | .epak => packWord 7 1 0
  | .emap => packWord 7 2 0
  | .enc q => packWord 7 15 (q.q.setWidth 8)

/-- The `mask` column of R73. -/
def Instr.mask : Instr → CmdWord
  | .bapb _ => 0xFF00
  | .baps _ => 0xFFF8
  | .mrnd _ => 0xFFC0
  | .ldpw _ _ | .ldsl _ _ | .lddg _ _ => 0xF000
  | .ldpl _ => 0xFFF0
  | .mvd _ | .eprm _ | .enc _ => 0xFFFE
  | .bclr | .mpad | .munp | .mini | .mfin | .md5h | .clri | .palt | .pint | .prnd | .pwh | .epak | .emap => 0xFFFF

/-- The `match` column of R73. -/
def Instr.matchBits : Instr → CmdWord
  | .bclr => 0x1000
  | .bapb _ => 0x1100
  | .baps _ => 0x1200
  | .mpad => 0x2000
  | .munp => 0x2100
  | .mini => 0x2200
  | .mrnd _ => 0x2300
  | .mfin => 0x2400
  | .md5h => 0x2F00
  | .ldpw _ _ => 0x3000
  | .ldsl _ _ => 0x4000
  | .lddg _ _ => 0x5000
  | .ldpl _ => 0x6000
  | .mvd _ => 0x6100
  | .clri => 0x6200
  | .palt => 0x6300
  | .pint => 0x6400
  | .prnd => 0x6500
  | .pwh => 0x6F00
  | .eprm _ => 0x7000
  | .epak => 0x7100
  | .emap => 0x7200
  | .enc _ => 0x7F00

end Sys2Proof
end

