-- ==== Sys2Proof/Machine/State.lean ====
section
/-! DEFINITION. The state of DA-CORE (`10_state.md` section 1 and R20 to R33), its reasons to stop, and reset (R43). -/

namespace Sys2Proof.Machine

/-- What the host does at the core's inputs, one event at a time (`00_scope.md` R12). -/
inductive HostEvent where
  /-- `cmd_valid` = 1 with this word on `cmd_data` (`30_encoding.md` R81). -/
  | present (cw : CmdWord)
  /-- `present cw`, and the host asserts `rst` while the command is in progress, that is before it completes or faults
  (`70_reset_and_hazards.md` R250). -/
  | presentThenReset (cw : CmdWord)
  /-- The host asserts `rst` between two commands (R250). -/
  | assertReset
  /-- The host releases `rst` (R250). -/
  | releaseReset
  deriving DecidableEq, Repr

/-- The machine never stops with a fault: the one exception, CapacityViolation, has an entry the spec describes
(`60_exceptions.md` R226), so raising it is a next state (log 11). No constructor, so no step answers a fault. -/
inductive Fault : Type
  deriving DecidableEq, Repr

/-- Why the model has no step. -/
inductive Refusal where
  /-- Raised by `exec`'s arm of an instruction without a meaning (there is none now). Safe. -/
  | notModelled (mnemonic : String)
  /-- Raised when the core accepts a reserved word, and by the meanings of LDPW and LDSL on an ill-formed term, which
  spells a reserved word (`30_encoding.md` R76: "a model must *refuse* it"). Safe. -/
  | reservedWord (why : Reserved)
  deriving DecidableEq, Repr

/-- All state the spec gives the machine (`10_state.md` section 1), then the reset wire's level, and the model's own
host events and free-value counter (log 2, log 6). -/
structure State where
  /-- A, B, C, D: the MD5 chaining state (R20). -/
  a : Word
  b : Word
  c : Word
  d : Word
  /-- M[0..15]: the decoded message words (R21). -/
  m : Vector Word 16
  /-- BUF[0..63]: the bounded buffer's cells (R22). -/
  buf : Vector Byte 64
  /-- LEN: the buffer's length, 7 bits, 0..64 (R22). -/
  len : BitVec 7
  /-- DIG: the last digest (R23). -/
  dig : Digest
  /-- ALT: the alternate hash (R24). -/
  alt : Digest
  /-- INT: the running intermediate hash (R25). -/
  int : Digest
  /-- PW[0..14]: the password's cells (R26). -/
  pw : Vector Byte 15
  /-- PWLEN: the password's length (R26). -/
  pwlen : BitVec 4
  /-- SALT[0..7] (R27). -/
  salt : Vector Byte 8
  /-- INUM: the stage-3 iteration number (R28). -/
  inum : BitVec 10
  /-- PERM: the permuted digest (R29). -/
  perm : Digest
  /-- CODE[0..21]: the six-bit codes (R30). -/
  code : Vector Code 22
  /-- OUT[0..21]: the EncodedHash (R31). -/
  out : Vector Byte 22
  /-- STATUS.BUSY (R32). -/
  busy : Bool
  /-- STATUS.FAULT (R32). -/
  fault : Bool
  /-- STATUS.FCAUSE (R32). -/
  fcause : BitVec 2
  /-- The level of the reset input (`70_reset_and_hazards.md` R250). -/
  rst : Bool
  /-- The model's own: the host's events still to come, the next one first. -/
  host : List HostEvent
  /-- The model's own: free values at positions below this are drawn. -/
  freeCtr : Nat
  deriving DecidableEq, Repr

/-- How many free values a reset draws: 20 words, 173 bytes and 22 codes. -/
def resetDraws : Nat := 215

/-- The state when `rst` is released (R43, R250): control registers 0, data cells unspecified, that is free values drawn
at `ctr` (log 1); `host` are the events after the release. -/
def State.atReset (ctr : Nat) (host : List HostEvent) : State where
  a := Config.freeWord ctr
  b := Config.freeWord (ctr + 1)
  c := Config.freeWord (ctr + 2)
  d := Config.freeWord (ctr + 3)
  m := Vector.ofFn fun k => Config.freeWord (ctr + 4 + k)
  buf := Vector.ofFn fun k => Config.freeByte (ctr + 20 + k)
  len := 0
  dig := Vector.ofFn fun k => Config.freeByte (ctr + 84 + k)
  alt := Vector.ofFn fun k => Config.freeByte (ctr + 100 + k)
  int := Vector.ofFn fun k => Config.freeByte (ctr + 116 + k)
  pw := Vector.ofFn fun k => Config.freeByte (ctr + 132 + k)
  pwlen := 0
  salt := Vector.ofFn fun k => Config.freeByte (ctr + 147 + k)
  inum := 0
  perm := Vector.ofFn fun k => Config.freeByte (ctr + 155 + k)
  code := Vector.ofFn fun k => Config.freeCode (ctr + 171 + k)
  out := Vector.ofFn fun k => Config.freeByte (ctr + 193 + k)
  busy := false
  fault := false
  fcause := 0
  rst := false
  host := host
  freeCtr := ctr + resetDraws

/-- The machine right after reset, with no host event to come (R43; log 6). -/
def State.reset : State := State.atReset 0 []

end Sys2Proof.Machine
end

