-- ==== Sys2Proof/Machine/Flags.lean ====
section
/-! DEFINITION. STATUS and the wires made from it (`10_state.md` R32, `60_exceptions.md` R224, `30_encoding.md` R81).
There are no arithmetic condition codes (R32): no command computes a flag. -/

namespace Sys2Proof.Machine

/-- STATUS as the 8-bit register: bits 7:4 hardwired 0, FCAUSE in 3:2, FAULT in 1, BUSY in 0 (R32). -/
def State.status (s : State) : Byte :=
  (0 : BitVec 4) ++ s.fcause ++ BitVec.ofBool s.fault ++ BitVec.ofBool s.busy

/-- The output wire `busy`, equal to STATUS[0] (R224). -/
def State.busyWire (s : State) : Bool := s.status.getLsbD 0

/-- The output wire `fault`, equal to STATUS[1] (R224). -/
def State.faultWire (s : State) : Bool := s.status.getLsbD 1

/-- `cmd_ready` = 1 exactly when BUSY = 0 and FAULT = 0 (R81). -/
def State.cmdReady (s : State) : Bool := !s.busy && !s.fault

/-- Whether a word presented now is accepted: `cmd_ready` = 1 (R81) and `rst` not asserted
(`70_reset_and_hazards.md` R250). -/
def State.accepts (s : State) : Bool := s.cmdReady && !s.rst

end Sys2Proof.Machine
end

