-- ==== Sys2Proof/Machine/Tables.lean ====
section
/-! DEFINITION. The fixed parameters (`00_scope.md` R9) and the ROMs (`10_state.md` R34 to R39). The literals of SHIFT,
NOISE and the ASCII codes are the spec's, which marks them as supplied from general knowledge (R35, R36, R38, R39). -/

namespace Sys2Proof.Machine

/-- CAP: the capacity of the buffer in bytes (R9). -/
def cap : Nat := 64

/-- PADTO: the length the zero fill reaches (R9). -/
def padTo : Nat := 56

/-- NITER: the iterations of stage 3 (R9; `90_conflicts.md` C1). -/
def nIter : Nat := 1000

/-- NROUND: the rounds of one compression (R9). -/
def nRound : Nat := 64

/-- INITK (R34). -/
def initK : Vector Word 4 := #v[0x67452301, 0xEFCDAB89, 0x98BADCFE, 0x10325476]

/-- The four amounts that one family of 16 rounds repeats (R35). -/
def shiftGroup (r : Nat) : Vector Nat 4 :=
  match r with
  | 0 => #v[7, 12, 17, 22]
  | 1 => #v[5, 9, 14, 20]
  | 2 => #v[4, 11, 16, 23]
  | _ => #v[6, 10, 15, 21]

/-- SHIFT[i] (R35). -/
def shiftRom (i : BitVec 6) : Nat := (shiftGroup (i.toNat / 16))[i.toNat % 4]

/-- NOISE[0..15] (R36). -/
def noise0 : Vector Word 16 :=
  #v[0xD76AA478, 0xE8C7B756, 0x242070DB, 0xC1BDCEEE,
     0xF57C0FAF, 0x4787C62A, 0xA8304613, 0xFD469501,
     0x698098D8, 0x8B44F7AF, 0xFFFF5BB1, 0x895CD7BE,
     0x6B901122, 0xFD987193, 0xA679438E, 0x49B40821]

/-- NOISE[16..31] (R36). -/
def noise1 : Vector Word 16 :=
  #v[0xF61E2562, 0xC040B340, 0x265E5A51, 0xE9B6C7AA,
     0xD62F105D, 0x02441453, 0xD8A1E681, 0xE7D3FBC8,
     0x21E1CDE6, 0xC33707D6, 0xF4D50D87, 0x455A14ED,
     0xA9E3E905, 0xFCEFA3F8, 0x676F02D9, 0x8D2A4C8A]

/-- NOISE[32..47] (R36). -/
def noise2 : Vector Word 16 :=
  #v[0xFFFA3942, 0x8771F681, 0x6D9D6122, 0xFDE5380C,
     0xA4BEEA44, 0x4BDECFA9, 0xF6BB4B60, 0xBEBFBC70,
     0x289B7EC6, 0xEAA127FA, 0xD4EF3085, 0x04881D05,
     0xD9D4D039, 0xE6DB99E5, 0x1FA27CF8, 0xC4AC5665]

/-- NOISE[48..63] (R36). -/
def noise3 : Vector Word 16 :=
  #v[0xF4292244, 0x432AFF97, 0xAB9423A7, 0xFC93A039,
     0x655B59C3, 0x8F0CCC92, 0xFFEFF47D, 0x85845DD1,
     0x6FA87E4F, 0xFE2CE6E0, 0xA3014314, 0x4E0811A1,
     0xF7537E82, 0xBD3AF235, 0x2AD7D2BB, 0xEB86D391]

/-- The quarter of NOISE that one family of 16 rounds reads (R36). -/
def noiseGroup (r : Nat) : Vector Word 16 :=
  match r with
  | 0 => noise0
  | 1 => noise1
  | 2 => noise2
  | _ => noise3

/-- NOISE[i] (R36). -/
def noiseRom (i : BitVec 6) : Word := (noiseGroup (i.toNat / 16))[i.toNat % 16]

/-- DEST: digest byte j goes to index DEST[j] of PERM (R37). -/
def destRom : Vector (Fin 16) 16 := #v[2, 5, 8, 11, 14, 12, 1, 4, 7, 10, 13, 15, 0, 3, 6, 9]

/-- ALPHA[c], as R38 gives it by ranges. -/
def alphaRom (c : Code) : Byte :=
  if c.toNat = 0 then 0x2E
  else if c.toNat = 1 then 0x2F
  else if c.toNat ≤ 11 then 0x30 + BitVec.ofNat 8 (c.toNat - 2)
  else if c.toNat ≤ 37 then 0x41 + BitVec.ofNat 8 (c.toNat - 12)
  else 0x61 + BitVec.ofNat 8 (c.toNat - 38)

/-- MARKER: the bytes of `$1$` (R39). -/
def markerRom : List Byte := [0x24, 0x31, 0x24]

end Sys2Proof.Machine
end

