-- ==== Sys2Proof/Machine/Operands.lean ====
section
/-! DEFINITION. The operand forms: the sources BAPS can append (`40_buffer.md` R105), the digest a `q` selects
(`30_encoding.md` R75), and the byte-order and rotation primitives of `00_scope.md` R16, R17. -/

namespace Sys2Proof.Machine

/-- `rotl(a, s)` for 1 <= s <= 31 (`00_scope.md` R16). -/
def rotl (a : Word) (s : Nat) : Word := (a <<< s) ||| (a >>> (32 - s))

/-- Byte `k` of `le32(v)`: `v[8k+7:8k]` (`00_scope.md` R17). -/
def le32Byte (v : Word) (k : Nat) : Byte := v.extractLsb' (8 * k) 8

/-- `le64(v)`: eight bytes, the least significant first (`00_scope.md` R17). -/
def le64 (v : BitVec 64) : List Byte := (List.range 8).map fun k => v.extractLsb' (8 * k) 8

/-- The little-endian Word of four bytes, the lowest-indexed byte least significant (`20_memory.md` R51). -/
def wordOfBytes (b0 b1 b2 b3 : Byte) : Word :=
  b0.setWidth 32 ||| (b1.setWidth 32 <<< 8) ||| (b2.setWidth 32 <<< 16) ||| (b3.setWidth 32 <<< 24)

/-- `MemRead(4 i, 4)` of BUF, the only read of BUF a command makes (`00_scope.md` R17, `41_md5.md` R122). -/
def bufWord (buf : Vector Byte 64) (i : Fin 16) : Word :=
  wordOfBytes buf[4 * i.val] buf[4 * i.val + 1] buf[4 * i.val + 2] buf[4 * i.val + 3]

/-- `source(sel)` (`40_buffer.md` R105). -/
def sourceBytes (sel : BapsSource) (s : State) : List Byte :=
  match sel with
  | .pw => s.pw.toList.take s.pwlen.toNat
  | .salt => s.salt.toList
  | .marker => markerRom
  | .altp => s.alt.toList.take s.pwlen.toNat
  | .int => s.int.toList
  | .pw0 => [s.pw[0]]

/-- The digest EPRM and ENC read: DIG or INT (`30_encoding.md` R75). -/
def digestOf (q : DigestSource) (s : State) : Digest :=
  match q with
  | .dig => s.dig
  | .int => s.int

end Sys2Proof.Machine
end

