-- ==== Sys2Proof/Machine/Ops.lean ====
section
/-! DEFINITION. The shared operations: how commands compose and fault (`30_encoding.md` R80, `60_exceptions.md` R226), and
the two append functions (`40_buffer.md` R100, R101); and the one write of each register. -/

namespace Sys2Proof.Machine

/-- The write of BUF and LEN, which only go together (`10_state.md` R22). -/
def State.setBuf (s : State) (buf : Vector Byte 64) (len : BitVec 7) : State := { s with buf := buf, len := len }

/-- The write of A, B, C, D together (R20). -/
def State.setRegs (s : State) (a b c d : Word) : State := { s with a := a, b := b, c := c, d := d }

/-- The write of all of M (R21). -/
def State.setM (s : State) (m : Vector Word 16) : State := { s with m := m }

/-- The write of DIG (R23). -/
def State.setDig (s : State) (dig : Digest) : State := { s with dig := dig }

/-- The write of ALT (R24). -/
def State.setAlt (s : State) (alt : Digest) : State := { s with alt := alt }

/-- The write of INT (R25). -/
def State.setInt (s : State) (int : Digest) : State := { s with int := int }

/-- The write of PW (R26). -/
def State.setPw (s : State) (pw : Vector Byte 15) : State := { s with pw := pw }

/-- The write of PWLEN (R26). -/
def State.setPwlen (s : State) (pwlen : BitVec 4) : State := { s with pwlen := pwlen }

/-- The write of SALT (R27). -/
def State.setSalt (s : State) (salt : Vector Byte 8) : State := { s with salt := salt }

/-- The write of INUM (R28). -/
def State.setInum (s : State) (inum : BitVec 10) : State := { s with inum := inum }

/-- The write of PERM (R29). -/
def State.setPerm (s : State) (perm : Digest) : State := { s with perm := perm }

/-- The write of CODE (R30). -/
def State.setCode (s : State) (code : Vector Code 22) : State := { s with code := code }

/-- The write of OUT (R31). -/
def State.setOut (s : State) (out : Vector Byte 22) : State := { s with out := out }

/-- `n` free values are used up (log 2). -/
def State.draw (s : State) (n : Nat) : State := { s with freeCtr := s.freeCtr + n }

/-- How a command, or a part of one, ends before the core reports it (`00_scope.md` R13). -/
inductive Result where
  /-- Every step took its effect. -/
  | ok (s : State)
  /-- An append raised CapacityViolation; `s` is the state the steps completed before it left (R226). -/
  | raised (s : State)
  deriving DecidableEq, Repr

/-- The next step, unless one has raised (R80). -/
def Result.andThen (r : Result) (f : State → Result) : Result :=
  match r with
  | .ok s => f s
  | .raised s => .raised s

/-- `run(c1; c2; ...; ck)`: in order, each from the state the previous one left, nothing after one that raises
(`00_scope.md` R17, `30_encoding.md` R80). -/
def run : List (State → Result) → State → Result
  | [], s => .ok s
  | c :: cs, s => (c s).andThen (run cs)

/-- FAULT ENTRY, the taking of the one exception (`60_exceptions.md` R226): STATUS.FAULT <- 1, STATUS.FCAUSE <- 1,
STATUS.BUSY <- 0, all other state as the completed steps made it. There is no handler, and no return from it: only reset
leaves the faulted state (R228), which is `State.atReset`. -/
def faultEntry (s : State) : State := { s with fault := true, fcause := 1, busy := false }

/-- What a command answers: a completed command's state, or the state after fault entry, applied once (R80). -/
def Result.outcome : Result → Host.Outcome State Fault Refusal
  | .ok s => .next s
  | .raised s => .next (faultEntry s)

/-- `appendByte(b)` (R100); nothing is written when it raises. LEN above 64 occurs in no run (R107) and raises (log 13). -/
def appendByte (b : Byte) (s : State) : Result :=
  if h : s.len.toNat < cap then .ok (s.setBuf (s.buf.set s.len.toNat b h) (s.len + 1)) else .raised s

/-- BUF with `bs` written from index `at0` on: `BUF[at0 + k] <- bs[k]` (R101). -/
def writeBytes (buf : Vector Byte 64) (at0 : Nat) (bs : List Byte) : Vector Byte 64 :=
  Vector.ofFn fun k => if at0 ≤ k.val then bs.getD (k.val - at0) buf[k] else buf[k]

/-- `appendBytes(s)`, all or nothing; the comparison is on unbounded integers (R101). -/
def appendBytes (bs : List Byte) (s : State) : Result :=
  if s.len.toNat + bs.length > cap then .raised s
  else .ok (s.setBuf (writeBytes s.buf s.len.toNat bs) (s.len + BitVec.ofNat 7 bs.length))

end Sys2Proof.Machine
end

