-- ==== Sys2Proof/Machine/Buf.lean ====
section
/-! DEFINITION. The BUF family (`40_buffer.md`): BCLR, BAPB, BAPS. -/

namespace Sys2Proof.Machine

/-- An empty buffer's cells: 64 free values drawn from `ctr` on (log 4). -/
def freeBuf (ctr : Nat) : Vector Byte 64 := Vector.ofFn fun k => Config.freeByte (ctr + k)

/-- BCLR (R102): LEN <- 0 and every BUF cell unspecified, that is a free value drawn afresh. -/
def bclr (s : State) : Result := .ok ((s.draw 64).setBuf (freeBuf s.freeCtr) 0)

/-- BAPB imm8 (R103). -/
def bapb (imm8 : Byte) (s : State) : Result := appendByte imm8 s

/-- BAPS sel (R104): the source is read before anything is written. -/
def baps (sel : BapsSource) (s : State) : Result := appendBytes (sourceBytes sel s) s

/-- The command BCLR. -/
def execBclr (s : State) : Host.Outcome State Fault Refusal := (bclr s).outcome

/-- The command BAPB. -/
def execBapb (imm8 : Byte) (s : State) : Host.Outcome State Fault Refusal := (bapb imm8 s).outcome

/-- The command BAPS. -/
def execBaps (sel : BapsSource) (s : State) : Host.Outcome State Fault Refusal := (baps sel s).outcome

end Sys2Proof.Machine
end

