-- ==== Sys2Proof/Machine/Enc.lean ====
section
/-! DEFINITION. The ENC family (`43_encoder.md`): EPRM, EPAK, EMAP and the macro ENC. -/

namespace Sys2Proof.Machine

/-- PERM after the sixteen writes `PERM[DEST[j]] <- src[j]`, j ascending (R201). -/
def permute (src perm : Digest) : Digest :=
  (List.finRange 16).foldl (fun (p : Digest) (j : Fin 16) => p.set (destRom[j]).val src[j] (destRom[j]).isLt) perm

/-- EPRM q (R201). -/
def eprm (q : DigestSource) (s : State) : Result := .ok (s.setPerm (permute (digestOf q s) s.perm))

/-- The four codes `b`, `a OR d`, `c OR f`, `e` of a full group of bytes x, y, z (R202). -/
def packGroup (x y z : Byte) : Vector Code 4 :=
  #v[(x &&& 0x3F).setWidth 6,
     ((x >>> 6) ||| ((y &&& 0x0F) <<< 2)).setWidth 6,
     ((y >>> 4) ||| ((z &&& 0x03) <<< 4)).setWidth 6,
     ((z &&& 0xFC) >>> 2).setWidth 6]

/-- The two codes `b`, `a` of the last group, one byte only (R202). -/
def packLast (x : Byte) : Vector Code 2 := #v[(x &&& 0x3F).setWidth 6, (x >>> 6).setWidth 6]

/-- CODE[k]: code k mod 4 of full group t = k / 4, which starts at i = 3 t, for k < 20; then the last group's two (R202). -/
def packedCode (p : Digest) (k : Fin 22) : Code :=
  if h : k.val < 20 then
    (packGroup (p[3 * (k.val / 4)]'(by omega)) (p[3 * (k.val / 4) + 1]'(by omega))
      (p[3 * (k.val / 4) + 2]'(by omega)))[k.val % 4]'(by omega)
  else (packLast p[15])[k.val - 20]'(by omega)

/-- The 22 codes of PERM (R202). -/
def packCodes (p : Digest) : Vector Code 22 := Vector.ofFn (packedCode p)

/-- EPAK (R202). -/
def epak (s : State) : Result := .ok (s.setCode (packCodes s.perm))

/-- EMAP (R203): OUT[k] <- ALPHA[CODE[k]]. -/
def emap (s : State) : Result := .ok (s.setOut (s.code.map alphaRom))

/-- ENC q (R204): `run(EPRM q; EPAK; EMAP)`. -/
def enc (q : DigestSource) (s : State) : Result := run [eprm q, epak, emap] s

/-- The command EPRM. -/
def execEprm (q : DigestSource) (s : State) : Host.Outcome State Fault Refusal := (eprm q s).outcome

/-- The command EPAK. -/
def execEpak (s : State) : Host.Outcome State Fault Refusal := (epak s).outcome

/-- The command EMAP. -/
def execEmap (s : State) : Host.Outcome State Fault Refusal := (emap s).outcome

/-- The command ENC. -/
def execEnc (q : DigestSource) (s : State) : Host.Outcome State Fault Refusal := (enc q s).outcome

end Sys2Proof.Machine
end

