-- ==== Sys2Proof/Machine/Md5.lean ====
section
/-! DEFINITION. The MD5 family (`41_md5.md`): MPAD, MUNP, MINI, MRND, MFIN and the macro MD5H. -/

namespace Sys2Proof.Machine

/-- `while LEN < 56: appendByte(0x00)` (R121), with fuel; 56 turns are enough from any LEN. -/
def padZeros : Nat → State → Result
  | 0, s => .ok s
  | n + 1, s => if s.len.toNat < padTo then (appendByte 0x00 s).andThen (padZeros n) else .ok s

/-- MPAD (R121): `0x80`, zeros up to 56, then the length in bits, which is taken before the first append. -/
def mpad (s : State) : Result :=
  run [appendByte 0x80, padZeros padTo, appendBytes (le64 (s.len.setWidth 64 * 8))] s

/-- Message word i as MUNP decodes it: from BUF, or unspecified as a whole if it touches a cell at or above LEN
(R122, log 5). -/
def unpackedWord (s : State) (i : Fin 16) : Word :=
  if 4 * i.val + 4 ≤ s.len.toNat then bufWord s.buf i else Config.freeWord (s.freeCtr + i)

/-- MUNP (R122): all sixteen words at once. Free values are drawn only when LEN < 64. -/
def munp (s : State) : Result :=
  .ok ((s.setM (Vector.ofFn fun i => unpackedWord s i)).draw (if s.len.toNat < cap then 16 else 0))

/-- MINI (R123): A, B, C, D <- INITK[0..3]. -/
def mini (s : State) : Result := .ok (s.setRegs initK[0] initK[1] initK[2] initK[3])

/-- F_r(B, C, D) (R124). -/
def mixF (r : Nat) (b c d : Word) : Word :=
  match r with
  | 0 => (b &&& c) ||| (~~~b &&& d)
  | 1 => (b &&& d) ||| (c &&& ~~~d)
  | 2 => b ^^^ c ^^^ d
  | _ => c ^^^ (b ||| ~~~d)

/-- G_r(i) for r = i / 16 (R125), on the round index itself. -/
def mixG (i : Nat) : Nat :=
  match i / 16 with
  | 0 => i % 16
  | 1 => (5 * i + 1) % 16
  | 2 => (3 * i + 5) % 16
  | _ => (7 * i) % 16

/-- G_r(i) is an index of M. -/
theorem mixG_lt (i : Nat) : mixG i < 16 := by
  unfold mixG; split <;> omega

/-- The new B of round i, `rotl(A + F_r(B,C,D) + M[G_r(i)] + NOISE[i], SHIFT[i]) + B` (R127). -/
def roundWord (i : BitVec 6) (a b c d : Word) (m : Vector Word 16) : Word :=
  rotl (a + mixF (i.toNat / 16) b c d + m[mixG i.toNat]'(mixG_lt _) + noiseRom i) (shiftRom i) + b

/-- MRND i (R127): `(A, B, C, D) <- (D, t, B, C)`, all four from the old values. -/
def mrnd (i : BitVec 6) (s : State) : Result :=
  .ok (s.setRegs s.d (roundWord i s.a s.b s.c s.d s.m) s.b s.c)

/-- The digest MFIN serialises (R128): byte k is byte k mod 4 of the sum of register k / 4 and its INITK. -/
def digestOfWords (w : Vector Word 4) : Digest :=
  Vector.ofFn fun k : Fin 16 => le32Byte (w[k.val / 4] + initK[k.val / 4]) (k.val % 4)

/-- MFIN (R128): DIG <- the digest; A, B, C, D are not changed. -/
def mfin (s : State) : Result := .ok (s.setDig (digestOfWords #v[s.a, s.b, s.c, s.d]))

/-- The sixty-four rounds in ascending order, each index once (R129). -/
def rounds : List (State → Result) := (List.range nRound).map fun i => mrnd (BitVec.ofNat 6 i)

/-- MD5H (R129): `run(MPAD; MUNP; MINI; MRND 0; ...; MRND 63; MFIN)`. -/
def md5h (s : State) : Result := run ([mpad, munp, mini] ++ rounds ++ [mfin]) s

/-- The command MPAD. -/
def execMpad (s : State) : Host.Outcome State Fault Refusal := (mpad s).outcome

/-- The command MUNP. -/
def execMunp (s : State) : Host.Outcome State Fault Refusal := (munp s).outcome

/-- The command MINI. -/
def execMini (s : State) : Host.Outcome State Fault Refusal := (mini s).outcome

/-- The command MRND. -/
def execMrnd (i : BitVec 6) (s : State) : Host.Outcome State Fault Refusal := (mrnd i s).outcome

/-- The command MFIN. -/
def execMfin (s : State) : Host.Outcome State Fault Refusal := (mfin s).outcome

/-- The command MD5H. -/
def execMd5h (s : State) : Host.Outcome State Fault Refusal := (md5h s).outcome

end Sys2Proof.Machine
end

