-- ==== Sys2Proof/Machine/Pwh.lean ====
section
/-! DEFINITION. The PWH family (`42_pwhash.md`): the loads LDPW, LDPL, LDSL, LDDG, the moves MVD and CLRI, and the macros
PALT, PINT, PRND, PWH. -/

namespace Sys2Proof.Machine

/-- LDPW idx, imm8 (R161): PW[idx] <- imm8. The ill-formed idx 15 spells a reserved word (`30_encoding.md` R76). -/
def execLdpw (idx : BitVec 4) (imm8 : Byte) (s : State) : Host.Outcome State Fault Refusal :=
  if h : idx.toNat < 15 then .next (s.setPw (s.pw.set idx.toNat imm8 h)) else .refused (.reservedWord .index)

/-- LDPL n (R162): PWLEN <- n. -/
def execLdpl (n : BitVec 4) (s : State) : Host.Outcome State Fault Refusal := .next (s.setPwlen n)

/-- LDSL idx, imm8 (R163): SALT[idx] <- imm8. The ill-formed idx 8 to 15 spell reserved words (`30_encoding.md` R76). -/
def execLdsl (idx : BitVec 4) (imm8 : Byte) (s : State) : Host.Outcome State Fault Refusal :=
  if h : idx.toNat < 8 then .next (s.setSalt (s.salt.set idx.toNat imm8 h)) else .refused (.reservedWord .index)

/-- LDDG idx, imm8 (R164): DIG[idx] <- imm8. -/
def execLddg (idx : BitVec 4) (imm8 : Byte) (s : State) : Host.Outcome State Fault Refusal :=
  .next (s.setDig (s.dig.set idx.toNat imm8 idx.isLt))

/-- MVD q (R165): ALT or INT <- DIG. -/
def mvd (q : MvdDest) (s : State) : Result :=
  match q with
  | .alt => .ok (s.setAlt s.dig)
  | .int => .ok (s.setInt s.dig)

/-- CLRI (R166): INUM <- 0. -/
def clri (s : State) : Result := .ok (s.setInum 0)

/-- PALT (R167), stage 1. -/
def palt (s : State) : Result := run [bclr, baps .pw, baps .salt, baps .pw, md5h, mvd .alt] s

/-- The bit loop of stage 2 (R169), with fuel: the local counter `n` has 4 bits, so it is 0 after at most four turns. -/
def bitLoop : Nat → Nat → State → Result
  | 0, _, s => .ok s
  | fuel + 1, n, s =>
    if n > 0 then (if n % 2 = 0 then baps .pw0 s else bapb 0x00 s).andThen (bitLoop fuel (n / 2)) else .ok s

/-- PINT (R168), stage 2; the bit loop starts from n = PWLEN. -/
def pint (s : State) : Result :=
  run [bclr, baps .pw, baps .marker, baps .salt, baps .altp, bitLoop 4 s.pwlen.toNat, md5h, mvd .int] s

/-- The appends of one stage-3 iteration, chosen by the INUM it starts with (R170). -/
def roundAppends (inum : Nat) : List (State → Result) :=
  [if inum % 2 = 0 then baps .int else baps .pw]
    ++ (if inum % 3 ≠ 0 then [baps .salt] else [])
    ++ (if inum % 7 ≠ 0 then [baps .pw] else [])
    ++ [if inum % 2 = 0 then baps .pw else baps .int]

/-- `INUM <- (INUM + 1) mod 1024` (R170). -/
def nextInum (s : State) : Result := .ok (s.setInum (s.inum + 1))

/-- PRND (R170), one stage-3 iteration; INUM advances last and only if nothing raised. -/
def prnd (s : State) : Result :=
  run ([bclr] ++ roundAppends s.inum.toNat ++ [md5h, mvd .int, nextInum]) s

/-- PWH (R171): stage 1, stage 2, CLRI, stage 3 exactly 1000 times, stage 4. -/
def pwh (s : State) : Result := run ([palt, pint, clri] ++ List.replicate nIter prnd ++ [enc .int]) s

/-- The command MVD. -/
def execMvd (q : MvdDest) (s : State) : Host.Outcome State Fault Refusal := (mvd q s).outcome

/-- The command CLRI. -/
def execClri (s : State) : Host.Outcome State Fault Refusal := (clri s).outcome

/-- The command PALT. -/
def execPalt (s : State) : Host.Outcome State Fault Refusal := (palt s).outcome

/-- The command PINT. -/
def execPint (s : State) : Host.Outcome State Fault Refusal := (pint s).outcome

/-- The command PRND. -/
def execPrnd (s : State) : Host.Outcome State Fault Refusal := (prnd s).outcome

/-- The command PWH. -/
def execPwh (s : State) : Host.Outcome State Fault Refusal := (pwh s).outcome

end Sys2Proof.Machine
end

