-- ==== Sys2Proof/Machine/Dispatch.lean ====
section
/-! DEFINITION. One arm per command (`30_encoding.md` R73). -/

namespace Sys2Proof.Machine

/-- The meaning of each command. -/
def exec (i : Instr) (s : State) : Host.Outcome State Fault Refusal :=
  match i with
  -- BUF family
  | .bclr => Sys2Proof.Machine.execBclr s
  | .bapb imm8 => Sys2Proof.Machine.execBapb imm8 s
  | .baps sel => Sys2Proof.Machine.execBaps sel s
  -- MD5 family
  | .mpad => Sys2Proof.Machine.execMpad s
  | .munp => Sys2Proof.Machine.execMunp s
  | .mini => Sys2Proof.Machine.execMini s
  | .mrnd r => Sys2Proof.Machine.execMrnd r s
  | .mfin => Sys2Proof.Machine.execMfin s
  | .md5h => Sys2Proof.Machine.execMd5h s
  -- PWH family
  | .ldpw idx imm8 => Sys2Proof.Machine.execLdpw idx imm8 s
  | .ldsl idx imm8 => Sys2Proof.Machine.execLdsl idx imm8 s
  | .lddg idx imm8 => Sys2Proof.Machine.execLddg idx imm8 s
  | .ldpl n => Sys2Proof.Machine.execLdpl n s
  | .mvd q => Sys2Proof.Machine.execMvd q s
  | .clri => Sys2Proof.Machine.execClri s
  | .palt => Sys2Proof.Machine.execPalt s
  | .pint => Sys2Proof.Machine.execPint s
  | .prnd => Sys2Proof.Machine.execPrnd s
  | .pwh => Sys2Proof.Machine.execPwh s
  -- ENC family
  | .eprm q => Sys2Proof.Machine.execEprm q s
  | .epak => Sys2Proof.Machine.execEpak s
  | .emap => Sys2Proof.Machine.execEmap s
  | .enc q => Sys2Proof.Machine.execEnc q s

end Sys2Proof.Machine
end

