-- ==== Sys2Proof/Machine/Port.lean ====
section
/-! DEFINITION. The command port and the reset input (`30_encoding.md` R81, `70_reset_and_hazards.md` R250): what the core
takes from the host's next event, and what it does at a command's two ends. -/

namespace Sys2Proof.Machine

/-- Acceptance: the event is used up and BUSY becomes 1 (R81). -/
def acceptCommand (rest : List HostEvent) (s : State) : State := { s with host := rest, busy := true }

/-- Completion: BUSY becomes 0 (R81). After fault entry BUSY is 0 already. -/
def completeCommand (o : Host.Outcome State Fault Refusal) : Host.Outcome State Fault Refusal :=
  match o with
  | .next s => .next { s with busy := false }
  | .fault r => .fault r
  | .refused r => .refused r

/-- A word presented while the core does not accept one: it has no effect (R81); the event is over (log 7). -/
def ignoreCommand (rest : List HostEvent) (s : State) : State := { s with host := rest }

/-- The host asserts `rst` (R250, log 8). -/
def assertRst (rest : List HostEvent) (s : State) : State := { s with host := rest, rst := true }

/-- A reset inside a command (R250): the command is abandoned without completing, so BUSY, which only completion, fault or
the release of reset clears (`10_state.md` R32), stays 1; nothing of its partial effect may be relied on, so every register
is a free value (log 9). STATUS is otherwise as at acceptance. -/
def abandonCommand (rest : List HostEvent) (s : State) : State :=
  { State.atReset s.freeCtr rest with
    len := BitVec.ofNat 7 (Config.freeLen s.freeCtr).val
    pwlen := Config.freePwlen s.freeCtr
    inum := Config.freeInum s.freeCtr
    busy := true, fault := s.fault, fcause := s.fcause, rst := true }

/-- The host releases `rst`: the state is exactly that of the reset table (R250, R43), its free values drawn afresh.
Releasing a wire that is not asserted is nothing. -/
def releaseRst (rest : List HostEvent) (s : State) : State :=
  if s.rst then State.atReset s.freeCtr rest else { s with host := rest }

/-- A command word with the `nbits` bits `w`, as the host presents it (`30_encoding.md` R70). -/
def presentedWord (nbits w : Nat) : HostEvent := .present (BitVec.ofNat 16 (w % 2 ^ nbits))

end Sys2Proof.Machine
end

