-- ==== Sys2Proof/Machine/Step.lean ====
section
/-! DEFINITION. One step (`00_scope.md` R11): the core meets the host's next event. A presented word that the core accepts
runs as one whole command, from acceptance to completion, fault, or the reset that abandons it. -/

namespace Sys2Proof.Machine

/-- An accepted word: run its command, or refuse it if it is reserved (`30_encoding.md` R76, R81). -/
def runWord (cw : CmdWord) (s : State) : Host.Outcome State Fault Refusal :=
  match decode cw with
  | .instr i => completeCommand (exec i s)
  | .reserved why => .refused (.reservedWord why)

/-- An accepted word whose command a reset abandons (`70_reset_and_hazards.md` R250); a reserved word is no command
(`30_encoding.md` R76). -/
def abandonWord (cw : CmdWord) (rest : List HostEvent) (s : State) : Host.Outcome State Fault Refusal :=
  match decode cw with
  | .instr _ => .next (abandonCommand rest s)
  | .reserved why => .refused (.reservedWord why)

/-- One step. With no event the core waits and keeps all its state (`60_exceptions.md` R236). -/
def step (s : State) : Host.Outcome State Fault Refusal :=
  match s.host with
  | [] => .next s
  | .presentThenReset cw :: rest => if s.accepts then abandonWord cw rest s else .next (assertRst rest s)
  | .assertReset :: rest => .next (assertRst rest s)
  | .releaseReset :: rest => .next (releaseRst rest s)
  | .present cw :: rest =>
    if s.accepts then runWord cw (acceptCommand rest s) else .next (ignoreCommand rest s)

/-- `s` with the word `w` as the host's next presentation, so that the next step of a core that accepts runs it (log 6). -/
def State.withFetchWord (s : State) (nbits w : Nat) : State := { s with host := presentedWord nbits w :: s.host }

end Sys2Proof.Machine
end

