-- ==== Sys2Proof/Machine/ReadPort.lean ====
section
/-! DEFINITION. The host's read port (`10_state.md` R42; `70_reset_and_hazards.md` R256). A read is a function of the
state: it changes nothing (`20_memory.md` R57). -/

namespace Sys2Proof.Machine

/-- The map of R42 for an idle core, by the 9-bit address as a number; reserved addresses read 0x00. -/
def readMap (s : State) (x : Nat) : Byte :=
  if h : x < 0x040 then s.buf[x]
  else if h : x < 0x080 then le32Byte (s.m[(x - 0x040) / 4]'(by omega)) (x % 4)
  else if x < 0x084 then le32Byte s.a (x % 4)
  else if x < 0x088 then le32Byte s.b (x % 4)
  else if x < 0x08C then le32Byte s.c (x % 4)
  else if x < 0x090 then le32Byte s.d (x % 4)
  else if h : x < 0x0A0 then s.dig[x - 0x090]'(by omega)
  else if h : x < 0x0B0 then s.alt[x - 0x0A0]'(by omega)
  else if h : x < 0x0C0 then s.int[x - 0x0B0]'(by omega)
  else if h : x < 0x0CF then s.pw[x - 0x0C0]'(by omega)
  else if x = 0x0CF then s.pwlen.setWidth 8
  else if h : x < 0x0D8 then s.salt[x - 0x0D0]'(by omega)
  else if x = 0x0D8 then s.len.setWidth 8
  else if x = 0x0D9 then s.status
  else if x = 0x0DA then s.inum.extractLsb' 0 8
  else if x = 0x0DB then (s.inum.extractLsb' 8 2).setWidth 8
  else if x < 0x0E0 then 0x00
  else if h : x < 0x0F0 then s.perm[x - 0x0E0]'(by omega)
  else if h : x < 0x106 then (s.code[x - 0x0F0]'(by omega)).setWidth 8
  else if x < 0x110 then 0x00
  else if h : x < 0x126 then s.out[x - 0x110]'(by omega)
  else 0x00

/-- `rd_data` for `rd_addr` (R42): while BUSY = 1 every address but STATUS's reads unspecified (R256, log 10). -/
def State.readPort (s : State) (rdAddr : BitVec 9) : Byte :=
  if s.busy && rdAddr != 0x0D9 then Config.busyRead s.freeCtr rdAddr else readMap s rdAddr.toNat

end Sys2Proof.Machine
end

