-- ==== Sys2Proof/Safety.lean ====
section
/-! DEFINITION. What counts as a legal state and a sound run, and the functions of the source's contracts
(`hash(buffer)`, `hashPassword(password, salt)`, the Encoder) as functions on plain values, in the terms the statements
use. The machine never calls them. -/

namespace Sys2Proof.Machine

/-- The invariant of every state the host can observe between steps: LEN <= 64 (`40_buffer.md` R107); BUSY = 0 (a command
runs within one step, log 10), but for a core whose command a reset abandoned, where `rst` is asserted and no fault is
latched (`70_reset_and_hazards.md` R250, log 9); FCAUSE is 1 exactly when FAULT is 1, else 0 (`10_state.md` R32). -/
abbrev State.Inv (s : State) : Prop :=
  s.len.toNat ≤ 64 ∧ (s.busy = true → s.rst = true ∧ s.fault = false) ∧ s.fcause = (if s.fault then 1 else 0)

/-- A state that may hold a result: no fault is latched (`60_exceptions.md` R226). -/
abbrev State.Healthy (s : State) : Prop := s.fault = false

/-- The commands of a list one after another, as a host drives them: none is accepted after one that faulted
(`30_encoding.md` R81). -/
def execSeq : List Instr → State → Host.Outcome State Fault Refusal
  | [], s => .next s
  | i :: is, s =>
    if s.fault then .next s
    else
      match exec i s with
      | .next t => execSeq is t
      | .fault r => .fault r
      | .refused r => .refused r

/-- The content of the buffer, the byte sequence BUF[0..LEN-1] (`10_state.md` R22). -/
def State.content (s : State) : List Byte := s.buf.toList.take s.len.toNat

/-- The password, PW[0..PWLEN-1] (`10_state.md` R26). -/
def State.password (s : State) : List Byte := s.pw.toList.take s.pwlen.toNat

/-- The salt (`10_state.md` R27). -/
def State.saltBytes (s : State) : List Byte := s.salt.toList

/-- The padded block of a message of at most 55 bytes (`20_memory.md` R58). -/
def padMessage (msg : List Byte) : List Byte :=
  msg ++ [0x80] ++ List.replicate (55 - msg.length) 0x00 ++ le64 (BitVec.ofNat 64 (8 * msg.length))

/-- The sixteen little-endian words of a block (`41_md5.md` R122). -/
def messageWords (block : List Byte) : Vector Word 16 :=
  Vector.ofFn fun i => wordOfBytes (block.getD (4 * i) 0) (block.getD (4 * i + 1) 0) (block.getD (4 * i + 2) 0)
    (block.getD (4 * i + 3) 0)

/-- Round `i` on the register tuple (A, B, C, D) (`41_md5.md` R127). -/
def roundRegs (m : Vector Word 16) (r : Word × Word × Word × Word) (i : Nat) : Word × Word × Word × Word :=
  (r.2.2.2, roundWord (BitVec.ofNat 6 i) r.1 r.2.1 r.2.2.1 r.2.2.2 m, r.2.1, r.2.2.1)

/-- The 64 rounds folded over their index from the state MINI leaves (`41_md5.md` R132). -/
def compress (m : Vector Word 16) : Word × Word × Word × Word :=
  (List.range 64).foldl (roundRegs m) (initK[0], initK[1], initK[2], initK[3])

/-- `hash(buffer)` of a message of at most 55 bytes (`41_md5.md` R120, R129). -/
def md5 (msg : List Byte) : Digest :=
  let r := compress (messageWords (padMessage msg))
  digestOfWords #v[r.1, r.2.1, r.2.2.1, r.2.2.2]

/-- Stage 1: the alternate hash (`42_pwhash.md` R167). -/
def altHash (pw salt : List Byte) : Digest := md5 (pw ++ salt ++ pw)

/-- The bytes the stage-2 bit loop appends: the binary digits of the length from the least significant upward, a 1 giving
0x00 and a 0 giving the password's first byte (`42_pwhash.md` R169). -/
def bitTail (pw : List Byte) : List Byte :=
  (Nat.digits 2 pw.length).map fun digit => if digit = 1 then 0x00 else pw.headD 0x00

/-- Stage 2: the first intermediate hash (`42_pwhash.md` R168). -/
def firstIntHash (pw salt : List Byte) : Digest :=
  md5 (pw ++ markerRom ++ salt ++ (altHash pw salt).toList.take pw.length ++ bitTail pw)

/-- The message of stage-3 iteration `i` (`42_pwhash.md` R170). -/
def roundMessage (pw salt : List Byte) (int : Digest) (i : Nat) : List Byte :=
  (if i % 2 = 0 then int.toList else pw) ++ (if i % 3 ≠ 0 then salt else []) ++ (if i % 7 ≠ 0 then pw else [])
    ++ (if i % 2 = 0 then pw else int.toList)

/-- The intermediate hash after `n` stage-3 iterations (`42_pwhash.md` R170, R171). -/
def chainHash (pw salt : List Byte) : Nat → Digest
  | 0 => firstIntHash pw salt
  | n + 1 => md5 (roundMessage pw salt (chainHash pw salt n) n)

/-- The 24-bit group numbers N_0 to N_4 of the encoder, from the source bytes (`43_encoder.md` R204). -/
def groupNumber (s : Digest) (t : Nat) : Nat :=
  match t with
  | 0 => s[12].toNat + 2 ^ 8 * s[6].toNat + 2 ^ 16 * s[0].toNat
  | 1 => s[13].toNat + 2 ^ 8 * s[7].toNat + 2 ^ 16 * s[1].toNat
  | 2 => s[14].toNat + 2 ^ 8 * s[8].toNat + 2 ^ 16 * s[2].toNat
  | 3 => s[15].toNat + 2 ^ 8 * s[9].toNat + 2 ^ 16 * s[3].toNat
  | 4 => s[5].toNat + 2 ^ 8 * s[10].toNat + 2 ^ 16 * s[4].toNat
  | _ => s[11].toNat

/-- The 64 characters of the alphabet as one string (`10_state.md` R38). -/
def alphabet : String := "./0123456789ABCDEFGHIJKLMNOPQRSTUVWXYZabcdefghijklmnopqrstuvwxyz"

/-- The ASCII code of character `c` of the alphabet. -/
def alphabetByte (c : Nat) : Byte := BitVec.ofNat 8 (alphabet.toList.getD c '.').toNat

/-- The Encoder (`43_encoder.md` R204): character k is the alphabet's at six-bit piece k mod 4 of group k / 4, from the
bottom. -/
def encodeText (d : Digest) : Vector Byte 22 :=
  Vector.ofFn fun k => alphabetByte (groupNumber d (k.val / 4) / 2 ^ (6 * (k.val % 4)) % 64)

/-- `hashPassword(password, salt)` (`42_pwhash.md` R160, R171): 1000 stage-3 iterations, then the encoder. -/
def hashPassword (pw salt : List Byte) : Vector Byte 22 := encodeText (chainHash pw salt 1000)

end Sys2Proof.Machine
end

