-- ==== Sys2Proof/Certificates/Slice0/Obligations.lean ====
section
/-! DEFINITION. The statements about DA-CORE for the provers. Each docstring names the rule of `spec/` it formalises, or the
log entry it rests on. A record update `{ s with … }` names every field that moves: all others are unchanged. -/

open Sys2Proof Sys2Proof.Machine

/-! ## Encoding -/

/-- O1. Words written out from the opcode map (`30_encoding.md` R73), one of every row, decode to their commands. -/
def Obligations.DecodeSampleWords : Prop :=
  decode 0x1000 = .instr .bclr ∧ decode 0x1161 = .instr (.bapb 0x61) ∧ decode 0x1204 = .instr (.baps .int) ∧
  decode 0x2000 = .instr .mpad ∧ decode 0x2100 = .instr .munp ∧ decode 0x2200 = .instr .mini ∧
  decode 0x233F = .instr (.mrnd 63) ∧ decode 0x2400 = .instr .mfin ∧ decode 0x2F00 = .instr .md5h ∧
  decode 0x3E41 = .instr (.ldpw 14 0x41) ∧ decode 0x4768 = .instr (.ldsl 7 0x68) ∧
  decode 0x5F7E = .instr (.lddg 15 0x7E) ∧ decode 0x6005 = .instr (.ldpl 5) ∧ decode 0x6101 = .instr (.mvd .int) ∧
  decode 0x6200 = .instr .clri ∧ decode 0x6300 = .instr .palt ∧ decode 0x6400 = .instr .pint ∧
  decode 0x6500 = .instr .prnd ∧ decode 0x6F00 = .instr .pwh ∧ decode 0x7001 = .instr (.eprm .int) ∧
  decode 0x7100 = .instr .epak ∧ decode 0x7200 = .instr .emap ∧ decode 0x7F00 = .instr (.enc .dig)

/-- O2. No bit of an encoding is dropped: every command, with every operand its row admits, comes back. -/
def Obligations.DecodeOfEncodeIsTheInstr : Prop :=
  ∀ i : Instr, i.wellFormed = true → decode (encode i) = .instr i

/-- O3. Each word has one meaning: a word that decodes is the encoding of the well-formed command it gives. -/
def Obligations.EncodeOfDecodeIsTheWord : Prop :=
  ∀ (cw : CmdWord) (i : Instr), decode cw = .instr i → i.wellFormed = true ∧ encode i = cw

/-- O4. The decoder is the table of R73: `CW AND mask = match` and the constraint, with the operands of R72, R74, R75. -/
def Obligations.DecodeFollowsTheOpcodeMap : Prop :=
  ∀ cw : CmdWord,
    let imm8 : Byte := cw.extractLsb' 0 8
    let idx : BitVec 4 := cw.extractLsb' 8 4
    let sel : BitVec 3 := cw.extractLsb' 0 3
    let q : BitVec 1 := cw.extractLsb' 0 1
    (cw &&& 0xFFFF = 0x1000 ↔ decode cw = .instr .bclr) ∧
    (cw &&& 0xFF00 = 0x1100 ↔ decode cw = .instr (.bapb imm8)) ∧
    (cw &&& 0xFFF8 = 0x1200 ∧ sel = 0 ↔ decode cw = .instr (.baps .pw)) ∧
    (cw &&& 0xFFF8 = 0x1200 ∧ sel = 1 ↔ decode cw = .instr (.baps .salt)) ∧
    (cw &&& 0xFFF8 = 0x1200 ∧ sel = 2 ↔ decode cw = .instr (.baps .marker)) ∧
    (cw &&& 0xFFF8 = 0x1200 ∧ sel = 3 ↔ decode cw = .instr (.baps .altp)) ∧
    (cw &&& 0xFFF8 = 0x1200 ∧ sel = 4 ↔ decode cw = .instr (.baps .int)) ∧
    (cw &&& 0xFFF8 = 0x1200 ∧ sel = 5 ↔ decode cw = .instr (.baps .pw0)) ∧
    (cw &&& 0xFFFF = 0x2000 ↔ decode cw = .instr .mpad) ∧
    (cw &&& 0xFFFF = 0x2100 ↔ decode cw = .instr .munp) ∧
    (cw &&& 0xFFFF = 0x2200 ↔ decode cw = .instr .mini) ∧
    (cw &&& 0xFFC0 = 0x2300 ↔ decode cw = .instr (.mrnd (cw.extractLsb' 0 6))) ∧
    (cw &&& 0xFFFF = 0x2400 ↔ decode cw = .instr .mfin) ∧
    (cw &&& 0xFFFF = 0x2F00 ↔ decode cw = .instr .md5h) ∧
    (cw &&& 0xF000 = 0x3000 ∧ idx.toNat ≤ 14 ↔ decode cw = .instr (.ldpw idx imm8)) ∧
    (cw &&& 0xF000 = 0x4000 ∧ idx.toNat ≤ 7 ↔ decode cw = .instr (.ldsl idx imm8)) ∧
    (cw &&& 0xF000 = 0x5000 ↔ decode cw = .instr (.lddg idx imm8)) ∧
    (cw &&& 0xFFF0 = 0x6000 ↔ decode cw = .instr (.ldpl (cw.extractLsb' 0 4))) ∧
    (cw &&& 0xFFFE = 0x6100 ∧ q = 0 ↔ decode cw = .instr (.mvd .alt)) ∧
    (cw &&& 0xFFFE = 0x6100 ∧ q = 1 ↔ decode cw = .instr (.mvd .int)) ∧
    (cw &&& 0xFFFF = 0x6200 ↔ decode cw = .instr .clri) ∧
    (cw &&& 0xFFFF = 0x6300 ↔ decode cw = .instr .palt) ∧
    (cw &&& 0xFFFF = 0x6400 ↔ decode cw = .instr .pint) ∧
    (cw &&& 0xFFFF = 0x6500 ↔ decode cw = .instr .prnd) ∧
    (cw &&& 0xFFFF = 0x6F00 ↔ decode cw = .instr .pwh) ∧
    (cw &&& 0xFFFE = 0x7000 ∧ q = 0 ↔ decode cw = .instr (.eprm .dig)) ∧
    (cw &&& 0xFFFE = 0x7000 ∧ q = 1 ↔ decode cw = .instr (.eprm .int)) ∧
    (cw &&& 0xFFFF = 0x7100 ↔ decode cw = .instr .epak) ∧
    (cw &&& 0xFFFF = 0x7200 ↔ decode cw = .instr .emap) ∧
    (cw &&& 0xFFFE = 0x7F00 ∧ q = 0 ↔ decode cw = .instr (.enc .dig)) ∧
    (cw &&& 0xFFFE = 0x7F00 ∧ q = 1 ↔ decode cw = .instr (.enc .int))

/-- O5. The reserved words are exactly those R76 lists, and a core that would accept one has no step.
The name of the refusal is log 12, the events are log 6, that acceptance also needs `rst` released is log 16, and that a
reserved word is refused also with a reset inside is the model's choice (log 9). -/
def Obligations.ReservedWordsAreRefused : Prop :=
  (∀ cw : CmdWord,
    let op := cw.toNat / 2 ^ 12
    let fn := cw.toNat / 2 ^ 8 % 2 ^ 4
    let imm := cw.toNat % 2 ^ 8
    (∃ why, decode cw = .reserved why) ↔
      op = 0 ∨ op ≥ 8 ∨
      (op = 1 ∧ fn ≥ 3) ∨ (op = 2 ∧ 5 ≤ fn ∧ fn ≤ 14) ∨ (op = 6 ∧ 6 ≤ fn ∧ fn ≤ 14) ∨ (op = 7 ∧ 3 ≤ fn ∧ fn ≤ 14) ∨
      -- a "must be 0" bit of an N word
      (op = 1 ∧ fn = 0 ∧ imm ≠ 0) ∨ (op = 2 ∧ (fn ≤ 2 ∨ fn = 4 ∨ fn = 15) ∧ imm ≠ 0) ∨
      (op = 6 ∧ (2 ≤ fn ∧ fn ≤ 5 ∨ fn = 15) ∧ imm ≠ 0) ∨ (op = 7 ∧ (fn = 1 ∨ fn = 2) ∧ imm ≠ 0) ∨
      -- of an S, an R, an L, a Q word
      (op = 1 ∧ fn = 2 ∧ imm ≥ 8) ∨ (op = 2 ∧ fn = 3 ∧ imm ≥ 64) ∨ (op = 6 ∧ fn = 0 ∧ imm ≥ 16) ∨
      (op = 6 ∧ fn = 1 ∧ imm ≥ 2) ∨ (op = 7 ∧ (fn = 0 ∨ fn = 15) ∧ imm ≥ 2) ∨
      -- BAPS with sel = 6 or 7, LDPW with idx = 15, LDSL with idx >= 8
      (op = 1 ∧ fn = 2 ∧ (imm = 6 ∨ imm = 7)) ∨ (op = 3 ∧ fn = 15) ∨ (op = 4 ∧ fn ≥ 8)) ∧
  (∀ (s : State) (cw : CmdWord) (rest : List HostEvent) (why : Reserved),
    s.host = .present cw :: rest ∨ s.host = .presentThenReset cw :: rest → s.accepts = true →
      decode cw = .reserved why → step s = .refused (.reservedWord why)) ∧
  (∃ why, decode 0x0000 = .reserved why) ∧ (∃ why, decode 0xFFFF = .reserved why)

/-! ## The step, the command port and reset -/

/-- O6. A step runs the decoded command (`30_encoding.md` R81): an idle, healthy core out of reset, offered a word that
decodes to `i`, runs `exec i` with the event used up and BUSY = 1, and clears BUSY at completion. The event list is the
model's (log 6); that acceptance also needs `rst` released is log 16. -/
def Obligations.StepRunsTheDecodedInstr : Prop :=
  ∀ (s : State) (cw : CmdWord) (rest : List HostEvent) (i : Instr),
    s.host = .present cw :: rest → s.busy = false → s.fault = false → s.rst = false → decode cw = .instr i →
      ∃ u, exec i { s with host := rest, busy := true } = .next u ∧ step s = .next { u with busy := false }

/-- O7. What the command port does with a word (`30_encoding.md` R81): `cmd_ready`, acceptance, and the end of a command. The
event of a word not accepted is over (log 7). -/
def Obligations.CommandPort : Prop :=
  ∀ s : State,
    (s.cmdReady = true ↔ s.busy = false ∧ s.fault = false) ∧
    (∀ cw rest, s.host = .present cw :: rest → s.cmdReady = false → step s = .next { s with host := rest }) ∧
    (∀ cw rest t, s.host = .present cw :: rest → s.cmdReady = true → step s = .next t →
      t.busy = false ∧ t.host = rest ∧ (t.cmdReady = true ↔ t.fault = false))

/-- O8. The three outcomes of `00_scope.md` R13: a step always answers a next state, but for an accepted reserved word.
The events are log 6, the refusal is log 12, acceptance is log 16, and the word with a reset inside is log 9. -/
def Obligations.EveryStepCompletesFaultsOrRefuses : Prop :=
  ∀ s : State,
    (∃ t, step s = .next t) ∨
    (∃ cw rest why, (s.host = .present cw :: rest ∨ s.host = .presentThenReset cw :: rest) ∧ s.accepts = true ∧
      decode cw = .reserved why ∧ step s = .refused (.reservedWord why))

/-- O9. With no event to come, the core keeps all its state. Of an idle core, and of a faulted one that waits for reset, this is
`60_exceptions.md` R236. That a core with `rst` asserted keeps its registers too is the model's choice (log 8), also with an
abandoned command (log 9), and that the host does nothing is the empty event list (log 6). -/
def Obligations.IdleCoreKeepsItsState : Prop :=
  ∀ s : State, s.host = [] → step s = .next s

/-- O10. There is no return from the fault (`60_exceptions.md` R228): no command clears STATUS.FAULT, and the one step that
leaves a faulted state is the release of an asserted reset; every other keeps all state but the wire and the event. That
asserting the wire keeps the registers until its release is the model's choice (log 8), that an ignored word's event is over
is log 7, and the events are log 6. -/
def Obligations.FaultIsLeftOnlyByReset : Prop :=
  (∀ (i : Instr) (s t : State), s.fault = true → exec i s = .next t → t.fault = true) ∧
  (∀ s t : State, s.fault = true → step s = .next t →
    (t = { s with rst := t.rst, host := t.host } ∨
      (s.rst = true ∧ t.fault = false ∧ ∃ rest, s.host = .releaseReset :: rest)))

/-- O11. The reset table (`10_state.md` R43), when the host releases reset (`70_reset_and_hazards.md` R250) and of
`State.reset`: every control register is 0 and the command port is ready. The data cells are unspecified, so nothing is said
of them. The clauses on `rst` (its level as state, released at reset) are log 8, that on `host` is log 6. -/
def Obligations.ResetTable : Prop :=
  (∀ (s : State) (rest : List HostEvent), s.rst = true → s.host = .releaseReset :: rest →
    ∃ t, step s = .next t ∧ t.len = 0 ∧ t.pwlen = 0 ∧ t.inum = 0 ∧ t.busy = false ∧ t.fault = false ∧ t.fcause = 0 ∧
      t.status = 0x00 ∧ t.cmdReady = true ∧ t.rst = false ∧ t.host = rest) ∧
  (State.reset.len = 0 ∧ State.reset.pwlen = 0 ∧ State.reset.inum = 0 ∧ State.reset.status = 0x00 ∧
    State.reset.cmdReady = true ∧ State.reset.rst = false)

/-- O12. While `rst` is asserted no command is accepted, and asserting it is allowed in any state
(`70_reset_and_hazards.md` R250; the level as state is log 8, the events are log 6, that an ignored word's event is over is
log 7). -/
def Obligations.AssertedResetStopsTheCore : Prop :=
  (∀ (s : State) (rest : List HostEvent), s.host = .assertReset :: rest →
    step s = .next { s with rst := true, host := rest }) ∧
  (∀ (s : State) (cw : CmdWord) (rest : List HostEvent), s.rst = true → s.host = .present cw :: rest →
    step s = .next { s with host := rest })

/-- O13. The state after reset meets the invariant. -/
def Obligations.ResetSatisfiesInv : Prop := State.reset.Inv

/-- O14. Every step keeps the invariant, from every state that meets it: LEN <= 64 (`40_buffer.md` R107), BUSY = 0 between
steps (log 10) unless reset is asserted on an abandoned command and no fault is latched (log 9), and FCAUSE = 1 exactly when
FAULT = 1, else 0 (`10_state.md` R32). -/
def Obligations.StepKeepsInv : Prop :=
  ∀ s t : State, s.Inv → step s = .next t → t.Inv

/-- O15. STATUS (`10_state.md` R32): its layout; no command writes it but fault entry; from acceptance on its BUSY bit is 1.
Between steps it is 0x06, 0x00, or 0x01 of a core whose command a reset abandoned: that BUSY is 0 otherwise rests on log 10,
and that it is 1 there on log 9. -/
def Obligations.StatusRegister : Prop :=
  (∀ s : State, s.status.getLsbD 0 = s.busy ∧ s.status.getLsbD 1 = s.fault ∧ s.status.extractLsb' 2 2 = s.fcause ∧
    s.status.extractLsb' 4 4 = 0) ∧
  (∀ (i : Instr) (s t : State), exec i s = .next t →
    t.status = s.status ∨ (t.fault = true ∧ t.fcause = 1 ∧ t.busy = false)) ∧
  (∀ s : State, s.Inv → s.status = (if s.fault then 0x06 else if s.busy then 0x01 else 0x00) ∧
    (s.rst = false → s.status = (if s.fault then 0x06 else 0x00))) ∧
  (∀ (s : State) (rest : List HostEvent), (acceptCommand rest s).status = s.status ||| 0x01)

/-! ## The buffer -/

/-- O16. `appendByte(b)` (`40_buffer.md` R100). -/
def Obligations.AppendByteRule : Prop :=
  ∀ (b : Byte) (s : State),
    (s.len = 64 → appendByte b s = .raised s) ∧
    (∀ h : s.len.toNat < 64, appendByte b s = .ok { s with buf := s.buf.set s.len.toNat b h, len := s.len + 1 })

/-- O17. `appendBytes(s)` (`40_buffer.md` R101): all or nothing, on unbounded lengths; the empty sequence always succeeds. -/
def Obligations.AppendBytesRule : Prop :=
  ∀ (bs : List Byte) (s : State), s.len.toNat ≤ 64 →
    (s.len.toNat + bs.length > 64 → appendBytes bs s = .raised s) ∧
    (s.len.toNat + bs.length ≤ 64 → ∃ buf len, appendBytes bs s = .ok { s with buf := buf, len := len } ∧
      len.toNat = s.len.toNat + bs.length ∧
      ∀ (k : Nat) (hk : k < 64), buf[k] =
        if s.len.toNat ≤ k ∧ k < s.len.toNat + bs.length then bs.getD (k - s.len.toNat) 0 else s.buf[k]) ∧
    appendBytes [] s = .ok s ∧
    (∀ b, appendBytes [b] s = appendByte b s)

/-- O18. BCLR (`40_buffer.md` R102): LEN <- 0, the cells of BUF unspecified (some values, not said which), nothing else. -/
def Obligations.BclrEmptiesTheBuffer : Prop :=
  decode 0x1000 = .instr .bclr ∧
  ∀ s : State, ∃ (buf : Vector Byte 64) (ctr : Nat), exec .bclr s = .next { s with len := 0, buf := buf, freeCtr := ctr }

/-- O19. How this model makes a cell unspecified (log 4): BCLR leaves in BUF[k] the free value, an opaque constant with no
body, at position `freeCtr + k` of the counter of draws, and moves the counter past all 64 (log 2), so no later draw meets
these positions and none is tied to the old content. -/
def Obligations.BclrDrawsAfresh : Prop :=
  ∀ s : State, ∃ buf : Vector Byte 64,
    exec .bclr s = .next { s with len := 0, buf := buf, freeCtr := s.freeCtr + 64 } ∧
    ∀ (k : Nat) (hk : k < 64), buf[k] = Config.freeByte (s.freeCtr + k)

/-- O20. BAPB imm8 (`40_buffer.md` R103). -/
def Obligations.BapbAppendsAByte : Prop :=
  ∀ (imm8 : Byte) (s : State),
    decode (0x1100 + imm8.setWidth 16) = .instr (.bapb imm8) ∧
    (∀ h : s.len.toNat < 64,
      exec (.bapb imm8) s = .next { s with buf := s.buf.set s.len.toNat imm8 h, len := s.len + 1 }) ∧
    (s.len = 64 → exec (.bapb imm8) s = .next { s with fault := true, fcause := 1, busy := false })

/-- O21. BAPS sel (`40_buffer.md` R104, its six sources by R105): the source's bytes land from BUF[LEN] on, or nothing does
and fault entry applies. -/
def Obligations.BapsAppendsItsSource : Prop :=
  ∀ (sel : BapsSource) (s : State), s.len.toNat ≤ 64 →
    let number : Nat := match sel with | .pw => 0 | .salt => 1 | .marker => 2 | .altp => 3 | .int => 4 | .pw0 => 5
    let source : List Byte := match sel with
      | .pw => (List.range s.pwlen.toNat).map fun k => s.pw.toList.getD k 0
      | .salt => [s.salt[0], s.salt[1], s.salt[2], s.salt[3], s.salt[4], s.salt[5], s.salt[6], s.salt[7]]
      | .marker => [0x24, 0x31, 0x24]
      | .altp => (List.range s.pwlen.toNat).map fun k => s.alt.toList.getD k 0
      | .int => (List.range 16).map fun k => s.int.toList.getD k 0
      | .pw0 => [s.pw[0]]
    decode (BitVec.ofNat 16 (0x1200 + number)) = .instr (.baps sel) ∧
    (s.len.toNat + source.length ≤ 64 → ∃ buf len, exec (.baps sel) s = .next { s with buf := buf, len := len } ∧
      len.toNat = s.len.toNat + source.length ∧
      ∀ (k : Nat) (hk : k < 64), buf[k] =
        if s.len.toNat ≤ k ∧ k < s.len.toNat + source.length then source.getD (k - s.len.toNat) 0 else s.buf[k]) ∧
    (s.len.toNat + source.length > 64 →
      exec (.baps sel) s = .next { s with fault := true, fcause := 1, busy := false })

/-- O22. The capacity invariant (`40_buffer.md` R107): after reset, over every command, over every step. -/
def Obligations.LenNeverExceeds64 : Prop :=
  State.reset.len = 0 ∧
  (∀ (i : Instr) (s t : State), s.len.toNat ≤ 64 → exec i s = .next t → t.len.toNat ≤ 64) ∧
  (∀ s t : State, s.len.toNat ≤ 64 → step s = .next t → t.len.toNat ≤ 64)

/-- O23. The buffer is write-once (`40_buffer.md` R106): a command other than BCLR and the stage macros that begin with it
never shortens the buffer, never changes a byte below LEN, and writes nothing at or above the LEN it leaves. -/
def Obligations.BufferIsWriteOnce : Prop :=
  ∀ (i : Instr) (s t : State), s.len.toNat ≤ 64 →
    i ≠ .bclr → i ≠ .palt → i ≠ .pint → i ≠ .prnd → i ≠ .pwh → exec i s = .next t →
      s.len.toNat ≤ t.len.toNat ∧
      ∀ (k : Nat) (hk : k < 64), k < s.len.toNat ∨ t.len.toNat ≤ k → t.buf[k] = s.buf[k]

/-! ## MD5 -/

/-- O24. MPAD (`41_md5.md` R121) in its three cases, with the layout of `20_memory.md` R58 and R52. -/
def Obligations.MpadPadsTheBlock : Prop :=
  decode 0x2000 = .instr .mpad ∧
  ∀ s : State,
    (s.len.toNat ≤ 55 → ∃ buf : Vector Byte 64, exec .mpad s = .next { s with buf := buf, len := 64 } ∧
      ∀ (k : Nat) (hk : k < 64), buf[k] =
        if k < s.len.toNat then s.buf[k]
        else if k = s.len.toNat then 0x80
        else if k < 56 then 0x00
        else BitVec.ofNat 8 (8 * s.len.toNat / 2 ^ (8 * (k - 56)))) ∧
    (∀ h : 56 ≤ s.len.toNat ∧ s.len.toNat < 64,
      exec .mpad s = .next
        { s with buf := s.buf.set s.len.toNat 0x80 h.2, len := s.len + 1, fault := true, fcause := 1, busy := false }) ∧
    (s.len = 64 → exec .mpad s = .next { s with fault := true, fcause := 1, busy := false })

/-- O25. MUNP (`41_md5.md` R122, `20_memory.md` R51): each word whose four cells all lie below LEN is their little-endian
value; the others are unspecified, so nothing is said of them; only M (and the model's counter of draws) moves. -/
def Obligations.MunpDecodesLittleEndian : Prop :=
  decode 0x2100 = .instr .munp ∧
  ∀ s : State, ∃ (m : Vector Word 16) (ctr : Nat), exec .munp s = .next { s with m := m, freeCtr := ctr } ∧
    ∀ i : Fin 16, 4 * i.val + 4 ≤ s.len.toNat →
      m[i].toNat = s.buf[4 * i.val].toNat + 2 ^ 8 * s.buf[4 * i.val + 1].toNat + 2 ^ 16 * s.buf[4 * i.val + 2].toNat
        + 2 ^ 24 * s.buf[4 * i.val + 3].toNat

/-- O26. MINI (`41_md5.md` R123). -/
def Obligations.MiniLoadsTheConstants : Prop :=
  decode 0x2200 = .instr .mini ∧
  ∀ s : State, exec .mini s = .next { s with a := 0x67452301, b := 0xEFCDAB89, c := 0x98BADCFE, d := 0x10325476 }

/-- O27. MRND i (`41_md5.md` R127) with the mixing functions of R124, the index functions of R125 and the rotation of
R126, and the shift table of `10_state.md` R35; NOISE is the table of the model (O46). -/
def Obligations.MrndPerformsTheRound : Prop :=
  ∀ (i : BitVec 6) (s : State),
    decode (0x2300 + i.setWidth 16) = .instr (.mrnd i) ∧
    let n := i.toNat
    let f : Word :=
      if n < 16 then (s.b &&& s.c) ||| (~~~s.b &&& s.d)
      else if n < 32 then (s.b &&& s.d) ||| (s.c &&& ~~~s.d)
      else if n < 48 then s.b ^^^ s.c ^^^ s.d
      else s.c ^^^ (s.b ||| ~~~s.d)
    let g : Nat := if n < 16 then n else if n < 32 then (5 * n + 1) % 16 else if n < 48 then (3 * n + 5) % 16 else 7 * n % 16
    let shift : Nat :=
      (if n < 16 then [7, 12, 17, 22] else if n < 32 then [5, 9, 14, 20] else if n < 48 then [4, 11, 16, 23]
        else [6, 10, 15, 21]).getD (n % 4) 0
    let t : Word := s.a + f + s.m.toList.getD g 0 + noiseRom i
    exec (.mrnd i) s = .next { s with a := s.d, b := t.rotateLeft shift + s.b, c := s.b, d := s.c }

/-- O28. MFIN (`41_md5.md` R128, `20_memory.md` R53): the four sums, each little-endian, in the order A, B, C, D. -/
def Obligations.MfinSerialisesTheDigest : Prop :=
  decode 0x2400 = .instr .mfin ∧
  ∀ s : State, ∃ dig : Digest, exec .mfin s = .next { s with dig := dig } ∧
    ∀ k : Fin 4,
      dig[k.val].toNat = (s.a + 0x67452301).toNat / 2 ^ (8 * k.val) % 256 ∧
      dig[4 + k.val].toNat = (s.b + 0xEFCDAB89).toNat / 2 ^ (8 * k.val) % 256 ∧
      dig[8 + k.val].toNat = (s.c + 0x98BADCFE).toNat / 2 ^ (8 * k.val) % 256 ∧
      dig[12 + k.val].toNat = (s.d + 0x10325476).toNat / 2 ^ (8 * k.val) % 256

/-- O29. MD5H (`41_md5.md` R129): exactly its 68 primitives in order, also when one raises; it moves only BUF, LEN, M, A to
D and DIG; past 55 bytes it faults with M, A to D and DIG unchanged (R130). -/
def Obligations.Md5hRunsItsPrimitives : Prop :=
  decode 0x2F00 = .instr .md5h ∧
  ∀ s : State, s.fault = false → s.len.toNat ≤ 64 →
    exec .md5h s =
      execSeq ([.mpad, .munp, .mini] ++ (List.range 64).map (fun i => .mrnd (BitVec.ofNat 6 i)) ++ [.mfin]) s ∧
    (s.len.toNat ≤ 55 → ∃ t, exec .md5h s = .next t ∧ t.len = 64 ∧
      t = { s with buf := t.buf, len := t.len, m := t.m, a := t.a, b := t.b, c := t.c, d := t.d, dig := t.dig }) ∧
    (56 ≤ s.len.toNat → ∃ t, exec .md5h s = .next t ∧
      t = { s with buf := t.buf, len := t.len, fault := true, fcause := 1, busy := false })

/-- O30. The known-answer test of `41_md5.md` R129: from every healthy state with an empty buffer, MD5H leaves the
published digest of the empty message. -/
def Obligations.Md5hOfTheEmptyMessage : Prop :=
  ∀ s : State, s.fault = false → s.len = 0 → ∃ t, exec .md5h s = .next t ∧ t.fault = false ∧
    t.dig = #v[0xD4, 0x1D, 0x8C, 0xD9, 0x8F, 0x00, 0xB2, 0x04, 0xE9, 0x80, 0x09, 0x98, 0xEC, 0xF8, 0x42, 0x7E]

/-- O31. MD5H refines the pure function `md5` of `Safety.lean` (padding, words, the 64 rounds folded over their index as
`41_md5.md` R132 has it, the final sums) on the content of the buffer, and leaves the padded block, without a fault. -/
def Obligations.Md5hRefinesMd5 : Prop :=
  ∀ s : State, s.fault = false → s.len.toNat ≤ 55 → ∃ t, exec .md5h s = .next t ∧ t.fault = false ∧
    t.dig = md5 s.content ∧ t.content = padMessage s.content ∧ t.m = messageWords (padMessage s.content) ∧
    (t.a, t.b, t.c, t.d) = compress (messageWords (padMessage s.content))

/-- O32. Purity (`41_md5.md` R131): the digest depends on the message and its length and on nothing else of the state. -/
def Obligations.Md5hIsPure : Prop :=
  ∀ s s' : State, s.fault = false → s'.fault = false → s.len.toNat ≤ 55 → s'.len = s.len →
    (∀ (k : Nat) (hk : k < 64), k < s.len.toNat → s'.buf[k] = s.buf[k]) →
      ∃ t t', exec .md5h s = .next t ∧ exec .md5h s' = .next t' ∧
        t.fault = false ∧ t'.fault = false ∧ t'.dig = t.dig

/-- O33. The buffer is single-use (`70_reset_and_hazards.md` R257): once MPAD or MD5H has completed, LEN = 64, and BAPB, a
BAPS with a non-empty source, MPAD and MD5H all fault; BCLR makes room again. -/
def Obligations.PaddedBufferIsSingleUse : Prop :=
  ∀ (i : Instr) (s t : State), i = .mpad ∨ i = .md5h → s.fault = false → s.len.toNat ≤ 64 →
    exec i s = .next t → t.fault = false →
      t.len = 64 ∧
      (∀ b, exec (.bapb b) t = .next { t with fault := true, fcause := 1, busy := false }) ∧
      (∀ sel, sourceBytes sel t ≠ [] → exec (.baps sel) t = .next { t with fault := true, fcause := 1, busy := false }) ∧
      exec .mpad t = .next { t with fault := true, fcause := 1, busy := false } ∧
      exec .md5h t = .next { t with fault := true, fcause := 1, busy := false } ∧
      (∃ u, exec .bclr t = .next u ∧ u.len = 0 ∧ u.fault = false)

/-- O34. One byte order (`20_memory.md` R54): four BAPB of b0 to b3 at 4k to 4k + 3, then MUNP, make
M[k] = b0 + 2^8 b1 + 2^16 b2 + 2^24 b3, and the read port shows the same bytes in the same order. -/
def Obligations.ByteOrderIsLittleEndian : Prop :=
  ∀ (s : State) (k : Fin 16) (b0 b1 b2 b3 : Byte), s.fault = false → s.busy = false → s.len.toNat = 4 * k.val →
    ∃ t, execSeq [.bapb b0, .bapb b1, .bapb b2, .bapb b3, .munp] s = .next t ∧ t.fault = false ∧
      t.m[k].toNat = b0.toNat + 2 ^ 8 * b1.toNat + 2 ^ 16 * b2.toNat + 2 ^ 24 * b3.toNat ∧
      t.readPort (BitVec.ofNat 9 (0x040 + 4 * k.val)) = b0 ∧ t.readPort (BitVec.ofNat 9 (0x041 + 4 * k.val)) = b1 ∧
      t.readPort (BitVec.ofNat 9 (0x042 + 4 * k.val)) = b2 ∧ t.readPort (BitVec.ofNat 9 (0x043 + 4 * k.val)) = b3

/-! ## Password hashing -/

/-- O35. The four loads (`42_pwhash.md` R161, R162, R163, R164). The words past the ranges of LDPW and LDSL are reserved
(`30_encoding.md` R76); that `exec` refuses the terms that spell them is log 12. -/
def Obligations.LoadsWriteOneCell : Prop :=
  (∀ (idx : BitVec 4) (imm8 : Byte) (s : State),
    (∀ h : idx.toNat < 15, decode (BitVec.ofNat 16 (0x3000 + 256 * idx.toNat + imm8.toNat)) = .instr (.ldpw idx imm8) ∧
      exec (.ldpw idx imm8) s = .next { s with pw := s.pw.set idx.toNat imm8 h }) ∧
    (idx.toNat = 15 → decode (BitVec.ofNat 16 (0x3000 + 256 * idx.toNat + imm8.toNat)) = .reserved .index ∧
      exec (.ldpw idx imm8) s = .refused (.reservedWord .index)) ∧
    (∀ h : idx.toNat < 8, decode (BitVec.ofNat 16 (0x4000 + 256 * idx.toNat + imm8.toNat)) = .instr (.ldsl idx imm8) ∧
      exec (.ldsl idx imm8) s = .next { s with salt := s.salt.set idx.toNat imm8 h }) ∧
    (8 ≤ idx.toNat → decode (BitVec.ofNat 16 (0x4000 + 256 * idx.toNat + imm8.toNat)) = .reserved .index ∧
      exec (.ldsl idx imm8) s = .refused (.reservedWord .index)) ∧
    decode (BitVec.ofNat 16 (0x5000 + 256 * idx.toNat + imm8.toNat)) = .instr (.lddg idx imm8) ∧
    exec (.lddg idx imm8) s = .next { s with dig := s.dig.set idx.toNat imm8 idx.isLt }) ∧
  (∀ (n : BitVec 4) (s : State),
    decode (BitVec.ofNat 16 (0x6000 + n.toNat)) = .instr (.ldpl n) ∧ exec (.ldpl n) s = .next { s with pwlen := n })

/-- O36. MVD q and CLRI (`42_pwhash.md` R165, R166). -/
def Obligations.MvdAndClri : Prop :=
  decode 0x6100 = .instr (.mvd .alt) ∧ decode 0x6101 = .instr (.mvd .int) ∧ decode 0x6200 = .instr .clri ∧
  ∀ s : State,
    exec (.mvd .alt) s = .next { s with alt := s.dig } ∧
    exec (.mvd .int) s = .next { s with int := s.dig } ∧
    exec .clri s = .next { s with inum := 0 }

/-- O37. PALT (`42_pwhash.md` R167): its expansion, and what it leaves: ALT is the hash of `password ++ salt ++ password`,
and only BUF, LEN, M, A to D, DIG and ALT move (and the model's counter of draws). -/
def Obligations.PaltComputesTheAlternateHash : Prop :=
  decode 0x6300 = .instr .palt ∧
  ∀ s : State, s.fault = false →
    exec .palt s = execSeq [.bclr, .baps .pw, .baps .salt, .baps .pw, .md5h, .mvd .alt] s ∧
    ∃ t, exec .palt s = .next t ∧ t.alt = md5 (s.password ++ s.saltBytes ++ s.password) ∧
      t = { s with buf := t.buf, len := t.len, m := t.m, a := t.a, b := t.b, c := t.c, d := t.d, dig := t.dig,
                   alt := t.alt, freeCtr := t.freeCtr }

/-- O38. PINT (`42_pwhash.md` R168) with the bit loop of R169, its commands written out for every password length from the
table of R169; INT is the hash of the message R168 describes. -/
def Obligations.PintComputesTheFirstIntermediateHash : Prop :=
  decode 0x6400 = .instr .pint ∧
  ∀ s : State, s.fault = false →
    let z : Instr := .bapb 0x00
    let p : Instr := .baps .pw0
    let bitLoop : List Instr :=
      [[], [z], [p, z], [z, z], [p, p, z], [z, p, z], [p, z, z], [z, z, z], [p, p, p, z], [z, p, p, z], [p, z, p, z],
       [z, z, p, z], [p, p, z, z], [z, p, z, z], [p, z, z, z], [z, z, z, z]].getD s.pwlen.toNat []
    let bitBytes : List Byte := bitLoop.map fun i => if i = z then 0x00 else s.pw[0]
    exec .pint s = execSeq ([.bclr, .baps .pw, .baps .marker, .baps .salt, .baps .altp] ++ bitLoop ++ [.md5h, .mvd .int]) s ∧
    ∃ t, exec .pint s = .next t ∧
      t.int = md5 (s.password ++ [0x24, 0x31, 0x24] ++ s.saltBytes ++ s.alt.toList.take s.pwlen.toNat
        ++ bitBytes) ∧
      t = { s with buf := t.buf, len := t.len, m := t.m, a := t.a, b := t.b, c := t.c, d := t.d, dig := t.dig,
                   int := t.int, freeCtr := t.freeCtr }

/-- O39. PRND (`42_pwhash.md` R170): its expansion by the residues of INUM, the increment last, and INT the hash of the
message of the rule's table. -/
def Obligations.PrndPerformsOneIteration : Prop :=
  decode 0x6500 = .instr .prnd ∧
  ∀ s : State, s.fault = false →
    let n := s.inum.toNat
    let pw := s.password
    let salt := s.saltBytes
    let int := s.int.toList
    let message : List Byte :=
      if n % 2 = 0 then
        (if n % 3 = 0 then (if n % 7 = 0 then int ++ pw else int ++ pw ++ pw)
         else (if n % 7 = 0 then int ++ salt ++ pw else int ++ salt ++ pw ++ pw))
      else
        (if n % 3 = 0 then (if n % 7 = 0 then pw ++ int else pw ++ pw ++ int)
         else (if n % 7 = 0 then pw ++ salt ++ int else pw ++ salt ++ pw ++ int))
    (∃ u, execSeq ([.bclr, if n % 2 = 0 then .baps .int else .baps .pw] ++ (if n % 3 ≠ 0 then [.baps .salt] else [])
          ++ (if n % 7 ≠ 0 then [.baps .pw] else []) ++ [if n % 2 = 0 then .baps .pw else .baps .int, .md5h, .mvd .int]) s
        = .next u ∧ exec .prnd s = .next { u with inum := BitVec.ofNat 10 ((n + 1) % 1024) }) ∧
    ∃ t, exec .prnd s = .next t ∧ t.int = md5 message ∧ t.inum.toNat = (n + 1) % 1024 ∧
      t = { s with buf := t.buf, len := t.len, m := t.m, a := t.a, b := t.b, c := t.c, d := t.d, dig := t.dig,
                   int := t.int, inum := t.inum, freeCtr := t.freeCtr }

/-- O40. PWH (`42_pwhash.md` R171): its expansion, 1000 iterations of stage 3 (`90_conflicts.md` C1); at completion INUM =
1000, OUT holds the encoded INT, and everything except PW, PWLEN, SALT (and STATUS, the wire, the events) may have moved. -/
def Obligations.PwhRunsItsStages : Prop :=
  decode 0x6F00 = .instr .pwh ∧
  ∀ s : State, s.fault = false →
    exec .pwh s = execSeq ([.palt, .pint, .clri] ++ List.replicate 1000 .prnd ++ [.enc .int]) s ∧
    ∃ t, exec .pwh s = .next t ∧ t.inum = 1000 ∧ t.out = encodeText t.int ∧
      t = { t with pw := s.pw, pwlen := s.pwlen, salt := s.salt, busy := s.busy, fault := s.fault, fcause := s.fcause,
                   rst := s.rst, host := s.host }

/-- O41. PWH refines the pure `hashPassword(password, salt)` of `Safety.lean`, written from the source's contract
(`42_pwhash.md` R160, R167 to R171): from every healthy state, it completes without a fault, and OUT is the hash of the password
and the salt. -/
def Obligations.PwhRefinesHashPassword : Prop :=
  ∀ s : State, s.fault = false → ∃ t, exec .pwh s = .next t ∧ t.fault = false ∧
    t.out = hashPassword s.password s.saltBytes ∧ t.int = chainHash s.password s.saltBytes 1000

/-- O42. Determinism and inputs (`42_pwhash.md` R174): two runs of PWH from healthy states that agree on PW[0..PWLEN-1], PWLEN and
SALT, and on nothing else, leave the same OUT. -/
def Obligations.PwhDependsOnItsArgumentsAlone : Prop :=
  ∀ s s' : State, s.fault = false → s'.fault = false → s'.pwlen = s.pwlen → s'.salt = s.salt →
    (∀ (k : Nat) (hk : k < 15), k < s.pwlen.toNat → s'.pw[k] = s.pw[k]) →
      ∃ t t', exec .pwh s = .next t ∧ exec .pwh s' = .next t' ∧ t.fault = false ∧ t'.fault = false ∧ t'.out = t.out

/-! ## The encoder and the tables -/

/-- O43. EPRM q (`43_encoder.md` R201): PERM[DEST[j]] <- src[j], and equivalently PERM[k] <- src[SRC[k]]. -/
def Obligations.EprmPermutes : Prop :=
  decode 0x7000 = .instr (.eprm .dig) ∧ decode 0x7001 = .instr (.eprm .int) ∧
  ∀ (q : DigestSource) (s : State),
    let src : Digest := match q with | .dig => s.dig | .int => s.int
    ∃ perm : Digest, exec (.eprm q) s = .next { s with perm := perm } ∧
      perm = #v[src[12], src[6], src[0], src[13], src[7], src[1], src[14], src[8], src[2], src[15], src[9], src[3], src[5],
        src[10], src[4], src[11]] ∧
      ∀ j : Fin 16, perm.toList.getD ([2, 5, 8, 11, 14, 12, 1, 4, 7, 10, 13, 15, 0, 3, 6, 9].getD j.val 0) 0 = src[j]

/-- O44. EPAK (`43_encoder.md` R202): the four codes of each full group as the rule's a to f give them and as the pieces of
its 24-bit number, and the two codes of the last byte. -/
def Obligations.EpakPacksSixBitCodes : Prop :=
  decode 0x7100 = .instr .epak ∧
  ∀ s : State, ∃ code : Vector Code 22, exec .epak s = .next { s with code := code } ∧
    (∀ t : Fin 5,
      let x := s.perm[3 * t.val].toNat
      let y := s.perm[3 * t.val + 1].toNat
      let z := s.perm[3 * t.val + 2].toNat
      let n := x + 2 ^ 8 * y + 2 ^ 16 * z
      code[4 * t.val].toNat = x % 64 ∧
      code[4 * t.val + 1].toNat = (x / 64 ||| y % 16 * 4) ∧
      code[4 * t.val + 2].toNat = (y / 16 ||| z % 4 * 16) ∧
      code[4 * t.val + 3].toNat = z / 4 ∧
      ∀ j : Fin 4, code[4 * t.val + j.val].toNat = n / 2 ^ (6 * j.val) % 64) ∧
    code[20].toNat = s.perm[15].toNat % 64 ∧ code[21].toNat = s.perm[15].toNat / 64

/-- O45. EMAP (`43_encoder.md` R203): each character is the alphabet's at its code; the alphabet is the string of
`10_state.md` R38 in ASCII. -/
def Obligations.EmapMapsToTheAlphabet : Prop :=
  decode 0x7200 = .instr .emap ∧
  ∀ s : State, ∃ out : Vector Byte 22, exec .emap s = .next { s with out := out } ∧
    ∀ k : Fin 22, out[k] = BitVec.ofNat 8
      ("./0123456789ABCDEFGHIJKLMNOPQRSTUVWXYZabcdefghijklmnopqrstuvwxyz".toList.getD s.code[k].toNat '.').toNat

/-- O46. The ROMs (`10_state.md` R34 to R39). The literals of NOISE are the spec's own, from general knowledge (log 17). -/
def Obligations.RomTables : Prop :=
  initK = #v[0x67452301, 0xEFCDAB89, 0x98BADCFE, 0x10325476] ∧
  (List.range 64).map (fun i => shiftRom (BitVec.ofNat 6 i)) =
    [7, 12, 17, 22, 7, 12, 17, 22, 7, 12, 17, 22, 7, 12, 17, 22,
     5, 9, 14, 20, 5, 9, 14, 20, 5, 9, 14, 20, 5, 9, 14, 20,
     4, 11, 16, 23, 4, 11, 16, 23, 4, 11, 16, 23, 4, 11, 16, 23,
     6, 10, 15, 21, 6, 10, 15, 21, 6, 10, 15, 21, 6, 10, 15, 21] ∧
  (List.range 64).map (fun i => noiseRom (BitVec.ofNat 6 i)) = [
     0xD76AA478, 0xE8C7B756, 0x242070DB, 0xC1BDCEEE, 0xF57C0FAF, 0x4787C62A, 0xA8304613, 0xFD469501,
     0x698098D8, 0x8B44F7AF, 0xFFFF5BB1, 0x895CD7BE, 0x6B901122, 0xFD987193, 0xA679438E, 0x49B40821,
     0xF61E2562, 0xC040B340, 0x265E5A51, 0xE9B6C7AA, 0xD62F105D, 0x02441453, 0xD8A1E681, 0xE7D3FBC8,
     0x21E1CDE6, 0xC33707D6, 0xF4D50D87, 0x455A14ED, 0xA9E3E905, 0xFCEFA3F8, 0x676F02D9, 0x8D2A4C8A,
     0xFFFA3942, 0x8771F681, 0x6D9D6122, 0xFDE5380C, 0xA4BEEA44, 0x4BDECFA9, 0xF6BB4B60, 0xBEBFBC70,
     0x289B7EC6, 0xEAA127FA, 0xD4EF3085, 0x04881D05, 0xD9D4D039, 0xE6DB99E5, 0x1FA27CF8, 0xC4AC5665,
     0xF4292244, 0x432AFF97, 0xAB9423A7, 0xFC93A039, 0x655B59C3, 0x8F0CCC92, 0xFFEFF47D, 0x85845DD1,
     0x6FA87E4F, 0xFE2CE6E0, 0xA3014314, 0x4E0811A1, 0xF7537E82, 0xBD3AF235, 0x2AD7D2BB, 0xEB86D391] ∧
  destRom.toList.map Fin.val = [2, 5, 8, 11, 14, 12, 1, 4, 7, 10, 13, 15, 0, 3, 6, 9] ∧
  (alphaRom 0, alphaRom 1, alphaRom 2, alphaRom 11, alphaRom 12, alphaRom 37, alphaRom 38, alphaRom 63) =
    (0x2E, 0x2F, 0x30, 0x39, 0x41, 0x5A, 0x61, 0x7A) ∧
  markerRom = [0x24, 0x31, 0x24]

/-- O47. ENC q (`43_encoder.md` R204): its expansion, its frame, and OUT by the rule's table of group numbers. -/
def Obligations.EncWritesTheText : Prop :=
  decode 0x7F00 = .instr (.enc .dig) ∧ decode 0x7F01 = .instr (.enc .int) ∧
  ∀ (q : DigestSource) (s : State),
    let src : Digest := match q with | .dig => s.dig | .int => s.int
    let ascii : Nat → Byte := fun c =>
      BitVec.ofNat 8 ("./0123456789ABCDEFGHIJKLMNOPQRSTUVWXYZabcdefghijklmnopqrstuvwxyz".toList.getD c '.').toNat
    let group : Nat → Nat := fun t =>
      [src[12].toNat + 2 ^ 8 * src[6].toNat + 2 ^ 16 * src[0].toNat,
       src[13].toNat + 2 ^ 8 * src[7].toNat + 2 ^ 16 * src[1].toNat,
       src[14].toNat + 2 ^ 8 * src[8].toNat + 2 ^ 16 * src[2].toNat,
       src[15].toNat + 2 ^ 8 * src[9].toNat + 2 ^ 16 * src[3].toNat,
       src[5].toNat + 2 ^ 8 * src[10].toNat + 2 ^ 16 * src[4].toNat,
       src[11].toNat].getD t 0
    (s.fault = false → exec (.enc q) s = execSeq [.eprm q, .epak, .emap] s) ∧
    ∃ t, exec (.enc q) s = .next t ∧ t = { s with perm := t.perm, code := t.code, out := t.out } ∧
      ∀ k : Fin 22, t.out[k] = ascii (group (k.val / 4) / 2 ^ (6 * (k.val % 4)) % 64)

/-- O48. The text (`43_encoder.md` R205): every character EMAP writes is the alphabet's, the last that ENC writes is one of
`.`, `/`, `0`, `1`, and distinct digests give distinct strings. -/
def Obligations.EncodingIsInjective : Prop :=
  (∀ s t : State, exec .emap s = .next t → ∀ k : Fin 22,
    Char.ofNat t.out[k].toNat ∈ "./0123456789ABCDEFGHIJKLMNOPQRSTUVWXYZabcdefghijklmnopqrstuvwxyz".toList) ∧
  (∀ (q : DigestSource) (s t : State), exec (.enc q) s = .next t →
    t.out[21] = 0x2E ∨ t.out[21] = 0x2F ∨ t.out[21] = 0x30 ∨ t.out[21] = 0x31) ∧
  (∀ (q q' : DigestSource) (s s' t t' : State), exec (.enc q) s = .next t → exec (.enc q') s' = .next t' →
    t.out = t'.out → digestOf q s = digestOf q' s')

/-! ## The exception -/

/-- O49. Which commands raise, and when (`60_exceptions.md` R221), for every command in every state a run can reach. -/
def Obligations.WhichCommandsFault : Prop :=
  ∀ (i : Instr) (s : State), i.wellFormed = true → s.fault = false → s.len.toNat ≤ 64 →
    ∃ t, exec i s = .next t ∧
      (t.fault = true ↔
        (∃ imm8, i = .bapb imm8 ∧ s.len = 64) ∨
        (∃ sel, i = .baps sel ∧ s.len.toNat + (sourceBytes sel s).length > 64) ∨
        (i = .mpad ∧ 56 ≤ s.len.toNat) ∨
        (i = .md5h ∧ 56 ≤ s.len.toNat)) ∧
      (∀ sel, i = .baps sel → t.fault = true → 49 ≤ s.len.toNat ∧ sourceBytes sel s ≠ [])

/-- O50. Fault entry (`60_exceptions.md` R226): STATUS as the rule says, `cmd_ready` 0, and all other state as the completed
steps of the command made it, which is as it was, but for the 0x80 byte of an MPAD that began at 56 to 63. -/
def Obligations.FaultEntry : Prop :=
  ∀ (i : Instr) (s t : State), s.fault = false → s.len.toNat ≤ 64 → exec i s = .next t → t.fault = true →
    t.status = 0x06 ∧ t.cmdReady = false ∧
    if h : (i = .mpad ∨ i = .md5h) ∧ s.len.toNat < 64 then
      t = { s with buf := s.buf.set s.len.toNat 0x80 h.2, len := s.len + 1, fault := true, fcause := 1, busy := false }
    else t = { s with fault := true, fcause := 1, busy := false }

/-- O51. No protocol sequence overflows (`40_buffer.md` R108, `60_exceptions.md` R221): from every state, faulted or not, the
four protocol macros take no fault entry, and keep the arguments (`70_reset_and_hazards.md` R259). -/
def Obligations.ProtocolMacrosNeverFault : Prop :=
  ∀ (i : Instr) (s : State), i = .palt ∨ i = .pint ∨ i = .prnd ∨ i = .pwh →
    ∃ t, exec i s = .next t ∧ t.status = s.status ∧ t.len = 64 ∧ t.pw = s.pw ∧ t.pwlen = s.pwlen ∧ t.salt = s.salt

/-! ## Whole-machine rules -/

/-- O52. Each register changes only by the commands that write it (`10_state.md` section 1, R20 to R31); the reset wire and
the host's events by none. -/
def Obligations.RegistersChangeOnlyByTheirWriters : Prop :=
  ∀ (i : Instr) (s t : State), exec i s = .next t →
    let hashes : Prop := i = .md5h ∨ i = .palt ∨ i = .pint ∨ i = .prnd ∨ i = .pwh
    (t.a ≠ s.a ∨ t.b ≠ s.b ∨ t.c ≠ s.c ∨ t.d ≠ s.d → hashes ∨ i = .mini ∨ ∃ r, i = .mrnd r) ∧
    (t.m ≠ s.m → hashes ∨ i = .munp) ∧
    (t.buf ≠ s.buf ∨ t.len ≠ s.len →
      hashes ∨ i = .bclr ∨ i = .mpad ∨ (∃ imm8, i = .bapb imm8) ∨ ∃ sel, i = .baps sel) ∧
    (t.dig ≠ s.dig → hashes ∨ i = .mfin ∨ ∃ idx imm8, i = .lddg idx imm8) ∧
    (t.alt ≠ s.alt → i = .mvd .alt ∨ i = .palt ∨ i = .pwh) ∧
    (t.int ≠ s.int → i = .mvd .int ∨ i = .pint ∨ i = .prnd ∨ i = .pwh) ∧
    (t.pw ≠ s.pw → ∃ idx imm8, i = .ldpw idx imm8) ∧
    (t.pwlen ≠ s.pwlen → ∃ n, i = .ldpl n) ∧
    (t.salt ≠ s.salt → ∃ idx imm8, i = .ldsl idx imm8) ∧
    (t.inum ≠ s.inum → i = .clri ∨ i = .prnd ∨ i = .pwh) ∧
    (t.perm ≠ s.perm → (∃ q, i = .eprm q ∨ i = .enc q) ∨ i = .pwh) ∧
    (t.code ≠ s.code → (∃ q, i = .enc q) ∨ i = .epak ∨ i = .pwh) ∧
    (t.out ≠ s.out → (∃ q, i = .enc q) ∨ i = .emap ∨ i = .pwh) ∧
    t.rst = s.rst ∧ t.host = s.host

/-- O53. The read map of the host (`10_state.md` R42), at every address, for a core that is not busy. A cell of BUF at or above LEN is
unspecified, so nothing is said of it. STATUS is exact even while busy. -/
def Obligations.ReadPortMap : Prop :=
  (∀ s : State, s.readPort 0x0D9 = s.status) ∧
  ∀ s : State, s.busy = false →
    let rd : Nat → Byte := fun x => s.readPort (BitVec.ofNat 9 x)
    (∀ (k : Nat) (hk : k < 64), k < s.len.toNat → rd k = s.buf[k]) ∧
    (∀ (k : Fin 16) (b : Fin 4), (rd (0x040 + 4 * k.val + b.val)).toNat = s.m[k].toNat / 2 ^ (8 * b.val) % 256) ∧
    (∀ b : Fin 4, (rd (0x080 + b.val)).toNat = s.a.toNat / 2 ^ (8 * b.val) % 256 ∧
      (rd (0x084 + b.val)).toNat = s.b.toNat / 2 ^ (8 * b.val) % 256 ∧
      (rd (0x088 + b.val)).toNat = s.c.toNat / 2 ^ (8 * b.val) % 256 ∧
      (rd (0x08C + b.val)).toNat = s.d.toNat / 2 ^ (8 * b.val) % 256) ∧
    (∀ k : Fin 16, rd (0x090 + k.val) = s.dig[k] ∧ rd (0x0A0 + k.val) = s.alt[k] ∧ rd (0x0B0 + k.val) = s.int[k] ∧
      rd (0x0E0 + k.val) = s.perm[k]) ∧
    (∀ k : Fin 15, rd (0x0C0 + k.val) = s.pw[k]) ∧ (rd 0x0CF).toNat = s.pwlen.toNat ∧
    (∀ k : Fin 8, rd (0x0D0 + k.val) = s.salt[k]) ∧ (rd 0x0D8).toNat = s.len.toNat ∧
    (rd 0x0DA).toNat + 2 ^ 8 * (rd 0x0DB).toNat = s.inum.toNat ∧
    (∀ k : Fin 22, (rd (0x0F0 + k.val)).toNat = s.code[k].toNat ∧ rd (0x110 + k.val) = s.out[k]) ∧
    (∀ x, x < 512 → 0x0DC ≤ x ∧ x ≤ 0x0DF ∨ 0x106 ≤ x ∧ x ≤ 0x10F ∨ 0x126 ≤ x → rd x = 0x00)

/-! ## The host's procedures -/

/-- O54. To hash a message (`70_reset_and_hazards.md` R252): BCLR, its bytes in order (at most 55) by BAPB, MD5H; from every
state without a fault this leaves the digest of the message in DIG, and FAULT = 0. -/
def Obligations.HostHashesAMessage : Prop :=
  ∀ (s : State) (msg : List Byte), s.fault = false → msg.length ≤ 55 →
    ∃ t, execSeq ([.bclr] ++ msg.map .bapb ++ [.md5h]) s = .next t ∧ t.fault = false ∧ t.dig = md5 msg

/-- O55. To hash a password (`70_reset_and_hazards.md` R253): p commands LDPW, LDPL, eight LDSL, then PWH; from every state
without a fault this leaves `hashPassword(password, salt)` in OUT, and FAULT = 0. -/
def Obligations.HostHashesAPassword : Prop :=
  ∀ (s : State) (pw salt : List Byte), s.fault = false → pw.length ≤ 15 → salt.length = 8 →
    ∃ t, execSeq ((List.range pw.length).map (fun k => .ldpw (BitVec.ofNat 4 k) (pw.getD k 0))
        ++ [.ldpl (BitVec.ofNat 4 pw.length)]
        ++ (List.range 8).map (fun k => .ldsl (BitVec.ofNat 4 k) (salt.getD k 0)) ++ [.pwh]) s = .next t ∧
      t.fault = false ∧ t.out = hashPassword pw salt

/-- O56. To encode a digest of its own choosing (`70_reset_and_hazards.md` R255, `42_pwhash.md` R164) the host issues sixteen
LDDG and ENC DIG. -/
def Obligations.HostEncodesADigest : Prop :=
  ∀ (s : State) (d : Digest), s.fault = false →
    ∃ t, execSeq ((List.finRange 16).map (fun k => .lddg (BitVec.ofNat 4 k.val) d[k]) ++ [.enc .dig]) s = .next t ∧
      t.fault = false ∧ t.dig = d ∧ t.out = encodeText d

/-! ## Reset inside a command -/

/-- O57. Reset inside a command (`70_reset_and_hazards.md` R250): the accepted command is abandoned without completing, so
BUSY stays 1 while reset is asserted (log 9); nothing of its partial effect may be relied on, so two cores at one position
of the free-value counter come out alike, whatever their registers and commands; the release gives the reset table. A word
the core does not accept is no command in progress: only the wire and the event move (log 6, log 8). -/
def Obligations.ResetAbandonsTheCommand : Prop :=
  (∀ (s : State) (cw : CmdWord) (rest : List HostEvent) (i : Instr),
    s.host = .presentThenReset cw :: rest → s.accepts = true → decode cw = .instr i →
      ∃ u, step s = .next u ∧ u.rst = true ∧ u.busy = true ∧ u.fault = false ∧ u.fcause = s.fcause ∧ u.cmdReady = false ∧
        u.host = rest ∧
        (∀ rest', rest = .releaseReset :: rest' → ∃ t, step u = .next t ∧ t.len = 0 ∧ t.pwlen = 0 ∧ t.inum = 0 ∧
          t.status = 0x00 ∧ t.cmdReady = true ∧ t.rst = false ∧ t.host = rest')) ∧
  (∀ (s s' : State) (cw cw' : CmdWord) (rest : List HostEvent) (i i' : Instr),
    s.host = .presentThenReset cw :: rest → s.accepts = true → decode cw = .instr i →
    s'.host = .presentThenReset cw' :: rest → s'.accepts = true → decode cw' = .instr i' →
    s'.freeCtr = s.freeCtr → s'.fcause = s.fcause → step s' = step s) ∧
  (∀ (s : State) (cw : CmdWord) (rest : List HostEvent),
    s.host = .presentThenReset cw :: rest → s.accepts = false → step s = .next { s with rst := true, host := rest })
end

