-- ==== Sys2Proof/Laws/State.lean ====
section
/-! SUPPORT. The small lemmas of the named state updates: one per field per update, so that no later proof unfolds a record
update. -/

namespace Sys2Proof.Machine

variable (s : State) (rest : List HostEvent) (ctr : Nat)

@[simp] theorem faultEntry_a : (faultEntry s).a = s.a := rfl
@[simp] theorem faultEntry_b : (faultEntry s).b = s.b := rfl
@[simp] theorem faultEntry_c : (faultEntry s).c = s.c := rfl
@[simp] theorem faultEntry_d : (faultEntry s).d = s.d := rfl
@[simp] theorem faultEntry_m : (faultEntry s).m = s.m := rfl
@[simp] theorem faultEntry_buf : (faultEntry s).buf = s.buf := rfl
@[simp] theorem faultEntry_len : (faultEntry s).len = s.len := rfl
@[simp] theorem faultEntry_dig : (faultEntry s).dig = s.dig := rfl
@[simp] theorem faultEntry_alt : (faultEntry s).alt = s.alt := rfl
@[simp] theorem faultEntry_int : (faultEntry s).int = s.int := rfl
@[simp] theorem faultEntry_pw : (faultEntry s).pw = s.pw := rfl
@[simp] theorem faultEntry_pwlen : (faultEntry s).pwlen = s.pwlen := rfl
@[simp] theorem faultEntry_salt : (faultEntry s).salt = s.salt := rfl
@[simp] theorem faultEntry_inum : (faultEntry s).inum = s.inum := rfl
@[simp] theorem faultEntry_perm : (faultEntry s).perm = s.perm := rfl
@[simp] theorem faultEntry_code : (faultEntry s).code = s.code := rfl
@[simp] theorem faultEntry_out : (faultEntry s).out = s.out := rfl
@[simp] theorem faultEntry_busy : (faultEntry s).busy = false := rfl
@[simp] theorem faultEntry_fault : (faultEntry s).fault = true := rfl
@[simp] theorem faultEntry_fcause : (faultEntry s).fcause = 1 := rfl
@[simp] theorem faultEntry_rst : (faultEntry s).rst = s.rst := rfl
@[simp] theorem faultEntry_host : (faultEntry s).host = s.host := rfl
@[simp] theorem faultEntry_freeCtr : (faultEntry s).freeCtr = s.freeCtr := rfl

@[simp] theorem acceptCommand_a : (acceptCommand rest s).a = s.a := rfl
@[simp] theorem acceptCommand_b : (acceptCommand rest s).b = s.b := rfl
@[simp] theorem acceptCommand_c : (acceptCommand rest s).c = s.c := rfl
@[simp] theorem acceptCommand_d : (acceptCommand rest s).d = s.d := rfl
@[simp] theorem acceptCommand_m : (acceptCommand rest s).m = s.m := rfl
@[simp] theorem acceptCommand_buf : (acceptCommand rest s).buf = s.buf := rfl
@[simp] theorem acceptCommand_len : (acceptCommand rest s).len = s.len := rfl
@[simp] theorem acceptCommand_dig : (acceptCommand rest s).dig = s.dig := rfl
@[simp] theorem acceptCommand_alt : (acceptCommand rest s).alt = s.alt := rfl
@[simp] theorem acceptCommand_int : (acceptCommand rest s).int = s.int := rfl
@[simp] theorem acceptCommand_pw : (acceptCommand rest s).pw = s.pw := rfl
@[simp] theorem acceptCommand_pwlen : (acceptCommand rest s).pwlen = s.pwlen := rfl
@[simp] theorem acceptCommand_salt : (acceptCommand rest s).salt = s.salt := rfl
@[simp] theorem acceptCommand_inum : (acceptCommand rest s).inum = s.inum := rfl
@[simp] theorem acceptCommand_perm : (acceptCommand rest s).perm = s.perm := rfl
@[simp] theorem acceptCommand_code : (acceptCommand rest s).code = s.code := rfl
@[simp] theorem acceptCommand_out : (acceptCommand rest s).out = s.out := rfl
@[simp] theorem acceptCommand_busy : (acceptCommand rest s).busy = true := rfl
@[simp] theorem acceptCommand_fault : (acceptCommand rest s).fault = s.fault := rfl
@[simp] theorem acceptCommand_fcause : (acceptCommand rest s).fcause = s.fcause := rfl
@[simp] theorem acceptCommand_rst : (acceptCommand rest s).rst = s.rst := rfl
@[simp] theorem acceptCommand_host : (acceptCommand rest s).host = rest := rfl
@[simp] theorem acceptCommand_freeCtr : (acceptCommand rest s).freeCtr = s.freeCtr := rfl

@[simp] theorem ignoreCommand_a : (ignoreCommand rest s).a = s.a := rfl
@[simp] theorem ignoreCommand_b : (ignoreCommand rest s).b = s.b := rfl
@[simp] theorem ignoreCommand_c : (ignoreCommand rest s).c = s.c := rfl
@[simp] theorem ignoreCommand_d : (ignoreCommand rest s).d = s.d := rfl
@[simp] theorem ignoreCommand_m : (ignoreCommand rest s).m = s.m := rfl
@[simp] theorem ignoreCommand_buf : (ignoreCommand rest s).buf = s.buf := rfl
@[simp] theorem ignoreCommand_len : (ignoreCommand rest s).len = s.len := rfl
@[simp] theorem ignoreCommand_dig : (ignoreCommand rest s).dig = s.dig := rfl
@[simp] theorem ignoreCommand_alt : (ignoreCommand rest s).alt = s.alt := rfl
@[simp] theorem ignoreCommand_int : (ignoreCommand rest s).int = s.int := rfl
@[simp] theorem ignoreCommand_pw : (ignoreCommand rest s).pw = s.pw := rfl
@[simp] theorem ignoreCommand_pwlen : (ignoreCommand rest s).pwlen = s.pwlen := rfl
@[simp] theorem ignoreCommand_salt : (ignoreCommand rest s).salt = s.salt := rfl
@[simp] theorem ignoreCommand_inum : (ignoreCommand rest s).inum = s.inum := rfl
@[simp] theorem ignoreCommand_perm : (ignoreCommand rest s).perm = s.perm := rfl
@[simp] theorem ignoreCommand_code : (ignoreCommand rest s).code = s.code := rfl
@[simp] theorem ignoreCommand_out : (ignoreCommand rest s).out = s.out := rfl
@[simp] theorem ignoreCommand_busy : (ignoreCommand rest s).busy = s.busy := rfl
@[simp] theorem ignoreCommand_fault : (ignoreCommand rest s).fault = s.fault := rfl
@[simp] theorem ignoreCommand_fcause : (ignoreCommand rest s).fcause = s.fcause := rfl
@[simp] theorem ignoreCommand_rst : (ignoreCommand rest s).rst = s.rst := rfl
@[simp] theorem ignoreCommand_host : (ignoreCommand rest s).host = rest := rfl
@[simp] theorem ignoreCommand_freeCtr : (ignoreCommand rest s).freeCtr = s.freeCtr := rfl

@[simp] theorem assertRst_a : (assertRst rest s).a = s.a := rfl
@[simp] theorem assertRst_b : (assertRst rest s).b = s.b := rfl
@[simp] theorem assertRst_c : (assertRst rest s).c = s.c := rfl
@[simp] theorem assertRst_d : (assertRst rest s).d = s.d := rfl
@[simp] theorem assertRst_m : (assertRst rest s).m = s.m := rfl
@[simp] theorem assertRst_buf : (assertRst rest s).buf = s.buf := rfl
@[simp] theorem assertRst_len : (assertRst rest s).len = s.len := rfl
@[simp] theorem assertRst_dig : (assertRst rest s).dig = s.dig := rfl
@[simp] theorem assertRst_alt : (assertRst rest s).alt = s.alt := rfl
@[simp] theorem assertRst_int : (assertRst rest s).int = s.int := rfl
@[simp] theorem assertRst_pw : (assertRst rest s).pw = s.pw := rfl
@[simp] theorem assertRst_pwlen : (assertRst rest s).pwlen = s.pwlen := rfl
@[simp] theorem assertRst_salt : (assertRst rest s).salt = s.salt := rfl
@[simp] theorem assertRst_inum : (assertRst rest s).inum = s.inum := rfl
@[simp] theorem assertRst_perm : (assertRst rest s).perm = s.perm := rfl
@[simp] theorem assertRst_code : (assertRst rest s).code = s.code := rfl
@[simp] theorem assertRst_out : (assertRst rest s).out = s.out := rfl
@[simp] theorem assertRst_busy : (assertRst rest s).busy = s.busy := rfl
@[simp] theorem assertRst_fault : (assertRst rest s).fault = s.fault := rfl
@[simp] theorem assertRst_fcause : (assertRst rest s).fcause = s.fcause := rfl
@[simp] theorem assertRst_rst : (assertRst rest s).rst = true := rfl
@[simp] theorem assertRst_host : (assertRst rest s).host = rest := rfl
@[simp] theorem assertRst_freeCtr : (assertRst rest s).freeCtr = s.freeCtr := rfl

@[simp] theorem setBuf_a (xbuf : Vector Byte 64) (xlen : BitVec 7) : (s.setBuf xbuf xlen).a = s.a := rfl
@[simp] theorem setBuf_b (xbuf : Vector Byte 64) (xlen : BitVec 7) : (s.setBuf xbuf xlen).b = s.b := rfl
@[simp] theorem setBuf_c (xbuf : Vector Byte 64) (xlen : BitVec 7) : (s.setBuf xbuf xlen).c = s.c := rfl
@[simp] theorem setBuf_d (xbuf : Vector Byte 64) (xlen : BitVec 7) : (s.setBuf xbuf xlen).d = s.d := rfl
@[simp] theorem setBuf_m (xbuf : Vector Byte 64) (xlen : BitVec 7) : (s.setBuf xbuf xlen).m = s.m := rfl
@[simp] theorem setBuf_buf (xbuf : Vector Byte 64) (xlen : BitVec 7) : (s.setBuf xbuf xlen).buf = xbuf := rfl
@[simp] theorem setBuf_len (xbuf : Vector Byte 64) (xlen : BitVec 7) : (s.setBuf xbuf xlen).len = xlen := rfl
@[simp] theorem setBuf_dig (xbuf : Vector Byte 64) (xlen : BitVec 7) : (s.setBuf xbuf xlen).dig = s.dig := rfl
@[simp] theorem setBuf_alt (xbuf : Vector Byte 64) (xlen : BitVec 7) : (s.setBuf xbuf xlen).alt = s.alt := rfl
@[simp] theorem setBuf_int (xbuf : Vector Byte 64) (xlen : BitVec 7) : (s.setBuf xbuf xlen).int = s.int := rfl
@[simp] theorem setBuf_pw (xbuf : Vector Byte 64) (xlen : BitVec 7) : (s.setBuf xbuf xlen).pw = s.pw := rfl
@[simp] theorem setBuf_pwlen (xbuf : Vector Byte 64) (xlen : BitVec 7) : (s.setBuf xbuf xlen).pwlen = s.pwlen := rfl
@[simp] theorem setBuf_salt (xbuf : Vector Byte 64) (xlen : BitVec 7) : (s.setBuf xbuf xlen).salt = s.salt := rfl
@[simp] theorem setBuf_inum (xbuf : Vector Byte 64) (xlen : BitVec 7) : (s.setBuf xbuf xlen).inum = s.inum := rfl
@[simp] theorem setBuf_perm (xbuf : Vector Byte 64) (xlen : BitVec 7) : (s.setBuf xbuf xlen).perm = s.perm := rfl
@[simp] theorem setBuf_code (xbuf : Vector Byte 64) (xlen : BitVec 7) : (s.setBuf xbuf xlen).code = s.code := rfl
@[simp] theorem setBuf_out (xbuf : Vector Byte 64) (xlen : BitVec 7) : (s.setBuf xbuf xlen).out = s.out := rfl
@[simp] theorem setBuf_busy (xbuf : Vector Byte 64) (xlen : BitVec 7) : (s.setBuf xbuf xlen).busy = s.busy := rfl
@[simp] theorem setBuf_fault (xbuf : Vector Byte 64) (xlen : BitVec 7) : (s.setBuf xbuf xlen).fault = s.fault := rfl
@[simp] theorem setBuf_fcause (xbuf : Vector Byte 64) (xlen : BitVec 7) : (s.setBuf xbuf xlen).fcause = s.fcause := rfl
@[simp] theorem setBuf_rst (xbuf : Vector Byte 64) (xlen : BitVec 7) : (s.setBuf xbuf xlen).rst = s.rst := rfl
@[simp] theorem setBuf_host (xbuf : Vector Byte 64) (xlen : BitVec 7) : (s.setBuf xbuf xlen).host = s.host := rfl
@[simp] theorem setBuf_freeCtr (xbuf : Vector Byte 64) (xlen : BitVec 7) : (s.setBuf xbuf xlen).freeCtr = s.freeCtr := rfl

@[simp] theorem setRegs_a (xa : Word) (xb : Word) (xc : Word) (xd : Word) : (s.setRegs xa xb xc xd).a = xa := rfl
@[simp] theorem setRegs_b (xa : Word) (xb : Word) (xc : Word) (xd : Word) : (s.setRegs xa xb xc xd).b = xb := rfl
@[simp] theorem setRegs_c (xa : Word) (xb : Word) (xc : Word) (xd : Word) : (s.setRegs xa xb xc xd).c = xc := rfl
@[simp] theorem setRegs_d (xa : Word) (xb : Word) (xc : Word) (xd : Word) : (s.setRegs xa xb xc xd).d = xd := rfl
@[simp] theorem setRegs_m (xa : Word) (xb : Word) (xc : Word) (xd : Word) : (s.setRegs xa xb xc xd).m = s.m := rfl
@[simp] theorem setRegs_buf (xa : Word) (xb : Word) (xc : Word) (xd : Word) : (s.setRegs xa xb xc xd).buf = s.buf := rfl
@[simp] theorem setRegs_len (xa : Word) (xb : Word) (xc : Word) (xd : Word) : (s.setRegs xa xb xc xd).len = s.len := rfl
@[simp] theorem setRegs_dig (xa : Word) (xb : Word) (xc : Word) (xd : Word) : (s.setRegs xa xb xc xd).dig = s.dig := rfl
@[simp] theorem setRegs_alt (xa : Word) (xb : Word) (xc : Word) (xd : Word) : (s.setRegs xa xb xc xd).alt = s.alt := rfl
@[simp] theorem setRegs_int (xa : Word) (xb : Word) (xc : Word) (xd : Word) : (s.setRegs xa xb xc xd).int = s.int := rfl
@[simp] theorem setRegs_pw (xa : Word) (xb : Word) (xc : Word) (xd : Word) : (s.setRegs xa xb xc xd).pw = s.pw := rfl
@[simp] theorem setRegs_pwlen (xa : Word) (xb : Word) (xc : Word) (xd : Word) : (s.setRegs xa xb xc xd).pwlen = s.pwlen := rfl
@[simp] theorem setRegs_salt (xa : Word) (xb : Word) (xc : Word) (xd : Word) : (s.setRegs xa xb xc xd).salt = s.salt := rfl
@[simp] theorem setRegs_inum (xa : Word) (xb : Word) (xc : Word) (xd : Word) : (s.setRegs xa xb xc xd).inum = s.inum := rfl
@[simp] theorem setRegs_perm (xa : Word) (xb : Word) (xc : Word) (xd : Word) : (s.setRegs xa xb xc xd).perm = s.perm := rfl
@[simp] theorem setRegs_code (xa : Word) (xb : Word) (xc : Word) (xd : Word) : (s.setRegs xa xb xc xd).code = s.code := rfl
@[simp] theorem setRegs_out (xa : Word) (xb : Word) (xc : Word) (xd : Word) : (s.setRegs xa xb xc xd).out = s.out := rfl
@[simp] theorem setRegs_busy (xa : Word) (xb : Word) (xc : Word) (xd : Word) : (s.setRegs xa xb xc xd).busy = s.busy := rfl
@[simp] theorem setRegs_fault (xa : Word) (xb : Word) (xc : Word) (xd : Word) : (s.setRegs xa xb xc xd).fault = s.fault := rfl
@[simp] theorem setRegs_fcause (xa : Word) (xb : Word) (xc : Word) (xd : Word) : (s.setRegs xa xb xc xd).fcause = s.fcause := rfl
@[simp] theorem setRegs_rst (xa : Word) (xb : Word) (xc : Word) (xd : Word) : (s.setRegs xa xb xc xd).rst = s.rst := rfl
@[simp] theorem setRegs_host (xa : Word) (xb : Word) (xc : Word) (xd : Word) : (s.setRegs xa xb xc xd).host = s.host := rfl
@[simp] theorem setRegs_freeCtr (xa : Word) (xb : Word) (xc : Word) (xd : Word) : (s.setRegs xa xb xc xd).freeCtr = s.freeCtr := rfl

@[simp] theorem setM_a (xm : Vector Word 16) : (s.setM xm).a = s.a := rfl
@[simp] theorem setM_b (xm : Vector Word 16) : (s.setM xm).b = s.b := rfl
@[simp] theorem setM_c (xm : Vector Word 16) : (s.setM xm).c = s.c := rfl
@[simp] theorem setM_d (xm : Vector Word 16) : (s.setM xm).d = s.d := rfl
@[simp] theorem setM_m (xm : Vector Word 16) : (s.setM xm).m = xm := rfl
@[simp] theorem setM_buf (xm : Vector Word 16) : (s.setM xm).buf = s.buf := rfl
@[simp] theorem setM_len (xm : Vector Word 16) : (s.setM xm).len = s.len := rfl
@[simp] theorem setM_dig (xm : Vector Word 16) : (s.setM xm).dig = s.dig := rfl
@[simp] theorem setM_alt (xm : Vector Word 16) : (s.setM xm).alt = s.alt := rfl
@[simp] theorem setM_int (xm : Vector Word 16) : (s.setM xm).int = s.int := rfl
@[simp] theorem setM_pw (xm : Vector Word 16) : (s.setM xm).pw = s.pw := rfl
@[simp] theorem setM_pwlen (xm : Vector Word 16) : (s.setM xm).pwlen = s.pwlen := rfl
@[simp] theorem setM_salt (xm : Vector Word 16) : (s.setM xm).salt = s.salt := rfl
@[simp] theorem setM_inum (xm : Vector Word 16) : (s.setM xm).inum = s.inum := rfl
@[simp] theorem setM_perm (xm : Vector Word 16) : (s.setM xm).perm = s.perm := rfl
@[simp] theorem setM_code (xm : Vector Word 16) : (s.setM xm).code = s.code := rfl
@[simp] theorem setM_out (xm : Vector Word 16) : (s.setM xm).out = s.out := rfl
@[simp] theorem setM_busy (xm : Vector Word 16) : (s.setM xm).busy = s.busy := rfl
@[simp] theorem setM_fault (xm : Vector Word 16) : (s.setM xm).fault = s.fault := rfl
@[simp] theorem setM_fcause (xm : Vector Word 16) : (s.setM xm).fcause = s.fcause := rfl
@[simp] theorem setM_rst (xm : Vector Word 16) : (s.setM xm).rst = s.rst := rfl
@[simp] theorem setM_host (xm : Vector Word 16) : (s.setM xm).host = s.host := rfl
@[simp] theorem setM_freeCtr (xm : Vector Word 16) : (s.setM xm).freeCtr = s.freeCtr := rfl

@[simp] theorem setDig_a (xdig : Digest) : (s.setDig xdig).a = s.a := rfl
@[simp] theorem setDig_b (xdig : Digest) : (s.setDig xdig).b = s.b := rfl
@[simp] theorem setDig_c (xdig : Digest) : (s.setDig xdig).c = s.c := rfl
@[simp] theorem setDig_d (xdig : Digest) : (s.setDig xdig).d = s.d := rfl
@[simp] theorem setDig_m (xdig : Digest) : (s.setDig xdig).m = s.m := rfl
@[simp] theorem setDig_buf (xdig : Digest) : (s.setDig xdig).buf = s.buf := rfl
@[simp] theorem setDig_len (xdig : Digest) : (s.setDig xdig).len = s.len := rfl
@[simp] theorem setDig_dig (xdig : Digest) : (s.setDig xdig).dig = xdig := rfl
@[simp] theorem setDig_alt (xdig : Digest) : (s.setDig xdig).alt = s.alt := rfl
@[simp] theorem setDig_int (xdig : Digest) : (s.setDig xdig).int = s.int := rfl
@[simp] theorem setDig_pw (xdig : Digest) : (s.setDig xdig).pw = s.pw := rfl
@[simp] theorem setDig_pwlen (xdig : Digest) : (s.setDig xdig).pwlen = s.pwlen := rfl
@[simp] theorem setDig_salt (xdig : Digest) : (s.setDig xdig).salt = s.salt := rfl
@[simp] theorem setDig_inum (xdig : Digest) : (s.setDig xdig).inum = s.inum := rfl
@[simp] theorem setDig_perm (xdig : Digest) : (s.setDig xdig).perm = s.perm := rfl
@[simp] theorem setDig_code (xdig : Digest) : (s.setDig xdig).code = s.code := rfl
@[simp] theorem setDig_out (xdig : Digest) : (s.setDig xdig).out = s.out := rfl
@[simp] theorem setDig_busy (xdig : Digest) : (s.setDig xdig).busy = s.busy := rfl
@[simp] theorem setDig_fault (xdig : Digest) : (s.setDig xdig).fault = s.fault := rfl
@[simp] theorem setDig_fcause (xdig : Digest) : (s.setDig xdig).fcause = s.fcause := rfl
@[simp] theorem setDig_rst (xdig : Digest) : (s.setDig xdig).rst = s.rst := rfl
@[simp] theorem setDig_host (xdig : Digest) : (s.setDig xdig).host = s.host := rfl
@[simp] theorem setDig_freeCtr (xdig : Digest) : (s.setDig xdig).freeCtr = s.freeCtr := rfl

@[simp] theorem setAlt_a (xalt : Digest) : (s.setAlt xalt).a = s.a := rfl
@[simp] theorem setAlt_b (xalt : Digest) : (s.setAlt xalt).b = s.b := rfl
@[simp] theorem setAlt_c (xalt : Digest) : (s.setAlt xalt).c = s.c := rfl
@[simp] theorem setAlt_d (xalt : Digest) : (s.setAlt xalt).d = s.d := rfl
@[simp] theorem setAlt_m (xalt : Digest) : (s.setAlt xalt).m = s.m := rfl
@[simp] theorem setAlt_buf (xalt : Digest) : (s.setAlt xalt).buf = s.buf := rfl
@[simp] theorem setAlt_len (xalt : Digest) : (s.setAlt xalt).len = s.len := rfl
@[simp] theorem setAlt_dig (xalt : Digest) : (s.setAlt xalt).dig = s.dig := rfl
@[simp] theorem setAlt_alt (xalt : Digest) : (s.setAlt xalt).alt = xalt := rfl
@[simp] theorem setAlt_int (xalt : Digest) : (s.setAlt xalt).int = s.int := rfl
@[simp] theorem setAlt_pw (xalt : Digest) : (s.setAlt xalt).pw = s.pw := rfl
@[simp] theorem setAlt_pwlen (xalt : Digest) : (s.setAlt xalt).pwlen = s.pwlen := rfl
@[simp] theorem setAlt_salt (xalt : Digest) : (s.setAlt xalt).salt = s.salt := rfl
@[simp] theorem setAlt_inum (xalt : Digest) : (s.setAlt xalt).inum = s.inum := rfl
@[simp] theorem setAlt_perm (xalt : Digest) : (s.setAlt xalt).perm = s.perm := rfl
@[simp] theorem setAlt_code (xalt : Digest) : (s.setAlt xalt).code = s.code := rfl
@[simp] theorem setAlt_out (xalt : Digest) : (s.setAlt xalt).out = s.out := rfl
@[simp] theorem setAlt_busy (xalt : Digest) : (s.setAlt xalt).busy = s.busy := rfl
@[simp] theorem setAlt_fault (xalt : Digest) : (s.setAlt xalt).fault = s.fault := rfl
@[simp] theorem setAlt_fcause (xalt : Digest) : (s.setAlt xalt).fcause = s.fcause := rfl
@[simp] theorem setAlt_rst (xalt : Digest) : (s.setAlt xalt).rst = s.rst := rfl
@[simp] theorem setAlt_host (xalt : Digest) : (s.setAlt xalt).host = s.host := rfl
@[simp] theorem setAlt_freeCtr (xalt : Digest) : (s.setAlt xalt).freeCtr = s.freeCtr := rfl

@[simp] theorem setInt_a (xint : Digest) : (s.setInt xint).a = s.a := rfl
@[simp] theorem setInt_b (xint : Digest) : (s.setInt xint).b = s.b := rfl
@[simp] theorem setInt_c (xint : Digest) : (s.setInt xint).c = s.c := rfl
@[simp] theorem setInt_d (xint : Digest) : (s.setInt xint).d = s.d := rfl
@[simp] theorem setInt_m (xint : Digest) : (s.setInt xint).m = s.m := rfl
@[simp] theorem setInt_buf (xint : Digest) : (s.setInt xint).buf = s.buf := rfl
@[simp] theorem setInt_len (xint : Digest) : (s.setInt xint).len = s.len := rfl
@[simp] theorem setInt_dig (xint : Digest) : (s.setInt xint).dig = s.dig := rfl
@[simp] theorem setInt_alt (xint : Digest) : (s.setInt xint).alt = s.alt := rfl
@[simp] theorem setInt_int (xint : Digest) : (s.setInt xint).int = xint := rfl
@[simp] theorem setInt_pw (xint : Digest) : (s.setInt xint).pw = s.pw := rfl
@[simp] theorem setInt_pwlen (xint : Digest) : (s.setInt xint).pwlen = s.pwlen := rfl
@[simp] theorem setInt_salt (xint : Digest) : (s.setInt xint).salt = s.salt := rfl
@[simp] theorem setInt_inum (xint : Digest) : (s.setInt xint).inum = s.inum := rfl
@[simp] theorem setInt_perm (xint : Digest) : (s.setInt xint).perm = s.perm := rfl
@[simp] theorem setInt_code (xint : Digest) : (s.setInt xint).code = s.code := rfl
@[simp] theorem setInt_out (xint : Digest) : (s.setInt xint).out = s.out := rfl
@[simp] theorem setInt_busy (xint : Digest) : (s.setInt xint).busy = s.busy := rfl
@[simp] theorem setInt_fault (xint : Digest) : (s.setInt xint).fault = s.fault := rfl
@[simp] theorem setInt_fcause (xint : Digest) : (s.setInt xint).fcause = s.fcause := rfl
@[simp] theorem setInt_rst (xint : Digest) : (s.setInt xint).rst = s.rst := rfl
@[simp] theorem setInt_host (xint : Digest) : (s.setInt xint).host = s.host := rfl
@[simp] theorem setInt_freeCtr (xint : Digest) : (s.setInt xint).freeCtr = s.freeCtr := rfl

@[simp] theorem setPw_a (xpw : Vector Byte 15) : (s.setPw xpw).a = s.a := rfl
@[simp] theorem setPw_b (xpw : Vector Byte 15) : (s.setPw xpw).b = s.b := rfl
@[simp] theorem setPw_c (xpw : Vector Byte 15) : (s.setPw xpw).c = s.c := rfl
@[simp] theorem setPw_d (xpw : Vector Byte 15) : (s.setPw xpw).d = s.d := rfl
@[simp] theorem setPw_m (xpw : Vector Byte 15) : (s.setPw xpw).m = s.m := rfl
@[simp] theorem setPw_buf (xpw : Vector Byte 15) : (s.setPw xpw).buf = s.buf := rfl
@[simp] theorem setPw_len (xpw : Vector Byte 15) : (s.setPw xpw).len = s.len := rfl
@[simp] theorem setPw_dig (xpw : Vector Byte 15) : (s.setPw xpw).dig = s.dig := rfl
@[simp] theorem setPw_alt (xpw : Vector Byte 15) : (s.setPw xpw).alt = s.alt := rfl
@[simp] theorem setPw_int (xpw : Vector Byte 15) : (s.setPw xpw).int = s.int := rfl
@[simp] theorem setPw_pw (xpw : Vector Byte 15) : (s.setPw xpw).pw = xpw := rfl
@[simp] theorem setPw_pwlen (xpw : Vector Byte 15) : (s.setPw xpw).pwlen = s.pwlen := rfl
@[simp] theorem setPw_salt (xpw : Vector Byte 15) : (s.setPw xpw).salt = s.salt := rfl
@[simp] theorem setPw_inum (xpw : Vector Byte 15) : (s.setPw xpw).inum = s.inum := rfl
@[simp] theorem setPw_perm (xpw : Vector Byte 15) : (s.setPw xpw).perm = s.perm := rfl
@[simp] theorem setPw_code (xpw : Vector Byte 15) : (s.setPw xpw).code = s.code := rfl
@[simp] theorem setPw_out (xpw : Vector Byte 15) : (s.setPw xpw).out = s.out := rfl
@[simp] theorem setPw_busy (xpw : Vector Byte 15) : (s.setPw xpw).busy = s.busy := rfl
@[simp] theorem setPw_fault (xpw : Vector Byte 15) : (s.setPw xpw).fault = s.fault := rfl
@[simp] theorem setPw_fcause (xpw : Vector Byte 15) : (s.setPw xpw).fcause = s.fcause := rfl
@[simp] theorem setPw_rst (xpw : Vector Byte 15) : (s.setPw xpw).rst = s.rst := rfl
@[simp] theorem setPw_host (xpw : Vector Byte 15) : (s.setPw xpw).host = s.host := rfl
@[simp] theorem setPw_freeCtr (xpw : Vector Byte 15) : (s.setPw xpw).freeCtr = s.freeCtr := rfl

@[simp] theorem setPwlen_a (xpwlen : BitVec 4) : (s.setPwlen xpwlen).a = s.a := rfl
@[simp] theorem setPwlen_b (xpwlen : BitVec 4) : (s.setPwlen xpwlen).b = s.b := rfl
@[simp] theorem setPwlen_c (xpwlen : BitVec 4) : (s.setPwlen xpwlen).c = s.c := rfl
@[simp] theorem setPwlen_d (xpwlen : BitVec 4) : (s.setPwlen xpwlen).d = s.d := rfl
@[simp] theorem setPwlen_m (xpwlen : BitVec 4) : (s.setPwlen xpwlen).m = s.m := rfl
@[simp] theorem setPwlen_buf (xpwlen : BitVec 4) : (s.setPwlen xpwlen).buf = s.buf := rfl
@[simp] theorem setPwlen_len (xpwlen : BitVec 4) : (s.setPwlen xpwlen).len = s.len := rfl
@[simp] theorem setPwlen_dig (xpwlen : BitVec 4) : (s.setPwlen xpwlen).dig = s.dig := rfl
@[simp] theorem setPwlen_alt (xpwlen : BitVec 4) : (s.setPwlen xpwlen).alt = s.alt := rfl
@[simp] theorem setPwlen_int (xpwlen : BitVec 4) : (s.setPwlen xpwlen).int = s.int := rfl
@[simp] theorem setPwlen_pw (xpwlen : BitVec 4) : (s.setPwlen xpwlen).pw = s.pw := rfl
@[simp] theorem setPwlen_pwlen (xpwlen : BitVec 4) : (s.setPwlen xpwlen).pwlen = xpwlen := rfl
@[simp] theorem setPwlen_salt (xpwlen : BitVec 4) : (s.setPwlen xpwlen).salt = s.salt := rfl
@[simp] theorem setPwlen_inum (xpwlen : BitVec 4) : (s.setPwlen xpwlen).inum = s.inum := rfl
@[simp] theorem setPwlen_perm (xpwlen : BitVec 4) : (s.setPwlen xpwlen).perm = s.perm := rfl
@[simp] theorem setPwlen_code (xpwlen : BitVec 4) : (s.setPwlen xpwlen).code = s.code := rfl
@[simp] theorem setPwlen_out (xpwlen : BitVec 4) : (s.setPwlen xpwlen).out = s.out := rfl
@[simp] theorem setPwlen_busy (xpwlen : BitVec 4) : (s.setPwlen xpwlen).busy = s.busy := rfl
@[simp] theorem setPwlen_fault (xpwlen : BitVec 4) : (s.setPwlen xpwlen).fault = s.fault := rfl
@[simp] theorem setPwlen_fcause (xpwlen : BitVec 4) : (s.setPwlen xpwlen).fcause = s.fcause := rfl
@[simp] theorem setPwlen_rst (xpwlen : BitVec 4) : (s.setPwlen xpwlen).rst = s.rst := rfl
@[simp] theorem setPwlen_host (xpwlen : BitVec 4) : (s.setPwlen xpwlen).host = s.host := rfl
@[simp] theorem setPwlen_freeCtr (xpwlen : BitVec 4) : (s.setPwlen xpwlen).freeCtr = s.freeCtr := rfl

@[simp] theorem setSalt_a (xsalt : Vector Byte 8) : (s.setSalt xsalt).a = s.a := rfl
@[simp] theorem setSalt_b (xsalt : Vector Byte 8) : (s.setSalt xsalt).b = s.b := rfl
@[simp] theorem setSalt_c (xsalt : Vector Byte 8) : (s.setSalt xsalt).c = s.c := rfl
@[simp] theorem setSalt_d (xsalt : Vector Byte 8) : (s.setSalt xsalt).d = s.d := rfl
@[simp] theorem setSalt_m (xsalt : Vector Byte 8) : (s.setSalt xsalt).m = s.m := rfl
@[simp] theorem setSalt_buf (xsalt : Vector Byte 8) : (s.setSalt xsalt).buf = s.buf := rfl
@[simp] theorem setSalt_len (xsalt : Vector Byte 8) : (s.setSalt xsalt).len = s.len := rfl
@[simp] theorem setSalt_dig (xsalt : Vector Byte 8) : (s.setSalt xsalt).dig = s.dig := rfl
@[simp] theorem setSalt_alt (xsalt : Vector Byte 8) : (s.setSalt xsalt).alt = s.alt := rfl
@[simp] theorem setSalt_int (xsalt : Vector Byte 8) : (s.setSalt xsalt).int = s.int := rfl
@[simp] theorem setSalt_pw (xsalt : Vector Byte 8) : (s.setSalt xsalt).pw = s.pw := rfl
@[simp] theorem setSalt_pwlen (xsalt : Vector Byte 8) : (s.setSalt xsalt).pwlen = s.pwlen := rfl
@[simp] theorem setSalt_salt (xsalt : Vector Byte 8) : (s.setSalt xsalt).salt = xsalt := rfl
@[simp] theorem setSalt_inum (xsalt : Vector Byte 8) : (s.setSalt xsalt).inum = s.inum := rfl
@[simp] theorem setSalt_perm (xsalt : Vector Byte 8) : (s.setSalt xsalt).perm = s.perm := rfl
@[simp] theorem setSalt_code (xsalt : Vector Byte 8) : (s.setSalt xsalt).code = s.code := rfl
@[simp] theorem setSalt_out (xsalt : Vector Byte 8) : (s.setSalt xsalt).out = s.out := rfl
@[simp] theorem setSalt_busy (xsalt : Vector Byte 8) : (s.setSalt xsalt).busy = s.busy := rfl
@[simp] theorem setSalt_fault (xsalt : Vector Byte 8) : (s.setSalt xsalt).fault = s.fault := rfl
@[simp] theorem setSalt_fcause (xsalt : Vector Byte 8) : (s.setSalt xsalt).fcause = s.fcause := rfl
@[simp] theorem setSalt_rst (xsalt : Vector Byte 8) : (s.setSalt xsalt).rst = s.rst := rfl
@[simp] theorem setSalt_host (xsalt : Vector Byte 8) : (s.setSalt xsalt).host = s.host := rfl
@[simp] theorem setSalt_freeCtr (xsalt : Vector Byte 8) : (s.setSalt xsalt).freeCtr = s.freeCtr := rfl

@[simp] theorem setInum_a (xinum : BitVec 10) : (s.setInum xinum).a = s.a := rfl
@[simp] theorem setInum_b (xinum : BitVec 10) : (s.setInum xinum).b = s.b := rfl
@[simp] theorem setInum_c (xinum : BitVec 10) : (s.setInum xinum).c = s.c := rfl
@[simp] theorem setInum_d (xinum : BitVec 10) : (s.setInum xinum).d = s.d := rfl
@[simp] theorem setInum_m (xinum : BitVec 10) : (s.setInum xinum).m = s.m := rfl
@[simp] theorem setInum_buf (xinum : BitVec 10) : (s.setInum xinum).buf = s.buf := rfl
@[simp] theorem setInum_len (xinum : BitVec 10) : (s.setInum xinum).len = s.len := rfl
@[simp] theorem setInum_dig (xinum : BitVec 10) : (s.setInum xinum).dig = s.dig := rfl
@[simp] theorem setInum_alt (xinum : BitVec 10) : (s.setInum xinum).alt = s.alt := rfl
@[simp] theorem setInum_int (xinum : BitVec 10) : (s.setInum xinum).int = s.int := rfl
@[simp] theorem setInum_pw (xinum : BitVec 10) : (s.setInum xinum).pw = s.pw := rfl
@[simp] theorem setInum_pwlen (xinum : BitVec 10) : (s.setInum xinum).pwlen = s.pwlen := rfl
@[simp] theorem setInum_salt (xinum : BitVec 10) : (s.setInum xinum).salt = s.salt := rfl
@[simp] theorem setInum_inum (xinum : BitVec 10) : (s.setInum xinum).inum = xinum := rfl
@[simp] theorem setInum_perm (xinum : BitVec 10) : (s.setInum xinum).perm = s.perm := rfl
@[simp] theorem setInum_code (xinum : BitVec 10) : (s.setInum xinum).code = s.code := rfl
@[simp] theorem setInum_out (xinum : BitVec 10) : (s.setInum xinum).out = s.out := rfl
@[simp] theorem setInum_busy (xinum : BitVec 10) : (s.setInum xinum).busy = s.busy := rfl
@[simp] theorem setInum_fault (xinum : BitVec 10) : (s.setInum xinum).fault = s.fault := rfl
@[simp] theorem setInum_fcause (xinum : BitVec 10) : (s.setInum xinum).fcause = s.fcause := rfl
@[simp] theorem setInum_rst (xinum : BitVec 10) : (s.setInum xinum).rst = s.rst := rfl
@[simp] theorem setInum_host (xinum : BitVec 10) : (s.setInum xinum).host = s.host := rfl
@[simp] theorem setInum_freeCtr (xinum : BitVec 10) : (s.setInum xinum).freeCtr = s.freeCtr := rfl

@[simp] theorem setPerm_a (xperm : Digest) : (s.setPerm xperm).a = s.a := rfl
@[simp] theorem setPerm_b (xperm : Digest) : (s.setPerm xperm).b = s.b := rfl
@[simp] theorem setPerm_c (xperm : Digest) : (s.setPerm xperm).c = s.c := rfl
@[simp] theorem setPerm_d (xperm : Digest) : (s.setPerm xperm).d = s.d := rfl
@[simp] theorem setPerm_m (xperm : Digest) : (s.setPerm xperm).m = s.m := rfl
@[simp] theorem setPerm_buf (xperm : Digest) : (s.setPerm xperm).buf = s.buf := rfl
@[simp] theorem setPerm_len (xperm : Digest) : (s.setPerm xperm).len = s.len := rfl
@[simp] theorem setPerm_dig (xperm : Digest) : (s.setPerm xperm).dig = s.dig := rfl
@[simp] theorem setPerm_alt (xperm : Digest) : (s.setPerm xperm).alt = s.alt := rfl
@[simp] theorem setPerm_int (xperm : Digest) : (s.setPerm xperm).int = s.int := rfl
@[simp] theorem setPerm_pw (xperm : Digest) : (s.setPerm xperm).pw = s.pw := rfl
@[simp] theorem setPerm_pwlen (xperm : Digest) : (s.setPerm xperm).pwlen = s.pwlen := rfl
@[simp] theorem setPerm_salt (xperm : Digest) : (s.setPerm xperm).salt = s.salt := rfl
@[simp] theorem setPerm_inum (xperm : Digest) : (s.setPerm xperm).inum = s.inum := rfl
@[simp] theorem setPerm_perm (xperm : Digest) : (s.setPerm xperm).perm = xperm := rfl
@[simp] theorem setPerm_code (xperm : Digest) : (s.setPerm xperm).code = s.code := rfl
@[simp] theorem setPerm_out (xperm : Digest) : (s.setPerm xperm).out = s.out := rfl
@[simp] theorem setPerm_busy (xperm : Digest) : (s.setPerm xperm).busy = s.busy := rfl
@[simp] theorem setPerm_fault (xperm : Digest) : (s.setPerm xperm).fault = s.fault := rfl
@[simp] theorem setPerm_fcause (xperm : Digest) : (s.setPerm xperm).fcause = s.fcause := rfl
@[simp] theorem setPerm_rst (xperm : Digest) : (s.setPerm xperm).rst = s.rst := rfl
@[simp] theorem setPerm_host (xperm : Digest) : (s.setPerm xperm).host = s.host := rfl
@[simp] theorem setPerm_freeCtr (xperm : Digest) : (s.setPerm xperm).freeCtr = s.freeCtr := rfl

@[simp] theorem setCode_a (xcode : Vector Code 22) : (s.setCode xcode).a = s.a := rfl
@[simp] theorem setCode_b (xcode : Vector Code 22) : (s.setCode xcode).b = s.b := rfl
@[simp] theorem setCode_c (xcode : Vector Code 22) : (s.setCode xcode).c = s.c := rfl
@[simp] theorem setCode_d (xcode : Vector Code 22) : (s.setCode xcode).d = s.d := rfl
@[simp] theorem setCode_m (xcode : Vector Code 22) : (s.setCode xcode).m = s.m := rfl
@[simp] theorem setCode_buf (xcode : Vector Code 22) : (s.setCode xcode).buf = s.buf := rfl
@[simp] theorem setCode_len (xcode : Vector Code 22) : (s.setCode xcode).len = s.len := rfl
@[simp] theorem setCode_dig (xcode : Vector Code 22) : (s.setCode xcode).dig = s.dig := rfl
@[simp] theorem setCode_alt (xcode : Vector Code 22) : (s.setCode xcode).alt = s.alt := rfl
@[simp] theorem setCode_int (xcode : Vector Code 22) : (s.setCode xcode).int = s.int := rfl
@[simp] theorem setCode_pw (xcode : Vector Code 22) : (s.setCode xcode).pw = s.pw := rfl
@[simp] theorem setCode_pwlen (xcode : Vector Code 22) : (s.setCode xcode).pwlen = s.pwlen := rfl
@[simp] theorem setCode_salt (xcode : Vector Code 22) : (s.setCode xcode).salt = s.salt := rfl
@[simp] theorem setCode_inum (xcode : Vector Code 22) : (s.setCode xcode).inum = s.inum := rfl
@[simp] theorem setCode_perm (xcode : Vector Code 22) : (s.setCode xcode).perm = s.perm := rfl
@[simp] theorem setCode_code (xcode : Vector Code 22) : (s.setCode xcode).code = xcode := rfl
@[simp] theorem setCode_out (xcode : Vector Code 22) : (s.setCode xcode).out = s.out := rfl
@[simp] theorem setCode_busy (xcode : Vector Code 22) : (s.setCode xcode).busy = s.busy := rfl
@[simp] theorem setCode_fault (xcode : Vector Code 22) : (s.setCode xcode).fault = s.fault := rfl
@[simp] theorem setCode_fcause (xcode : Vector Code 22) : (s.setCode xcode).fcause = s.fcause := rfl
@[simp] theorem setCode_rst (xcode : Vector Code 22) : (s.setCode xcode).rst = s.rst := rfl
@[simp] theorem setCode_host (xcode : Vector Code 22) : (s.setCode xcode).host = s.host := rfl
@[simp] theorem setCode_freeCtr (xcode : Vector Code 22) : (s.setCode xcode).freeCtr = s.freeCtr := rfl

@[simp] theorem setOut_a (xout : Vector Byte 22) : (s.setOut xout).a = s.a := rfl
@[simp] theorem setOut_b (xout : Vector Byte 22) : (s.setOut xout).b = s.b := rfl
@[simp] theorem setOut_c (xout : Vector Byte 22) : (s.setOut xout).c = s.c := rfl
@[simp] theorem setOut_d (xout : Vector Byte 22) : (s.setOut xout).d = s.d := rfl
@[simp] theorem setOut_m (xout : Vector Byte 22) : (s.setOut xout).m = s.m := rfl
@[simp] theorem setOut_buf (xout : Vector Byte 22) : (s.setOut xout).buf = s.buf := rfl
@[simp] theorem setOut_len (xout : Vector Byte 22) : (s.setOut xout).len = s.len := rfl
@[simp] theorem setOut_dig (xout : Vector Byte 22) : (s.setOut xout).dig = s.dig := rfl
@[simp] theorem setOut_alt (xout : Vector Byte 22) : (s.setOut xout).alt = s.alt := rfl
@[simp] theorem setOut_int (xout : Vector Byte 22) : (s.setOut xout).int = s.int := rfl
@[simp] theorem setOut_pw (xout : Vector Byte 22) : (s.setOut xout).pw = s.pw := rfl
@[simp] theorem setOut_pwlen (xout : Vector Byte 22) : (s.setOut xout).pwlen = s.pwlen := rfl
@[simp] theorem setOut_salt (xout : Vector Byte 22) : (s.setOut xout).salt = s.salt := rfl
@[simp] theorem setOut_inum (xout : Vector Byte 22) : (s.setOut xout).inum = s.inum := rfl
@[simp] theorem setOut_perm (xout : Vector Byte 22) : (s.setOut xout).perm = s.perm := rfl
@[simp] theorem setOut_code (xout : Vector Byte 22) : (s.setOut xout).code = s.code := rfl
@[simp] theorem setOut_out (xout : Vector Byte 22) : (s.setOut xout).out = xout := rfl
@[simp] theorem setOut_busy (xout : Vector Byte 22) : (s.setOut xout).busy = s.busy := rfl
@[simp] theorem setOut_fault (xout : Vector Byte 22) : (s.setOut xout).fault = s.fault := rfl
@[simp] theorem setOut_fcause (xout : Vector Byte 22) : (s.setOut xout).fcause = s.fcause := rfl
@[simp] theorem setOut_rst (xout : Vector Byte 22) : (s.setOut xout).rst = s.rst := rfl
@[simp] theorem setOut_host (xout : Vector Byte 22) : (s.setOut xout).host = s.host := rfl
@[simp] theorem setOut_freeCtr (xout : Vector Byte 22) : (s.setOut xout).freeCtr = s.freeCtr := rfl

@[simp] theorem draw_a (n : Nat) : (s.draw n).a = s.a := rfl
@[simp] theorem draw_b (n : Nat) : (s.draw n).b = s.b := rfl
@[simp] theorem draw_c (n : Nat) : (s.draw n).c = s.c := rfl
@[simp] theorem draw_d (n : Nat) : (s.draw n).d = s.d := rfl
@[simp] theorem draw_m (n : Nat) : (s.draw n).m = s.m := rfl
@[simp] theorem draw_buf (n : Nat) : (s.draw n).buf = s.buf := rfl
@[simp] theorem draw_len (n : Nat) : (s.draw n).len = s.len := rfl
@[simp] theorem draw_dig (n : Nat) : (s.draw n).dig = s.dig := rfl
@[simp] theorem draw_alt (n : Nat) : (s.draw n).alt = s.alt := rfl
@[simp] theorem draw_int (n : Nat) : (s.draw n).int = s.int := rfl
@[simp] theorem draw_pw (n : Nat) : (s.draw n).pw = s.pw := rfl
@[simp] theorem draw_pwlen (n : Nat) : (s.draw n).pwlen = s.pwlen := rfl
@[simp] theorem draw_salt (n : Nat) : (s.draw n).salt = s.salt := rfl
@[simp] theorem draw_inum (n : Nat) : (s.draw n).inum = s.inum := rfl
@[simp] theorem draw_perm (n : Nat) : (s.draw n).perm = s.perm := rfl
@[simp] theorem draw_code (n : Nat) : (s.draw n).code = s.code := rfl
@[simp] theorem draw_out (n : Nat) : (s.draw n).out = s.out := rfl
@[simp] theorem draw_busy (n : Nat) : (s.draw n).busy = s.busy := rfl
@[simp] theorem draw_fault (n : Nat) : (s.draw n).fault = s.fault := rfl
@[simp] theorem draw_fcause (n : Nat) : (s.draw n).fcause = s.fcause := rfl
@[simp] theorem draw_rst (n : Nat) : (s.draw n).rst = s.rst := rfl
@[simp] theorem draw_host (n : Nat) : (s.draw n).host = s.host := rfl
@[simp] theorem draw_freeCtr (n : Nat) : (s.draw n).freeCtr = s.freeCtr + n := rfl

@[simp] theorem draw_zero : s.draw 0 = s := rfl

@[simp] theorem atReset_len : (State.atReset ctr rest).len = 0 := rfl
@[simp] theorem atReset_pwlen : (State.atReset ctr rest).pwlen = 0 := rfl
@[simp] theorem atReset_inum : (State.atReset ctr rest).inum = 0 := rfl
@[simp] theorem atReset_busy : (State.atReset ctr rest).busy = false := rfl
@[simp] theorem atReset_fault : (State.atReset ctr rest).fault = false := rfl
@[simp] theorem atReset_fcause : (State.atReset ctr rest).fcause = 0 := rfl
@[simp] theorem atReset_rst : (State.atReset ctr rest).rst = false := rfl
@[simp] theorem atReset_host : (State.atReset ctr rest).host = rest := rfl
@[simp] theorem atReset_freeCtr : (State.atReset ctr rest).freeCtr = ctr + resetDraws := rfl

@[simp] theorem reset_eq_atReset : State.reset = State.atReset 0 [] := rfl

/-- An abandoned command leaves LEN within the invariant of R107. -/
theorem abandonCommand_len_le : (abandonCommand rest s).len.toNat ≤ 64 := by
  change (BitVec.ofNat 7 (Config.freeLen s.freeCtr).val).toNat ≤ 64
  have := (Config.freeLen s.freeCtr).isLt
  rw [BitVec.toNat_ofNat]; omega

@[simp] theorem abandonCommand_busy : (abandonCommand rest s).busy = true := rfl
@[simp] theorem abandonCommand_fault : (abandonCommand rest s).fault = s.fault := rfl
@[simp] theorem abandonCommand_fcause : (abandonCommand rest s).fcause = s.fcause := rfl
@[simp] theorem abandonCommand_rst : (abandonCommand rest s).rst = true := rfl
@[simp] theorem abandonCommand_host : (abandonCommand rest s).host = rest := rfl
@[simp] theorem abandonCommand_freeCtr : (abandonCommand rest s).freeCtr = s.freeCtr + resetDraws := rfl

theorem releaseRst_of_asserted (h : s.rst = true) : releaseRst rest s = State.atReset s.freeCtr rest := by simp [releaseRst, h]

theorem releaseRst_of_released (h : s.rst = false) : releaseRst rest s = ignoreCommand rest s := by
  simp [releaseRst, h, ignoreCommand]

end Sys2Proof.Machine
end

