-- ==== Sys2Proof/Laws/Ops.lean ====
section
/-! SUPPORT. What the shared operations of `Machine/Ops.lean` can do, said once. -/

namespace Sys2Proof.Machine

/-- The state a part of a command leaves, whether or not it raised. -/
def Result.state : Result → State
  | .ok s => s
  | .raised s => s

@[simp] theorem state_ok (s : State) : (Result.ok s).state = s := rfl
@[simp] theorem state_raised (s : State) : (Result.raised s).state = s := rfl
@[simp] theorem andThen_ok (s : State) (f : State → Result) : (Result.ok s).andThen f = f s := rfl
@[simp] theorem andThen_raised (s : State) (f : State → Result) : (Result.raised s).andThen f = .raised s := rfl
@[simp] theorem outcome_ok (s : State) : (Result.ok s).outcome = .next s := rfl
@[simp] theorem outcome_raised (s : State) : (Result.raised s).outcome = .next (faultEntry s) := rfl
@[simp] theorem run_nil (s : State) : run [] s = .ok s := rfl
@[simp] theorem run_cons (c : State → Result) (cs : List (State → Result)) (s : State) :
    run (c :: cs) s = (c s).andThen (run cs) := rfl

theorem andThen_assoc (r : Result) (f g : State → Result) :
    (r.andThen f).andThen g = r.andThen fun s => (f s).andThen g := by
  cases r <;> rfl

/-- A sequence runs as its front and then its back. -/
theorem run_append (cs ds : List (State → Result)) (s : State) : run (cs ++ ds) s = (run cs s).andThen (run ds) := by
  induction cs generalizing s with
  | nil => rfl
  | cons c cs ih =>
    cases h : c s with
    | ok t => simp [h, ih]
    | raised t => simp [h]

/-- A command's answer is always a next state: the state it left, after fault entry if it raised. -/
theorem outcome_eq (r : Result) :
    (∃ s, r = .ok s ∧ r.outcome = .next s) ∨ ∃ s, r = .raised s ∧ r.outcome = .next (faultEntry s) := by
  cases r <;> simp

/-- THE INDUCTION OVER A MACRO: what every step keeps, the macro keeps, also up to the step that raises. -/
theorem run_keeps {P : State → Prop} (cs : List (State → Result)) (h : ∀ c ∈ cs, ∀ s, P s → P (c s).state) :
    ∀ s, P s → P (run cs s).state := by
  induction cs with
  | nil => intro s hs; simpa using hs
  | cons c cs ih =>
    intro s hs
    have h1 := h c (by simp) s hs
    cases hc : c s with
    | ok t => simpa [hc] using ih (fun d hd => h d (by simp [hd])) t (by simpa [hc] using h1)
    | raised t => simpa [hc] using h1

/-- The same for one step after a part. -/
theorem andThen_keeps {P : State → Prop} (r : Result) (f : State → Result) (hr : P r.state)
    (hf : ∀ s, P s → P (f s).state) : P (r.andThen f).state := by
  cases r with
  | ok s => simpa using hf s hr
  | raised s => simpa using hr

theorem appendByte_of_lt (b : Byte) (s : State) (h : s.len.toNat < 64) :
    appendByte b s = .ok (s.setBuf (s.buf.set s.len.toNat b h) (s.len + 1)) := by
  simp [appendByte, cap, h]

theorem appendByte_of_ge (b : Byte) (s : State) (h : 64 ≤ s.len.toNat) : appendByte b s = .raised s := by
  simp [appendByte, cap, Nat.not_lt.mpr h]

theorem appendBytes_of_fits (bs : List Byte) (s : State) (h : s.len.toNat + bs.length ≤ 64) :
    appendBytes bs s = .ok (s.setBuf (writeBytes s.buf s.len.toNat bs) (s.len + BitVec.ofNat 7 bs.length)) := by
  simp [appendBytes, cap, Nat.not_lt.mpr h]

theorem appendBytes_of_over (bs : List Byte) (s : State) (h : 64 < s.len.toNat + bs.length) :
    appendBytes bs s = .raised s := by
  simp [appendBytes, cap, h]

/-- What a cell holds after a multi-byte write: the written byte inside the range, its old value outside. -/
theorem writeBytes_getElem (buf : Vector Byte 64) (at0 : Nat) (bs : List Byte) (k : Nat) (hk : k < 64) :
    (writeBytes buf at0 bs)[k] =
      if h : at0 ≤ k ∧ k - at0 < bs.length then bs[k - at0]'h.2 else buf[k] := by
  simp only [writeBytes, Vector.getElem_ofFn]
  by_cases h1 : at0 ≤ k
  · by_cases h2 : k - at0 < bs.length
    · simp [h1, h2]
    · simp [h1, h2]
  · simp [h1]

/-- LEN after an append that fits, as a number. -/
theorem len_add_toNat (l : BitVec 7) (n : Nat) (h : l.toNat + n ≤ 64) : (l + BitVec.ofNat 7 n).toNat = l.toNat + n := by
  simp only [BitVec.toNat_add, BitVec.toNat_ofNat]; omega

/-- An append moves nothing but BUF and LEN, and LEN stays within the capacity. -/
theorem appendBytes_state (bs : List Byte) (s : State) :
    ∃ buf len, (appendBytes bs s).state = s.setBuf buf len ∧ (s.len.toNat ≤ 64 → len.toNat ≤ 64) := by
  by_cases h : s.len.toNat + bs.length ≤ 64
  · refine ⟨_, _, by rw [appendBytes_of_fits bs s h]; rfl, fun _ => ?_⟩
    rw [len_add_toNat _ _ h]; exact h
  · refine ⟨s.buf, s.len, by rw [appendBytes_of_over bs s (by omega)]; rfl, id⟩

theorem appendByte_state (b : Byte) (s : State) :
    ∃ buf len, (appendByte b s).state = s.setBuf buf len ∧ (s.len.toNat ≤ 64 → len.toNat ≤ 64) := by
  by_cases h : s.len.toNat < 64
  · refine ⟨_, _, by rw [appendByte_of_lt b s h]; rfl, fun _ => ?_⟩
    have := len_add_toNat s.len 1 (by omega)
    simp only [BitVec.ofNat_eq_ofNat] at this ⊢
    omega
  · exact ⟨s.buf, s.len, by rw [appendByte_of_ge b s (by omega)]; rfl, id⟩

/-- One byte appended alone or as a sequence of one: the same (`40_buffer.md` R101), when LEN is legal. -/
theorem set_eq_writeBytes (buf : Vector Byte 64) (k : Nat) (b : Byte) (h : k < 64) :
    buf.set k b h = writeBytes buf k [b] := by
  refine Vector.ext fun i hi => ?_
  rw [writeBytes_getElem, Vector.getElem_set]
  by_cases hk : k = i
  · subst hk; simp
  · have : ¬ (k ≤ i ∧ i - k < [b].length) := by simp; omega
    rw [dif_neg this]; simp [hk]

end Sys2Proof.Machine
end

