-- ==== Sys2Proof/Laws/Content.lean ====
section
/-! SUPPORT. The buffer's content as a byte list, and what the appends do to it. -/

namespace Sys2Proof.Machine

@[simp] theorem length_content (s : State) (h : s.len.toNat ≤ 64) : s.content.length = s.len.toNat := by
  simp [State.content]; omega

/-- Two writes one after the other are one write of both. -/
theorem writeBytes_append (buf : Vector Byte 64) (a : Nat) (xs ys : List Byte) :
    writeBytes (writeBytes buf a xs) (a + xs.length) ys = writeBytes buf a (xs ++ ys) := by
  refine Vector.ext fun i hi => ?_
  simp only [writeBytes_getElem, List.length_append, List.getElem_append]
  by_cases h1 : a + xs.length ≤ i
  · have e : i - a - xs.length = i - (a + xs.length) := by omega
    by_cases h2 : i - (a + xs.length) < ys.length
    · have : a ≤ i ∧ i - a < xs.length + ys.length := by omega
      have h3 : ¬ (i - a < xs.length) := by omega
      simp [h1, h2, this, h3, e]
    · have : ¬ (a ≤ i ∧ i - a < xs.length + ys.length) := by omega
      have h3 : ¬ (a ≤ i ∧ i - a < xs.length) := by omega
      simp [h2, this, h3]
  · by_cases h2 : a ≤ i ∧ i - a < xs.length
    · have : a ≤ i ∧ i - a < xs.length + ys.length := by omega
      simp [h1, h2, this]
    · have : ¬ (a ≤ i ∧ i - a < xs.length + ys.length) := by omega
      simp [h1, h2, this]

theorem writeBytes_nil (buf : Vector Byte 64) (a : Nat) : writeBytes buf a [] = buf := by
  refine Vector.ext fun i hi => ?_
  simp [writeBytes_getElem]

/-- The first bytes of a written buffer: the old ones, then the written ones. -/
theorem take_writeBytes (buf : Vector Byte 64) (a : Nat) (bs : List Byte) (h : a + bs.length ≤ 64) :
    (writeBytes buf a bs).toList.take (a + bs.length) = buf.toList.take a ++ bs := by
  apply List.ext_getElem
  · simp; omega
  · intro i h1 h2
    have hi : i < 64 := by simp at h1; omega
    have hla : (buf.toList.take a).length = a := by simp; omega
    simp only [List.getElem_take, Vector.getElem_toList, writeBytes_getElem, List.getElem_append, hla]
    by_cases h3 : a ≤ i
    · have h4 : a ≤ i ∧ i - a < bs.length := by simp at h1; omega
      have h5 : ¬ i < a := by omega
      simp [h4, h5]
    · have h5 : i < a := by omega
      simp [h3, h5]

/-- THE SPEC OF A MULTI-BYTE APPEND THAT FITS: the content grows by the bytes, and nothing but BUF and LEN moves. -/
theorem appendBytes_content (bs : List Byte) (s : State) (h : s.content.length + bs.length ≤ 64)
    (hs : s.len.toNat ≤ 64) :
    ∃ buf len, appendBytes bs s = .ok (s.setBuf buf len) ∧
      len.toNat ≤ 64 ∧ (s.setBuf buf len).content = s.content ++ bs := by
  rw [length_content s hs] at h
  refine ⟨_, _, appendBytes_of_fits bs s h, ?_, ?_⟩
  · rw [len_add_toNat _ _ h]; exact h
  · simp only [State.content, setBuf_buf, setBuf_len, len_add_toNat _ _ h]
    exact take_writeBytes _ _ _ h

/-- A byte append is a sequence append of one, when LEN is legal (`40_buffer.md` R101). -/
theorem appendByte_eq_appendBytes (b : Byte) (s : State) (hs : s.len.toNat ≤ 64) :
    appendByte b s = appendBytes [b] s := by
  by_cases h : s.len.toNat < 64
  · rw [appendByte_of_lt b s h, appendBytes_of_fits [b] s (by simp; omega), set_eq_writeBytes]
    rfl
  · rw [appendByte_of_ge b s (by omega), appendBytes_of_over [b] s (by simp; omega)]

@[simp] theorem content_draw (s : State) (n : Nat) : (s.draw n).content = s.content := rfl

/-- What BCLR leaves: an empty content. -/
@[simp] theorem content_empty (s : State) (buf : Vector Byte 64) : (s.setBuf buf 0).content = [] := by
  simp [State.content]

theorem length_sourceBytes_le (sel : BapsSource) (s : State) : (sourceBytes sel s).length ≤ 16 := by
  cases sel <;> simp [sourceBytes, markerRom]

/-- A source that fits is appended to the content (`40_buffer.md` R104). -/
theorem baps_content (sel : BapsSource) (s : State) (h : s.content.length + (sourceBytes sel s).length ≤ 64)
    (hs : s.len.toNat ≤ 64) :
    ∃ buf len, baps sel s = .ok (s.setBuf buf len) ∧
      len.toNat ≤ 64 ∧ (s.setBuf buf len).content = s.content ++ sourceBytes sel s :=
  appendBytes_content _ s h hs

end Sys2Proof.Machine
end

