-- ==== Sys2Proof/Laws/Enc.lean ====
section
/-! SUPPORT. What the encoder's commands do, said once, and that ENC is `encodeText` of the selected digest. -/

namespace Sys2Proof.Machine

/-- The permuted digest read the other way, PERM[k] = src[SRC[k]] (`43_encoder.md` R201). -/
def permuted (d : Digest) : Digest :=
  #v[d[12], d[6], d[0], d[13], d[7], d[1], d[14], d[8], d[2], d[15], d[9], d[3], d[5], d[10], d[4], d[11]]

/-- The sixteen writes reach every cell, so the old PERM does not matter (`10_state.md` R37). -/
theorem permute_eq (d p : Digest) : permute d p = permuted d := by
  have hl : List.finRange 16 = [0, 1, 2, 3, 4, 5, 6, 7, 8, 9, 10, 11, 12, 13, 14, 15] := by decide
  refine Vector.ext fun i hi => ?_
  rw [permute, hl]
  simp only [List.foldl_cons, List.foldl_nil, Vector.getElem_set]
  interval_cases i <;> rfl

/-- The bits of three bytes side by side. -/
theorem getLsbD_group (x y z : Byte) (k : Nat) :
    (z ++ y ++ x : BitVec (8 + 8 + 8)).getLsbD k =
      if k < 8 then x.getLsbD k else if k < 16 then y.getLsbD (k - 8) else z.getLsbD (k - 16) := by
  rw [BitVec.getLsbD_append, BitVec.getLsbD_append]
  by_cases h1 : k < 8
  · simp [h1]
  · by_cases h2 : k < 16
    · simp [h1, h2, show k - 8 < 8 by omega]
    · simp [h1, h2, show ¬ k - 8 < 8 by omega, show k - 8 - 8 = k - 16 by omega]

/-- A full group's codes are the four six-bit pieces of its 24-bit number (`43_encoder.md` R202). -/
theorem packGroup_getElem (x y z : Byte) (j : Nat) (hj : j < 4) :
    (packGroup x y z)[j] = (z ++ y ++ x : BitVec (8 + 8 + 8)).extractLsb' (6 * j) 6 := by
  refine BitVec.eq_of_getLsbD_eq fun i hi => ?_
  rw [BitVec.getLsbD_extractLsb', getLsbD_group]
  interval_cases j <;> interval_cases i <;> simp [packGroup]

/-- The last group's codes (`43_encoder.md` R202). -/
theorem packLast_getElem (x : Byte) (j : Nat) (hj : j < 2) : (packLast x)[j] = x.extractLsb' (6 * j) 6 := by
  refine BitVec.eq_of_getLsbD_eq fun i hi => ?_
  rw [BitVec.getLsbD_extractLsb']
  interval_cases j <;> interval_cases i <;> simp [packLast]

/-- Three bytes side by side, as a number. -/
theorem toNat_group (x y z : Byte) :
    (z ++ y ++ x : BitVec (8 + 8 + 8)).toNat = x.toNat + 2 ^ 8 * y.toNat + 2 ^ 16 * z.toNat := by
  have hx := x.isLt
  have hy := y.isLt
  rw [BitVec.toNat_append, ← Nat.shiftLeft_add_eq_or_of_lt hx, BitVec.toNat_append,
    ← Nat.shiftLeft_add_eq_or_of_lt hy]
  simp only [Nat.shiftLeft_eq]
  omega

/-- ALPHA by ranges is the alphabet's string (`10_state.md` R38). -/
theorem alphaRom_eq (c : Code) : alphaRom c = alphabetByte c.toNat := by
  revert c; decide

/-- The characters of a full group (`43_encoder.md` R204). -/
theorem alphaRom_packGroup (x y z : Byte) (j : Nat) (hj : j < 4) :
    alphaRom (packGroup x y z)[j] = alphabetByte ((x.toNat + 2 ^ 8 * y.toNat + 2 ^ 16 * z.toNat) / 2 ^ (6 * j) % 64) := by
  rw [alphaRom_eq, packGroup_getElem _ _ _ _ hj, BitVec.extractLsb'_toNat, toNat_group, Nat.shiftRight_eq_div_pow]

/-- The characters of the last group (`43_encoder.md` R204). -/
theorem alphaRom_packLast (x : Byte) (j : Nat) (hj : j < 2) :
    alphaRom (packLast x)[j] = alphabetByte (x.toNat / 2 ^ (6 * j) % 64) := by
  rw [alphaRom_eq, packLast_getElem _ _ hj, BitVec.extractLsb'_toNat, Nat.shiftRight_eq_div_pow]

/-- The group numbers in terms of the permuted digest (`43_encoder.md` R204). -/
theorem groupNumber_eq (d : Digest) (t : Nat) (h : t < 5) :
    groupNumber d t = ((permuted d)[3 * t]'(by omega)).toNat + 2 ^ 8 * ((permuted d)[3 * t + 1]'(by omega)).toNat
      + 2 ^ 16 * ((permuted d)[3 * t + 2]'(by omega)).toNat := by
  interval_cases t <;> rfl

/-- The 22 characters of a permuted digest are `encodeText` (`43_encoder.md` R204). -/
theorem map_packCodes (d : Digest) : (packCodes (permuted d)).map alphaRom = encodeText d := by
  refine Vector.ext fun k hk => ?_
  rw [Vector.getElem_map, encodeText, packCodes, Vector.getElem_ofFn, Vector.getElem_ofFn, packedCode]
  by_cases h : k < 20
  · rw [dif_pos h, alphaRom_packGroup, groupNumber_eq _ _ (by simp only; omega)]
  · rw [dif_neg h, alphaRom_packLast _ _ (by omega), show k / 4 = 5 by omega, show k % 4 = k - 20 by omega]; rfl

/-- The state ENC leaves: PERM, CODE and OUT written, nothing else. -/
def State.encoded (s : State) (q : DigestSource) : State :=
  ((s.setPerm (permuted (digestOf q s))).setCode (packCodes (permuted (digestOf q s)))).setOut (encodeText (digestOf q s))

theorem eprm_eq (q : DigestSource) (s : State) : eprm q s = .ok (s.setPerm (permuted (digestOf q s))) := by
  rw [eprm, permute_eq]

/-- THE SPEC OF ENC (`43_encoder.md` R204). -/
theorem enc_eq (q : DigestSource) (s : State) : enc q s = .ok (s.encoded q) := by
  rw [enc, run_cons, eprm_eq, andThen_ok, run_cons, epak, andThen_ok, run_cons, emap, andThen_ok, run_nil, setCode_code,
    setPerm_perm, map_packCodes, State.encoded]

end Sys2Proof.Machine
end

