-- ==== Sys2Proof/Laws/Encoding.lean ====
section
/-! SUPPORT. A word and its three fields, both ways (`30_encoding.md` R70). -/

namespace Sys2Proof

/-- The bits of a packed word, by field. -/
theorem getLsbD_packWord (op fn : BitVec 4) (imm : Byte) (k : Nat) :
    (packWord op fn imm).getLsbD k =
      if k < 8 then imm.getLsbD k else if k < 12 then fn.getLsbD (k - 8) else op.getLsbD (k - 12) := by
  unfold packWord
  rw [BitVec.getLsbD_append, BitVec.getLsbD_append]
  by_cases h1 : k < 8
  · simp [h1]
  · by_cases h2 : k < 12
    · simp [h1, h2, show k - 8 < 4 by omega]
    · simp [h1, h2, show ¬ k - 8 < 4 by omega, show k - 8 - 4 = k - 12 by omega]

theorem opField_packWord (op fn : BitVec 4) (imm : Byte) : opField (packWord op fn imm) = op := by
  refine BitVec.eq_of_getLsbD_eq fun k hk => ?_
  rw [opField, BitVec.getLsbD_extractLsb', getLsbD_packWord]
  simp [hk, show ¬ 12 + k < 8 by omega]

theorem fnField_packWord (op fn : BitVec 4) (imm : Byte) : fnField (packWord op fn imm) = fn := by
  refine BitVec.eq_of_getLsbD_eq fun k hk => ?_
  rw [fnField, BitVec.getLsbD_extractLsb', getLsbD_packWord]
  simp [hk, show 8 + k < 12 by omega]

theorem immField_packWord (op fn : BitVec 4) (imm : Byte) : immField (packWord op fn imm) = imm := by
  refine BitVec.eq_of_getLsbD_eq fun k hk => ?_
  rw [immField, BitVec.getLsbD_extractLsb', getLsbD_packWord]
  simp [hk]

/-- A word is its three fields. -/
theorem packWord_fields (cw : CmdWord) : packWord (opField cw) (fnField cw) (immField cw) = cw := by
  refine BitVec.eq_of_getLsbD_eq fun k hk => ?_
  rw [getLsbD_packWord, opField, fnField, immField, BitVec.getLsbD_extractLsb', BitVec.getLsbD_extractLsb',
    BitVec.getLsbD_extractLsb']
  by_cases h1 : k < 8
  · simp [h1]
  · by_cases h2 : k < 12
    · simp [h1, h2, show k - 8 < 4 by omega, show 8 + (k - 8) = k by omega]
    · simp [h1, h2, show k - 12 < 4 by omega, show 12 + (k - 12) = k by omega]

/-- A word as a number. -/
theorem packWord_toNat (op fn : BitVec 4) (imm : Byte) :
    (packWord op fn imm).toNat = op.toNat * 4096 + fn.toNat * 256 + imm.toNat := by
  unfold packWord
  have hi := imm.isLt
  have hf := fn.isLt
  rw [BitVec.toNat_append, ← Nat.shiftLeft_add_eq_or_of_lt hi, BitVec.toNat_append, ← Nat.shiftLeft_add_eq_or_of_lt hf]
  simp only [Nat.shiftLeft_eq]; omega

/-- Masking is by field. -/
theorem packWord_and (op fn : BitVec 4) (imm : Byte) (op' fn' : BitVec 4) (imm' : Byte) :
    packWord op fn imm &&& packWord op' fn' imm' = packWord (op &&& op') (fn &&& fn') (imm &&& imm') := by
  refine BitVec.eq_of_getLsbD_eq fun k hk => ?_
  simp only [getLsbD_packWord, BitVec.getLsbD_and]
  split_ifs <;> rfl

theorem packWord_inj {op fn : BitVec 4} {imm : Byte} {op' fn' : BitVec 4} {imm' : Byte} :
    packWord op fn imm = packWord op' fn' imm' ↔ op = op' ∧ fn = fn' ∧ imm = imm' := by
  constructor
  · intro h
    refine ⟨?_, ?_, ?_⟩
    · simpa [opField_packWord] using congrArg opField h
    · simpa [fnField_packWord] using congrArg fnField h
    · simpa [immField_packWord] using congrArg immField h
  · rintro ⟨rfl, rfl, rfl⟩; rfl

/-- Every command the decoder gives is well-formed (`30_encoding.md` R73, R76). -/
theorem decode_wellFormed {cw : CmdWord} {i : Instr} (h : decode cw = .instr i) : i.wellFormed = true := by
  unfold decode at h
  split at h
  · unfold decodeBuf formatN formatS at h
    split at h <;> (try split at h) <;> (try split at h) <;> cases h <;> rfl
  · unfold decodeMd5 formatN formatR at h
    split at h <;> (try split at h) <;> cases h <;> rfl
  · split at h
    · cases h; simpa [Instr.wellFormed]
    · cases h
  · split at h
    · cases h; simpa [Instr.wellFormed]
    · cases h
  · cases h; rfl
  · unfold decodePwh formatN formatL formatQ at h
    split at h <;> (try split at h) <;> cases h <;> rfl
  · unfold decodeEnc formatN formatQ at h
    split at h <;> (try split at h) <;> cases h <;> rfl
  · cases h

end Sys2Proof
end

