-- ==== Sys2Proof/Laws/Md5.lean ====
section
/-! SUPPORT. What each MD5 command does, said once, and that MD5H is `md5` of the content. -/

namespace Sys2Proof.Machine

theorem setBuf_self (s : State) (l : BitVec 7) (h : s.len = l) : s.setBuf s.buf l = s := by
  subst h; rfl

theorem setBuf_setBuf (s : State) (b1 b2 : Vector Byte 64) (l1 l2 : BitVec 7) :
    (s.setBuf b1 l1).setBuf b2 l2 = s.setBuf b2 l2 := rfl

/-- The zero fill past 56 appends nothing (`41_md5.md` R121). -/
theorem padZeros_of_ge (n : Nat) (s : State) (h : 56 ≤ s.len.toNat) : padZeros n s = .ok s := by
  cases n with
  | zero => rfl
  | succ n => simp [padZeros, padTo, Nat.not_lt.mpr h]

/-- The zero fill when LEN is at most 56: it reaches 56 exactly (`41_md5.md` R121). -/
theorem padZeros_of_le (n : Nat) (s : State) (h : s.len.toNat ≤ 56) (hn : 56 ≤ s.len.toNat + n) :
    padZeros n s =
      .ok (s.setBuf (writeBytes s.buf s.len.toNat (List.replicate (56 - s.len.toNat) 0x00)) 56) := by
  induction n generalizing s with
  | zero =>
    have e : s.len.toNat = 56 := by omega
    have e' : s.len = 56 := BitVec.eq_of_toNat_eq (by simpa using e)
    rw [padZeros, e, Nat.sub_self, List.replicate_zero, writeBytes_nil, setBuf_self s 56 e']
  | succ n ih =>
    by_cases h56 : s.len.toNat < 56
    · have hl : (s.len + 1).toNat = s.len.toNat + 1 := by
        simpa using len_add_toNat s.len 1 (by omega)
      have hr : List.replicate (56 - s.len.toNat) (0x00 : Byte)
          = [0x00] ++ List.replicate (56 - (s.len.toNat + 1)) 0x00 := by
        rw [show 56 - s.len.toNat = (56 - (s.len.toNat + 1)) + 1 by omega, List.replicate_succ]; rfl
      have hw := writeBytes_append s.buf s.len.toNat [0x00] (List.replicate (56 - (s.len.toNat + 1)) 0x00)
      rw [List.length_singleton] at hw
      rw [padZeros, padTo, if_pos h56, appendByte_of_lt _ _ (by omega), andThen_ok,
        ih _ (by rw [setBuf_len, hl]; omega) (by rw [setBuf_len, hl]; omega), setBuf_setBuf, setBuf_len, hl, setBuf_buf,
        set_eq_writeBytes, hw, ← hr]
    · have e : s.len.toNat = 56 := by omega
      have e' : s.len = 56 := BitVec.eq_of_toNat_eq (by simpa using e)
      rw [padZeros_of_ge _ _ (by omega), e, Nat.sub_self, List.replicate_zero, writeBytes_nil, setBuf_self s 56 e']

@[simp] theorem length_le64 (v : BitVec 64) : (le64 v).length = 8 := by simp [le64]

/-- The bits of LEN as the length field: LB = 8 L (`41_md5.md` R121). -/
theorem lengthBits (l : BitVec 7) : l.setWidth 64 * 8 = BitVec.ofNat 64 (8 * l.toNat) := by
  apply BitVec.eq_of_toNat_eq
  have := l.isLt
  have e : (l.setWidth 64).toNat = l.toNat := by simp; omega
  rw [BitVec.toNat_mul, e, BitVec.toNat_ofNat, show (8 : BitVec 64).toNat = 8 from rfl, Nat.mul_comm]

/-- The bytes MPAD appends to `n` message bytes. -/
def padBytes (n : Nat) : List Byte :=
  [0x80] ++ List.replicate (55 - n) 0x00 ++ le64 (BitVec.ofNat 64 (8 * n))

theorem length_padBytes (n : Nat) (h : n ≤ 55) : (padBytes n).length = 64 - n := by
  simp [padBytes]; omega

theorem padMessage_eq (msg : List Byte) : padMessage msg = msg ++ padBytes msg.length := by
  simp [padMessage, padBytes]

/-- The three appends of MPAD are one write. -/
theorem writeBytes_pad (buf : Vector Byte 64) (n : Nat) (h : n ≤ 55) :
    writeBytes (writeBytes (writeBytes buf n [0x80]) (n + 1) (List.replicate (56 - (n + 1)) 0x00)) 56
      (le64 (BitVec.ofNat 64 (8 * n))) = writeBytes buf n (padBytes n) := by
  have h1 := writeBytes_append buf n [0x80] (List.replicate (56 - (n + 1)) 0x00)
  have h2 := writeBytes_append buf n ([0x80] ++ List.replicate (56 - (n + 1)) 0x00) (le64 (BitVec.ofNat 64 (8 * n)))
  rw [List.length_singleton] at h1
  rw [List.length_append, List.length_singleton, List.length_replicate, show n + (1 + (56 - (n + 1))) = 56 by omega] at h2
  rw [h1, h2, padBytes, show 56 - (n + 1) = 55 - n by omega]

/-- MPAD on at most 55 bytes (`41_md5.md` R121, R130). -/
theorem mpad_of_le (s : State) (h : s.len.toNat ≤ 55) :
    mpad s = .ok (s.setBuf (writeBytes s.buf s.len.toNat (padBytes s.len.toNat)) 64) := by
  have hl : (s.len + 1).toNat = s.len.toNat + 1 := by simpa using len_add_toNat s.len 1 (by omega)
  rw [mpad, run_cons, appendByte_of_lt _ _ (by omega), andThen_ok, run_cons,
    padZeros_of_le _ _ (by rw [setBuf_len, hl]; omega) (by rw [setBuf_len, padTo]; omega), andThen_ok, run_cons,
    setBuf_setBuf, appendBytes_of_fits _ _ (by rw [length_le64, setBuf_len]; decide), andThen_ok, run_nil,
    setBuf_setBuf, setBuf_len, setBuf_len, setBuf_buf, setBuf_buf, hl, length_le64, lengthBits, set_eq_writeBytes,
    show (56 : BitVec 7).toNat = 56 from rfl, writeBytes_pad _ _ h, show (56 : BitVec 7) + BitVec.ofNat 7 8 = 64 from rfl]

/-- MPAD on 56 to 63 bytes: the 0x80 byte stays appended, the length append raises (`41_md5.md` R121). -/
theorem mpad_of_mid (s : State) (h1 : 56 ≤ s.len.toNat) (h2 : s.len.toNat < 64) :
    mpad s = .raised (s.setBuf (s.buf.set s.len.toNat 0x80 h2) (s.len + 1)) := by
  have hl : (s.len + 1).toNat = s.len.toNat + 1 := by simpa using len_add_toNat s.len 1 (by omega)
  rw [mpad, run_cons, appendByte_of_lt _ _ h2, andThen_ok, run_cons,
    padZeros_of_ge _ _ (by rw [setBuf_len, hl]; omega), andThen_ok, run_cons,
    appendBytes_of_over _ _ (by rw [setBuf_len, length_le64, hl]; omega), andThen_raised]

/-- MPAD on a full buffer raises at once (`41_md5.md` R121). -/
theorem mpad_of_full (s : State) (h : 64 ≤ s.len.toNat) : mpad s = .raised s := by
  simp only [mpad, run_cons]
  rw [appendByte_of_ge _ _ h, andThen_raised]

/-- The padded content is `padMessage` of the message. -/
theorem content_padded (s : State) (h : s.len.toNat ≤ 55) :
    (s.setBuf (writeBytes s.buf s.len.toNat (padBytes s.len.toNat)) 64).content
      = padMessage s.content := by
  have hl := length_padBytes _ h
  rw [padMessage_eq, length_content s (by omega)]
  simp only [State.content, setBuf_buf, setBuf_len]
  have := take_writeBytes s.buf s.len.toNat (padBytes s.len.toNat) (by omega)
  rw [hl] at this
  rw [← this]
  congr 1
  simp; omega

/-- MUNP on a full buffer: the sixteen words of the content, no free value drawn (`41_md5.md` R122). -/
theorem munp_of_full (s : State) (h : s.len.toNat = 64) : munp s = .ok (s.setM (messageWords s.content)) := by
  have hm : (Vector.ofFn fun i : Fin 16 => unpackedWord s i) = messageWords s.content := by
    refine Vector.ext fun i hi => ?_
    have hc : s.content = s.buf.toList := by simp [State.content, h]
    have hle : 4 * i + 4 ≤ s.len.toNat := by omega
    simp [messageWords, unpackedWord, bufWord, hle, hc, show 4 * i < 64 by omega,
      show 4 * i + 1 < 64 by omega, show 4 * i + 2 < 64 by omega, show 4 * i + 3 < 64 by omega]
  rw [munp, hm, if_neg (by rw [h, cap]; decide), draw_zero]

/-- The registers of a state as the tuple the round function works on. -/
def State.regs (s : State) : Word × Word × Word × Word := (s.a, s.b, s.c, s.d)

/-- The registers written from a tuple. -/
def State.setTuple (s : State) (r : Word × Word × Word × Word) : State := s.setRegs r.1 r.2.1 r.2.2.1 r.2.2.2

@[simp] theorem setTuple_regs (s : State) (r : Word × Word × Word × Word) : (s.setTuple r).regs = r := rfl
@[simp] theorem setTuple_m (s : State) (r : Word × Word × Word × Word) : (s.setTuple r).m = s.m := rfl
@[simp] theorem setTuple_setTuple (s : State) (r r' : Word × Word × Word × Word) :
    (s.setTuple r).setTuple r' = s.setTuple r' := rfl
@[simp] theorem setDig_regs (s : State) (d : Digest) : (s.setDig d).regs = s.regs := rfl
@[simp] theorem setTuple_self (s : State) : s.setTuple s.regs = s := rfl

theorem mrnd_eq (i : Nat) (s : State) :
    mrnd (BitVec.ofNat 6 i) s = .ok (s.setTuple (roundRegs s.m s.regs i)) := rfl

/-- Any list of rounds is the fold of the round function over the registers (`41_md5.md` R132). -/
theorem run_rounds (l : List Nat) (s : State) :
    run (l.map fun i => mrnd (BitVec.ofNat 6 i)) s = .ok (s.setTuple (l.foldl (roundRegs s.m) s.regs)) := by
  induction l generalizing s with
  | nil => rfl
  | cons i l ih =>
    rw [List.map_cons, run_cons, mrnd_eq, andThen_ok, ih, List.foldl_cons, setTuple_m, setTuple_regs, setTuple_setTuple]

theorem mini_eq (s : State) : mini s = .ok (s.setTuple (initK[0], initK[1], initK[2], initK[3])) := rfl

/-- MFIN's digest from the register tuple. -/
def digestOfRegs (r : Word × Word × Word × Word) : Digest := digestOfWords #v[r.1, r.2.1, r.2.2.1, r.2.2.2]

theorem mfin_eq (s : State) : mfin s = .ok (s.setDig (digestOfRegs s.regs)) := rfl

theorem md5_eq (msg : List Byte) : md5 msg = digestOfRegs (compress (messageWords (padMessage msg))) := rfl

/-- The state MD5H leaves on a legal message: BUF padded, LEN = 64, M, A to D and DIG written, nothing else. -/
def State.hashed (s : State) : State :=
  (((s.setBuf (writeBytes s.buf s.len.toNat (padBytes s.len.toNat)) 64).setM
    (messageWords (padMessage s.content))).setTuple (compress (messageWords (padMessage s.content)))).setDig
    (md5 s.content)

@[simp] theorem hashed_alt (s : State) : s.hashed.alt = s.alt := by
  rw [State.hashed, setDig_alt, State.setTuple, setRegs_alt, setM_alt, setBuf_alt]
@[simp] theorem hashed_int (s : State) : s.hashed.int = s.int := by
  rw [State.hashed, setDig_int, State.setTuple, setRegs_int, setM_int, setBuf_int]
@[simp] theorem hashed_pw (s : State) : s.hashed.pw = s.pw := by
  rw [State.hashed, setDig_pw, State.setTuple, setRegs_pw, setM_pw, setBuf_pw]
@[simp] theorem hashed_pwlen (s : State) : s.hashed.pwlen = s.pwlen := by
  rw [State.hashed, setDig_pwlen, State.setTuple, setRegs_pwlen, setM_pwlen, setBuf_pwlen]
@[simp] theorem hashed_salt (s : State) : s.hashed.salt = s.salt := by
  rw [State.hashed, setDig_salt, State.setTuple, setRegs_salt, setM_salt, setBuf_salt]
@[simp] theorem hashed_inum (s : State) : s.hashed.inum = s.inum := by
  rw [State.hashed, setDig_inum, State.setTuple, setRegs_inum, setM_inum, setBuf_inum]
@[simp] theorem hashed_perm (s : State) : s.hashed.perm = s.perm := by
  rw [State.hashed, setDig_perm, State.setTuple, setRegs_perm, setM_perm, setBuf_perm]
@[simp] theorem hashed_code (s : State) : s.hashed.code = s.code := by
  rw [State.hashed, setDig_code, State.setTuple, setRegs_code, setM_code, setBuf_code]
@[simp] theorem hashed_out (s : State) : s.hashed.out = s.out := by
  rw [State.hashed, setDig_out, State.setTuple, setRegs_out, setM_out, setBuf_out]
@[simp] theorem hashed_busy (s : State) : s.hashed.busy = s.busy := by
  rw [State.hashed, setDig_busy, State.setTuple, setRegs_busy, setM_busy, setBuf_busy]
@[simp] theorem hashed_fault (s : State) : s.hashed.fault = s.fault := by
  rw [State.hashed, setDig_fault, State.setTuple, setRegs_fault, setM_fault, setBuf_fault]
@[simp] theorem hashed_fcause (s : State) : s.hashed.fcause = s.fcause := by
  rw [State.hashed, setDig_fcause, State.setTuple, setRegs_fcause, setM_fcause, setBuf_fcause]
@[simp] theorem hashed_rst (s : State) : s.hashed.rst = s.rst := by
  rw [State.hashed, setDig_rst, State.setTuple, setRegs_rst, setM_rst, setBuf_rst]
@[simp] theorem hashed_host (s : State) : s.hashed.host = s.host := by
  rw [State.hashed, setDig_host, State.setTuple, setRegs_host, setM_host, setBuf_host]
@[simp] theorem hashed_freeCtr (s : State) : s.hashed.freeCtr = s.freeCtr := by
  rw [State.hashed, setDig_freeCtr, State.setTuple, setRegs_freeCtr, setM_freeCtr, setBuf_freeCtr]
@[simp] theorem hashed_len (s : State) : s.hashed.len = 64 := by
  rw [State.hashed, setDig_len, State.setTuple, setRegs_len, setM_len, setBuf_len]
@[simp] theorem hashed_dig (s : State) : s.hashed.dig = md5 s.content := by
  rw [State.hashed, setDig_dig]
@[simp] theorem hashed_buf (s : State) : s.hashed.buf = writeBytes s.buf s.len.toNat (padBytes s.len.toNat) := by
  rw [State.hashed, setDig_buf, State.setTuple, setRegs_buf, setM_buf, setBuf_buf]
@[simp] theorem hashed_m (s : State) : s.hashed.m = messageWords (padMessage s.content) := by
  rw [State.hashed, setDig_m, State.setTuple, setRegs_m, setM_m]
@[simp] theorem hashed_regs (s : State) : s.hashed.regs = compress (messageWords (padMessage s.content)) := by
  rw [State.hashed, setDig_regs, setTuple_regs]

/-- THE SPEC OF MD5H on at most 55 bytes: DIG is `md5` of the content, the block stays padded in BUF, and only BUF, LEN, M,
A to D and DIG move (`41_md5.md` R129, R131). -/
theorem md5h_of_le (s : State) (h : s.len.toNat ≤ 55) : md5h s = .ok s.hashed := by
  rw [md5h, run_append, run_append, run_cons, mpad_of_le s h, andThen_ok, run_cons, munp_of_full _ (by simp), andThen_ok,
    content_padded s h, run_cons, mini_eq, andThen_ok, run_nil, andThen_ok, rounds, run_rounds, andThen_ok, setTuple_setTuple,
    setTuple_m, setM_m, setTuple_regs, run_cons, mfin_eq, andThen_ok, run_nil, setTuple_regs, State.hashed, md5_eq, compress,
    nRound]

/-- MD5H past 55 bytes raises in MPAD, and nothing after it runs (`41_md5.md` R129, R130). -/
theorem md5h_of_gt (s : State) (h : 56 ≤ s.len.toNat) : ∃ t, mpad s = .raised t ∧ md5h s = .raised t := by
  by_cases h2 : s.len.toNat < 64
  · refine ⟨_, mpad_of_mid s h h2, ?_⟩
    simp only [md5h, run_append, run_cons, mpad_of_mid s h h2, andThen_raised]
  · refine ⟨_, mpad_of_full s (by omega), ?_⟩
    simp only [md5h, run_append, run_cons, mpad_of_full s (by omega), andThen_raised]

/-- `rotl` is the rotation of a 32-bit word (`00_scope.md` R16, `41_md5.md` R126). -/
theorem rotl_eq (a : Word) (n : Nat) (h : n < 32) : rotl a n = a.rotateLeft n := by
  rw [rotl, BitVec.rotateLeft, Nat.mod_eq_of_lt h]; rfl

/-- A decoded word as a number (`20_memory.md` R51). -/
theorem wordOfBytes_toNat (b0 b1 b2 b3 : Byte) :
    (wordOfBytes b0 b1 b2 b3).toNat = b0.toNat + 2 ^ 8 * b1.toNat + 2 ^ 16 * b2.toNat + 2 ^ 24 * b3.toNat := by
  have e : wordOfBytes b0 b1 b2 b3 = (b3 ++ b2 ++ b1 ++ b0 : BitVec (8 + 8 + 8 + 8)) := by
    refine BitVec.eq_of_getLsbD_eq fun k hk => ?_
    simp only [wordOfBytes, BitVec.getLsbD_append, BitVec.getLsbD_or, BitVec.getLsbD_shiftLeft, BitVec.getLsbD_setWidth]
    interval_cases k <;> simp
  have h0 := b0.isLt
  have h1 := b1.isLt
  have h2 := b2.isLt
  have h3 := b3.isLt
  rw [e, BitVec.toNat_append, ← Nat.shiftLeft_add_eq_or_of_lt h0, BitVec.toNat_append,
    ← Nat.shiftLeft_add_eq_or_of_lt h1, BitVec.toNat_append, ← Nat.shiftLeft_add_eq_or_of_lt h2]
  simp only [Nat.shiftLeft_eq]; omega

/-- A serialised byte as a number (`00_scope.md` R17). -/
theorem le32Byte_toNat (v : Word) (k : Nat) : (le32Byte v k).toNat = v.toNat / 2 ^ (8 * k) % 256 := by
  rw [le32Byte, BitVec.extractLsb'_toNat, Nat.shiftRight_eq_div_pow]

/-- Byte `k` of register `q`'s sum in the digest (`41_md5.md` R128). -/
theorem digestOfWords_getElem (w : Vector Word 4) (j q k : Nat) (hq : q < 4) (hk : k < 4) (h : j = 4 * q + k) :
    (digestOfWords w)[j]'(by omega) = le32Byte (w[q] + initK[q]) k := by
  have e1 : j / 4 = q := by omega
  have e2 : j % 4 = k := by omega
  rw [digestOfWords, Vector.getElem_ofFn]
  simp only [e1, e2]

end Sys2Proof.Machine
end

