-- ==== Sys2Proof/Laws/Pwh.lean ====
section
/-! SUPPORT. What the stage macros do, said once: the message each builds, and the digest it leaves. -/

namespace Sys2Proof.Machine

/-- What a chain of appends does to a state `s` with content `c`: the new state differs from `s` in BUF and LEN alone, LEN
is legal, and the content is `c'`. -/
structure Appended (s t : State) (c' : List Byte) : Prop where
  same : ∃ buf len, t = s.setBuf buf len
  legal : t.len.toNat ≤ 64
  content : t.content = c'

theorem Appended.length {s t : State} {c : List Byte} (h : Appended s t c) : t.len.toNat = c.length := by
  rw [← length_content t h.legal, h.content]

/-- What the sources of BAPS read is not moved by an append. -/
@[simp] theorem sourceBytes_setBuf (sel : BapsSource) (s : State) (buf : Vector Byte 64) (len : BitVec 7) :
    sourceBytes sel (s.setBuf buf len) = sourceBytes sel s := rfl

/-- One BAPS in a chain of appends. -/
theorem Appended.baps {s t : State} {c : List Byte} (h : Appended s t c) (sel : BapsSource)
    (hfit : c.length + (sourceBytes sel s).length ≤ 64) :
    ∃ t', Machine.baps sel t = .ok t' ∧ Appended s t' (c ++ sourceBytes sel s) := by
  obtain ⟨⟨buf, len, rfl⟩, hl, hc⟩ := h
  obtain ⟨buf', len', e, hl', hc'⟩ := baps_content sel (s.setBuf buf len) (by rw [hc]; simpa using hfit) hl
  exact ⟨_, e, ⟨⟨buf', len', rfl⟩, hl', by rw [hc', hc]; simp⟩⟩

/-- One BAPB in a chain of appends. -/
theorem Appended.bapb {s t : State} {c : List Byte} (h : Appended s t c) (b : Byte) (hfit : c.length + 1 ≤ 64) :
    ∃ t', Machine.bapb b t = .ok t' ∧ Appended s t' (c ++ [b]) := by
  obtain ⟨⟨buf, len, rfl⟩, hl, hc⟩ := h
  obtain ⟨buf', len', e, hl', hc'⟩ := appendBytes_content [b] (s.setBuf buf len) (by rw [hc]; simpa using hfit) hl
  refine ⟨_, ?_, ⟨⟨buf', len', rfl⟩, hl', hc'.trans (by rw [hc])⟩⟩
  rw [Machine.bapb, appendByte_eq_appendBytes _ _ hl]; exact e

theorem bclr_eq (s : State) : bclr s = .ok ((s.draw 64).setBuf (freeBuf s.freeCtr) 0) := rfl

/-- BCLR starts a chain of appends with the empty content, on a state whose sources are the old ones. -/
theorem bclr_appended (s : State) : ∃ t, bclr s = .ok t ∧ Appended (s.draw 64) t [] := by
  refine ⟨_, bclr_eq s, ⟨⟨freeBuf s.freeCtr, 0, rfl⟩, ?_, content_empty _ _⟩⟩
  rw [setBuf_len]; decide

@[simp] theorem sourceBytes_draw (sel : BapsSource) (s : State) (n : Nat) :
    sourceBytes sel (s.draw n) = sourceBytes sel s := rfl

theorem length_password (s : State) : s.password.length = s.pwlen.toNat := by
  have := s.pwlen.isLt
  simp [State.password]; omega

theorem length_password_le (s : State) : s.password.length ≤ 15 := by
  have := s.pwlen.isLt
  rw [length_password]; omega

@[simp] theorem length_saltBytes (s : State) : s.saltBytes.length = 8 := by simp [State.saltBytes]

theorem sourceBytes_pw (s : State) : sourceBytes .pw s = s.password := rfl
theorem sourceBytes_salt (s : State) : sourceBytes .salt s = s.saltBytes := rfl
theorem sourceBytes_altp (s : State) : sourceBytes .altp s = s.alt.toList.take s.password.length := by
  rw [length_password]; rfl

/-- MD5H at the end of a chain of appends: the message's digest, and the frame. -/
theorem Appended.md5h {s t : State} {c : List Byte} (h : Appended s t c) (hc : c.length ≤ 55) :
    Machine.md5h t = .ok t.hashed ∧ t.hashed.dig = md5 c := by
  refine ⟨md5h_of_le t (by rw [h.length]; exact hc), ?_⟩
  rw [← h.content]; rfl

/-- The bytes a list of sources appends. -/
def sourcesBytes (sels : List BapsSource) (s : State) : List Byte := (sels.map fun sel => sourceBytes sel s).flatten

/-- A list of BAPS in a chain of appends. -/
theorem Appended.run_baps {s : State} (sels : List BapsSource) :
    ∀ {t : State} {c : List Byte}, Appended s t c → c.length + (sourcesBytes sels s).length ≤ 64 →
      ∃ t', run (sels.map Machine.baps) t = .ok t' ∧ Appended s t' (c ++ sourcesBytes sels s) := by
  induction sels with
  | nil => intro t c h _; exact ⟨t, rfl, by simpa [sourcesBytes] using h⟩
  | cons sel sels ih =>
    intro t c h hfit
    have hlen : (sourcesBytes (sel :: sels) s).length = (sourceBytes sel s).length + (sourcesBytes sels s).length := by
      simp [sourcesBytes]
    obtain ⟨t1, e1, h1⟩ := h.baps sel (by omega)
    obtain ⟨t2, e2, h2⟩ := ih h1 (by rw [List.length_append]; omega)
    refine ⟨t2, by rw [List.map_cons, run_cons, e1, andThen_ok, e2], ?_⟩
    simpa [sourcesBytes] using h2

/-- The bytes the bit loop appends from `n` on (`42_pwhash.md` R169). -/
def bitBytes (n : Nat) (p : Byte) : List Byte := (Nat.digits 2 n).map fun digit => if digit = 1 then 0x00 else p

/-- The bit loop in a chain of appends: one byte per binary digit of `n`, the lowest first. -/
theorem Appended.bitLoop {s : State} (fuel : Nat) :
    ∀ {t : State} {c : List Byte} (n : Nat), Appended s t c → n < 2 ^ fuel → c.length + fuel ≤ 64 →
      ∃ t', Machine.bitLoop fuel n t = .ok t' ∧ Appended s t' (c ++ bitBytes n s.pw[0]) := by
  induction fuel with
  | zero =>
    intro t c n h hn _
    have : n = 0 := by simpa using hn
    subst this
    exact ⟨t, rfl, by simpa [bitBytes] using h⟩
  | succ fuel ih =>
    intro t c n h hn hfit
    by_cases h0 : n = 0
    · subst h0
      exact ⟨t, rfl, by simpa [bitBytes] using h⟩
    have hdig : bitBytes n s.pw[0] = (if n % 2 = 1 then (0x00 : Byte) else s.pw[0]) :: bitBytes (n / 2) s.pw[0] := by
      rw [bitBytes, Nat.digits_def' (by decide) (by omega)]; simp [bitBytes]
    have hstep : ∃ t1, (if n % 2 = 0 then Machine.baps .pw0 t else Machine.bapb 0x00 t) = .ok t1 ∧
        Appended s t1 (c ++ [if n % 2 = 1 then (0x00 : Byte) else s.pw[0]]) := by
      by_cases he : n % 2 = 0
      · obtain ⟨t1, e1, h1⟩ := h.baps .pw0 (by simp [sourceBytes]; omega)
        exact ⟨t1, by rw [if_pos he, e1], by simpa [he, sourceBytes] using h1⟩
      · obtain ⟨t1, e1, h1⟩ := h.bapb 0x00 (by omega)
        exact ⟨t1, by rw [if_neg he, e1], by simpa [show n % 2 = 1 by omega] using h1⟩
    obtain ⟨t1, e1, h1⟩ := hstep
    obtain ⟨t2, e2, h2⟩ := ih (n / 2) h1 (by rw [Nat.pow_succ] at hn; omega) (by simp; omega)
    refine ⟨t2, ?_, by rw [hdig]; simpa using h2⟩
    rw [Machine.bitLoop, if_pos (by omega), e1, andThen_ok, e2]

/-- What the building and hashing of a message keeps: everything but BUF, LEN, M, A to D, DIG (and the draws). -/
structure KeptByHash (s t : State) : Prop where
  alt : t.alt = s.alt
  int : t.int = s.int
  pw : t.pw = s.pw
  pwlen : t.pwlen = s.pwlen
  salt : t.salt = s.salt
  inum : t.inum = s.inum
  perm : t.perm = s.perm
  code : t.code = s.code
  out : t.out = s.out
  busy : t.busy = s.busy
  fault : t.fault = s.fault
  fcause : t.fcause = s.fcause
  rst : t.rst = s.rst
  host : t.host = s.host

/-- A message built from an empty buffer on, then hashed: DIG, LEN, and what is kept. -/
theorem Appended.hashed {s t : State} {c : List Byte} {n : Nat} (h : Appended (s.draw n) t c) (hc : c.length ≤ 55) :
    Machine.md5h t = .ok t.hashed ∧ t.hashed.dig = md5 c ∧ t.hashed.len = 64 ∧ KeptByHash s t.hashed := by
  obtain ⟨e, hd⟩ := h.md5h hc
  obtain ⟨⟨buf, len, rfl⟩, -, -⟩ := h
  exact ⟨e, hd, hashed_len _, ⟨hashed_alt _, hashed_int _, hashed_pw _, hashed_pwlen _, hashed_salt _, hashed_inum _,
    hashed_perm _, hashed_code _, hashed_out _, hashed_busy _, hashed_fault _, hashed_fcause _, hashed_rst _, hashed_host _⟩⟩

/-- THE SPEC OF PALT, in every state (`42_pwhash.md` R167): the hashed state with ALT <- DIG. -/
theorem palt_eq (s : State) :
    ∃ t, palt s = .ok (t.setAlt t.dig) ∧ t.dig = altHash s.password s.saltBytes ∧ t.len = 64 ∧ KeptByHash s t := by
  have hp := length_password_le s
  obtain ⟨t0, e0, h0⟩ := bclr_appended s
  obtain ⟨t1, e1, h1⟩ := h0.run_baps [.pw, .salt, .pw] (by
    simp [sourcesBytes, sourceBytes_pw, sourceBytes_salt]; omega)
  have hm : [] ++ sourcesBytes [.pw, .salt, .pw] (s.draw 64) = s.password ++ s.saltBytes ++ s.password := by
    simp [sourcesBytes, sourceBytes_pw, sourceBytes_salt]
  rw [hm] at h1
  obtain ⟨e2, hd, hl, hk⟩ := h1.hashed (by simp; omega)
  refine ⟨t1.hashed, ?_, hd, hl, hk⟩
  have hsplit : ([bclr, baps .pw, baps .salt, baps .pw, md5h, mvd .alt] : List (State → Result))
      = [bclr] ++ [BapsSource.pw, .salt, .pw].map baps ++ [md5h, mvd .alt] := rfl
  rw [palt, hsplit, run_append, run_append, run_cons, e0, andThen_ok, run_nil, andThen_ok, e1, andThen_ok, run_cons, e2,
    andThen_ok, run_cons]
  rfl

/-- The stage-2 message from ALT (`42_pwhash.md` R168). -/
def stage2Message (s : State) : List Byte :=
  s.password ++ markerRom ++ s.saltBytes ++ s.alt.toList.take s.password.length ++ bitBytes s.pwlen.toNat s.pw[0]

theorem length_bitBytes_le (l : BitVec 4) (p : Byte) : (bitBytes l.toNat p).length ≤ 4 := by
  rw [bitBytes, List.length_map, Nat.digits_length_le_iff (by decide)]
  exact l.isLt

/-- THE SPEC OF PINT, in every state (`42_pwhash.md` R168): the hashed state with INT <- DIG. -/
theorem pint_eq (s : State) :
    ∃ t, pint s = .ok (t.setInt t.dig) ∧ t.dig = md5 (stage2Message s) ∧ t.len = 64 ∧ KeptByHash s t := by
  have hp := length_password_le s
  have hb := length_bitBytes_le s.pwlen s.pw[0]
  have ht : (s.alt.toList.take s.password.length).length = s.password.length := by simp; omega
  obtain ⟨t0, e0, h0⟩ := bclr_appended s
  obtain ⟨t1, e1, h1⟩ := h0.run_baps [.pw, .marker, .salt, .altp] (by
    simp [sourcesBytes, sourceBytes_pw, sourceBytes_salt, sourceBytes_altp]
    simp [sourceBytes, markerRom]; omega)
  have hm : [] ++ sourcesBytes [.pw, .marker, .salt, .altp] (s.draw 64)
      = s.password ++ markerRom ++ s.saltBytes ++ s.alt.toList.take s.password.length := by
    simp [sourcesBytes, sourceBytes_pw, sourceBytes_salt, sourceBytes_altp]
    rfl
  rw [hm] at h1
  have hlen : (s.password ++ markerRom ++ s.saltBytes ++ s.alt.toList.take s.password.length).length
      = 2 * s.password.length + 11 := by
    rw [List.length_append, List.length_append, List.length_append, ht, length_saltBytes]
    simp [markerRom]; omega
  obtain ⟨t2, e2, h2⟩ := h1.bitLoop 4 s.pwlen.toNat s.pwlen.isLt (by omega)
  have h2' : Appended (s.draw 64) t2 (stage2Message s) := h2
  obtain ⟨e3, hd, hl, hk⟩ := h2'.hashed (by
    rw [stage2Message, List.length_append, hlen]; omega)
  refine ⟨t2.hashed, ?_, hd, hl, hk⟩
  have hsplit : ([bclr, baps .pw, baps .marker, baps .salt, baps .altp, bitLoop 4 s.pwlen.toNat, md5h, mvd .int] :
      List (State → Result)) = [bclr] ++ [BapsSource.pw, .marker, .salt, .altp].map baps
        ++ [bitLoop 4 s.pwlen.toNat, md5h, mvd .int] := rfl
  rw [pint, hsplit, run_append, run_append, run_cons, e0, andThen_ok, run_nil, andThen_ok, e1, andThen_ok, run_cons, e2,
    andThen_ok, run_cons, e3, andThen_ok, run_cons]
  rfl

/-- The sources of one stage-3 iteration (`42_pwhash.md` R170). -/
def roundSources (inum : Nat) : List BapsSource :=
  [if inum % 2 = 0 then .int else .pw] ++ (if inum % 3 ≠ 0 then [.salt] else []) ++ (if inum % 7 ≠ 0 then [.pw] else [])
    ++ [if inum % 2 = 0 then .pw else .int]

theorem roundAppends_eq (inum : Nat) : roundAppends inum = (roundSources inum).map baps := by
  simp only [roundAppends, roundSources]
  split_ifs <;> rfl

theorem sourcesBytes_round (s : State) (inum : Nat) :
    sourcesBytes (roundSources inum) s = roundMessage s.password s.saltBytes s.int inum := by
  simp only [roundSources, roundMessage, sourcesBytes]
  split_ifs <;> simp [sourceBytes_pw, sourceBytes_salt] <;> rfl

theorem length_roundMessage_le (s : State) (inum : Nat) :
    (roundMessage s.password s.saltBytes s.int inum).length ≤ 54 := by
  have hp := length_password_le s
  simp only [roundMessage]
  split_ifs <;> simp <;> omega

/-- THE SPEC OF PRND, in every state (`42_pwhash.md` R170): the hashed state with INT <- DIG and INUM advanced. -/
theorem prnd_eq (s : State) :
    ∃ t, prnd s = .ok ((t.setInt t.dig).setInum (s.inum + 1)) ∧
      t.dig = md5 (roundMessage s.password s.saltBytes s.int s.inum.toNat) ∧ t.len = 64 ∧ KeptByHash s t := by
  have hr := length_roundMessage_le s s.inum.toNat
  obtain ⟨t0, e0, h0⟩ := bclr_appended s
  have hm : sourcesBytes (roundSources s.inum.toNat) (s.draw 64)
      = roundMessage s.password s.saltBytes s.int s.inum.toNat := sourcesBytes_round (s.draw 64) s.inum.toNat
  obtain ⟨t1, e1, h1⟩ := h0.run_baps (roundSources s.inum.toNat) (by rw [hm, List.length_nil]; omega)
  rw [hm, List.nil_append] at h1
  obtain ⟨e2, hd, hl, hk⟩ := h1.hashed (by omega)
  refine ⟨t1.hashed, ?_, hd, hl, hk⟩
  rw [prnd, roundAppends_eq, run_append, run_append, run_cons, e0, andThen_ok, run_nil, andThen_ok, e1, andThen_ok, run_cons,
    e2, andThen_ok, run_cons, mvd, andThen_ok, run_cons, nextInum, andThen_ok, run_nil, setInt_inum, hk.inum]

/-- What the stage macros keep of a state: the arguments, the encoder's files, STATUS and the host's side. -/
structure KeptByStage (s t : State) : Prop where
  pw : t.pw = s.pw
  pwlen : t.pwlen = s.pwlen
  salt : t.salt = s.salt
  perm : t.perm = s.perm
  code : t.code = s.code
  out : t.out = s.out
  busy : t.busy = s.busy
  fault : t.fault = s.fault
  fcause : t.fcause = s.fcause
  rst : t.rst = s.rst
  host : t.host = s.host

theorem KeptByStage.refl (s : State) : KeptByStage s s := ⟨rfl, rfl, rfl, rfl, rfl, rfl, rfl, rfl, rfl, rfl, rfl⟩

theorem KeptByStage.trans {s t u : State} (h : KeptByStage s t) (k : KeptByStage t u) : KeptByStage s u :=
  ⟨k.pw.trans h.pw, k.pwlen.trans h.pwlen, k.salt.trans h.salt, k.perm.trans h.perm, k.code.trans h.code, k.out.trans h.out,
    k.busy.trans h.busy, k.fault.trans h.fault, k.fcause.trans h.fcause, k.rst.trans h.rst, k.host.trans h.host⟩

theorem KeptByStage.password {s t : State} (h : KeptByStage s t) : t.password = s.password := by
  rw [State.password, State.password, h.pw, h.pwlen]

theorem KeptByStage.saltBytes {s t : State} (h : KeptByStage s t) : t.saltBytes = s.saltBytes := by
  rw [State.saltBytes, State.saltBytes, h.salt]

/-- PALT's outcome in terms of the arguments (`42_pwhash.md` R167). -/
theorem palt_stage (s : State) :
    ∃ t, palt s = .ok t ∧ t.alt = altHash s.password s.saltBytes ∧ t.len = 64 ∧ t.int = s.int ∧ t.inum = s.inum ∧
      t.dig = t.alt ∧ KeptByStage s t := by
  obtain ⟨t, e, hd, hl, hk⟩ := palt_eq s
  exact ⟨_, e, hd, hl, hk.int, hk.inum, rfl,
    ⟨hk.pw, hk.pwlen, hk.salt, hk.perm, hk.code, hk.out, hk.busy, hk.fault, hk.fcause, hk.rst, hk.host⟩⟩

/-- The bit loop's bytes from the password alone (`42_pwhash.md` R169). -/
theorem bitBytes_eq_bitTail (s : State) : bitBytes s.pwlen.toNat s.pw[0] = bitTail s.password := by
  rw [bitTail, length_password, bitBytes]
  by_cases h : s.pwlen.toNat = 0
  · simp [h]
  · have : s.password.headD 0x00 = s.pw[0] := by
      have h1 : 0 < s.password.length := by rw [length_password]; omega
      rw [List.headD_eq_head?_getD, List.head?_eq_getElem?, List.getElem?_eq_getElem h1]
      simp [State.password]
    rw [this]

/-- PINT's outcome in terms of the arguments and ALT (`42_pwhash.md` R168). -/
theorem pint_stage (s : State) :
    ∃ t, pint s = .ok t ∧ t.len = 64 ∧ t.alt = s.alt ∧ t.inum = s.inum ∧ t.dig = t.int ∧ KeptByStage s t ∧
      t.int = md5 (s.password ++ markerRom ++ s.saltBytes ++ s.alt.toList.take s.password.length
        ++ bitTail s.password) := by
  obtain ⟨t, e, hd, hl, hk⟩ := pint_eq s
  refine ⟨_, e, hl, hk.alt, hk.inum, rfl,
    ⟨hk.pw, hk.pwlen, hk.salt, hk.perm, hk.code, hk.out, hk.busy, hk.fault, hk.fcause, hk.rst, hk.host⟩, ?_⟩
  rw [← bitBytes_eq_bitTail]; exact hd

/-- PRND's outcome in terms of the arguments, INT and INUM (`42_pwhash.md` R170). -/
theorem prnd_stage (s : State) :
    ∃ t, prnd s = .ok t ∧ t.int = md5 (roundMessage s.password s.saltBytes s.int s.inum.toNat) ∧ t.inum = s.inum + 1 ∧
      t.len = 64 ∧ t.alt = s.alt ∧ t.dig = t.int ∧ KeptByStage s t := by
  obtain ⟨t, e, hd, hl, hk⟩ := prnd_eq s
  exact ⟨_, e, hd, rfl, hl, hk.alt, rfl,
    ⟨hk.pw, hk.pwlen, hk.salt, hk.perm, hk.code, hk.out, hk.busy, hk.fault, hk.fcause, hk.rst, hk.host⟩⟩

/-- `n` iterations of stage 3 from iteration `i` on (`42_pwhash.md` R171, R172). -/
theorem run_prnd (n : Nat) : ∀ (i : Nat) (s : State), s.inum.toNat = i → i + n < 1024 →
    s.int = chainHash s.password s.saltBytes i → s.len = 64 → s.dig = s.int →
      ∃ t, run (List.replicate n prnd) s = .ok t ∧ t.int = chainHash s.password s.saltBytes (i + n) ∧
        t.inum.toNat = i + n ∧ t.len = 64 ∧ t.alt = s.alt ∧ t.dig = t.int ∧ KeptByStage s t := by
  induction n with
  | zero => intro i s hi _ hint hl hd; exact ⟨s, rfl, hint, hi, hl, rfl, hd, KeptByStage.refl s⟩
  | succ n ih =>
    intro i s hi hin hint hl hd
    obtain ⟨t, e, h1, h2, h3, h4, h5, hk⟩ := prnd_stage s
    have hi' : t.inum.toNat = i + 1 := by
      rw [h2, BitVec.toNat_add, hi, show (1 : BitVec 10).toNat = 1 from rfl, Nat.mod_eq_of_lt (by omega)]
    obtain ⟨u, e', g1, g2, g3, g4, g5, gk⟩ := ih (i + 1) t hi' (by omega)
      (by rw [h1, hk.password, hk.saltBytes, hi, hint]; rfl) h3 h5
    refine ⟨u, by rw [List.replicate_succ, run_cons, e, andThen_ok, e'], ?_, by omega, g3, g4.trans h4, g5, hk.trans gk⟩
    rw [g1, hk.password, hk.saltBytes, show i + 1 + n = i + (n + 1) by omega]

/-- THE SPEC OF PWH, in every state (`42_pwhash.md` R171): 1000 iterations after stages 1 and 2, then the encoder. -/
theorem pwh_eq (s : State) :
    ∃ t, pwh s = .ok (t.encoded .int) ∧ t.int = chainHash s.password s.saltBytes 1000 ∧ t.inum.toNat = 1000 ∧
      t.len = 64 ∧ t.alt = altHash s.password s.saltBytes ∧ t.dig = t.int ∧ KeptByStage s t := by
  obtain ⟨t1, e1, a1, -, -, -, -, k1⟩ := palt_stage s
  obtain ⟨t2, e2, l2, a2, -, d2, k2, i2⟩ := pint_stage t1
  have k12 := k1.trans k2
  have hint : (t2.setInum 0).int = chainHash (t2.setInum 0).password (t2.setInum 0).saltBytes 0 := by
    have hp : (t2.setInum 0).password = s.password := k12.password
    have hs : (t2.setInum 0).saltBytes = s.saltBytes := k12.saltBytes
    rw [hp, hs, setInum_int, i2, k1.password, k1.saltBytes, a1, chainHash, firstIntHash]
  obtain ⟨t3, e3, c3, n3, l3, a3, d3, k3⟩ := run_prnd 1000 0 (t2.setInum 0) rfl (by decide) hint l2 d2
  have kc : KeptByStage t2 (t2.setInum 0) := ⟨rfl, rfl, rfl, rfl, rfl, rfl, rfl, rfl, rfl, rfl, rfl⟩
  have k := (k12.trans kc).trans k3
  refine ⟨t3, ?_, ?_, by omega, l3, by rw [a3, setInum_alt, a2, a1], d3, k⟩
  · rw [pwh, run_append, run_append, run_cons, e1, andThen_ok, run_cons, e2, andThen_ok, run_cons, clri, andThen_ok, run_nil,
      andThen_ok, nIter, e3, andThen_ok, run_cons, enc_eq, andThen_ok, run_nil]
  · rw [c3, (k12.trans kc).password, (k12.trans kc).saltBytes, Nat.zero_add]

end Sys2Proof.Machine
end

