-- ==== Sys2Proof/Laws/Exec.lean ====
section
/-! SUPPORT. Every command as a `Result`, and what every command keeps. -/

namespace Sys2Proof.Machine

/-- What a well-formed command does before it reports (ill-formed loads: nothing). -/
def resultOf (i : Instr) (s : State) : Result :=
  match i with
  | .bclr => bclr s
  | .bapb imm8 => bapb imm8 s
  | .baps sel => baps sel s
  | .mpad => mpad s
  | .munp => munp s
  | .mini => mini s
  | .mrnd r => mrnd r s
  | .mfin => mfin s
  | .md5h => md5h s
  | .ldpw idx imm8 => if h : idx.toNat < 15 then .ok (s.setPw (s.pw.set idx.toNat imm8 h)) else .ok s
  | .ldsl idx imm8 => if h : idx.toNat < 8 then .ok (s.setSalt (s.salt.set idx.toNat imm8 h)) else .ok s
  | .lddg idx imm8 => .ok (s.setDig (s.dig.set idx.toNat imm8 idx.isLt))
  | .ldpl n => .ok (s.setPwlen n)
  | .mvd q => mvd q s
  | .clri => clri s
  | .palt => palt s
  | .pint => pint s
  | .prnd => prnd s
  | .pwh => pwh s
  | .eprm q => eprm q s
  | .epak => epak s
  | .emap => emap s
  | .enc q => enc q s

/-- A well-formed command answers its result. -/
theorem exec_eq (i : Instr) (s : State) (h : i.wellFormed = true) : exec i s = (resultOf i s).outcome := by
  cases i with
  | ldpw idx imm8 =>
    have h' : idx.toNat < 15 := by simp [Instr.wellFormed] at h; omega
    simp only [exec, execLdpw, resultOf, dif_pos h', outcome_ok]
  | ldsl idx imm8 =>
    have h' : idx.toNat < 8 := by simp [Instr.wellFormed] at h; omega
    simp only [exec, execLdsl, resultOf, dif_pos h', outcome_ok]
  | _ => rfl

/-- An ill-formed command spells a reserved word and is refused (`30_encoding.md` R76). -/
theorem exec_illFormed (i : Instr) (s : State) (h : i.wellFormed = false) :
    exec i s = .refused (.reservedWord .index) := by
  cases i with
  | ldpw idx imm8 =>
    have h' : ¬ idx.toNat < 15 := by simp [Instr.wellFormed] at h; omega
    simp only [exec, execLdpw, dif_neg h']
  | ldsl idx imm8 =>
    have h' : ¬ idx.toNat < 8 := by simp [Instr.wellFormed] at h; omega
    simp only [exec, execLdsl, dif_neg h']
  | _ => simp [Instr.wellFormed] at h

/-- INVERSION: a command that answers a next state is well-formed, and either completed or took fault entry. -/
theorem exec_cases {i : Instr} {s t : State} (h : exec i s = .next t) :
    i.wellFormed = true ∧ (resultOf i s = .ok t ∨ ∃ u, resultOf i s = .raised u ∧ t = faultEntry u) := by
  cases hw : i.wellFormed with
  | false => rw [exec_illFormed i s hw] at h; cases h
  | true =>
    refine ⟨rfl, ?_⟩
    rw [exec_eq i s hw] at h
    cases hr : resultOf i s with
    | ok u => rw [hr, outcome_ok] at h; injection h with h; exact .inl (by rw [h])
    | raised u => rw [hr, outcome_raised] at h; injection h with h; exact .inr ⟨u, rfl, h.symm⟩

/-- What a command keeps up to fault entry: STATUS, the reset wire, the host's events, and LEN's bound. -/
structure KeptByAll (s t : State) : Prop where
  busy : t.busy = s.busy
  fault : t.fault = s.fault
  fcause : t.fcause = s.fcause
  rst : t.rst = s.rst
  host : t.host = s.host
  len : s.len.toNat ≤ 64 → t.len.toNat ≤ 64

theorem KeptByAll.ofStage {s t : State} (h : KeptByStage s t) (hl : t.len = 64) : KeptByAll s t :=
  ⟨h.busy, h.fault, h.fcause, h.rst, h.host, fun _ => by rw [hl]; decide⟩

theorem KeptByAll.ofBuf {s t : State} (h : ∃ buf len, t = s.setBuf buf len ∧ (s.len.toNat ≤ 64 → len.toNat ≤ 64)) :
    KeptByAll s t := by
  obtain ⟨buf, len, rfl, hl⟩ := h
  exact ⟨rfl, rfl, rfl, rfl, rfl, hl⟩

theorem mpad_state (s : State) :
    ∃ buf len, (mpad s).state = s.setBuf buf len ∧ (s.len.toNat ≤ 64 → len.toNat ≤ 64) := by
  by_cases h : s.len.toNat ≤ 55
  · exact ⟨_, _, by rw [mpad_of_le s h, state_ok], fun _ => by decide⟩
  · by_cases h2 : s.len.toNat < 64
    · refine ⟨_, _, by rw [mpad_of_mid s (by omega) h2, state_raised], fun _ => ?_⟩
      have : (s.len + 1).toNat = s.len.toNat + 1 := by simpa using len_add_toNat s.len 1 (by omega)
      omega
    · exact ⟨s.buf, s.len, by rw [mpad_of_full s (by omega), state_raised, setBuf_self s s.len rfl], id⟩

/-! The named writes keep all that `KeptByAll` says, whatever they write. -/

section Writes

variable (s : State)

theorem keptByAll_draw (n : Nat) : KeptByAll s (s.draw n) := ⟨rfl, rfl, rfl, rfl, rfl, id⟩
theorem keptByAll_setBuf (n : Nat) (buf : Vector Byte 64) : KeptByAll s ((s.draw n).setBuf buf 0) :=
  ⟨rfl, rfl, rfl, rfl, rfl, fun _ => by rw [setBuf_len]; decide⟩
theorem keptByAll_setRegs (a b c d : Word) : KeptByAll s (s.setRegs a b c d) := ⟨rfl, rfl, rfl, rfl, rfl, id⟩
theorem keptByAll_setM (m : Vector Word 16) (n : Nat) : KeptByAll s ((s.setM m).draw n) := ⟨rfl, rfl, rfl, rfl, rfl, id⟩
theorem keptByAll_setDig (x : Digest) : KeptByAll s (s.setDig x) := ⟨rfl, rfl, rfl, rfl, rfl, id⟩
theorem keptByAll_setAlt (x : Digest) : KeptByAll s (s.setAlt x) := ⟨rfl, rfl, rfl, rfl, rfl, id⟩
theorem keptByAll_setInt (x : Digest) : KeptByAll s (s.setInt x) := ⟨rfl, rfl, rfl, rfl, rfl, id⟩
theorem keptByAll_setPw (x : Vector Byte 15) : KeptByAll s (s.setPw x) := ⟨rfl, rfl, rfl, rfl, rfl, id⟩
theorem keptByAll_setPwlen (x : BitVec 4) : KeptByAll s (s.setPwlen x) := ⟨rfl, rfl, rfl, rfl, rfl, id⟩
theorem keptByAll_setSalt (x : Vector Byte 8) : KeptByAll s (s.setSalt x) := ⟨rfl, rfl, rfl, rfl, rfl, id⟩
theorem keptByAll_setInum (x : BitVec 10) : KeptByAll s (s.setInum x) := ⟨rfl, rfl, rfl, rfl, rfl, id⟩
theorem keptByAll_setPerm (x : Digest) : KeptByAll s (s.setPerm x) := ⟨rfl, rfl, rfl, rfl, rfl, id⟩
theorem keptByAll_setCode (x : Vector Code 22) : KeptByAll s (s.setCode x) := ⟨rfl, rfl, rfl, rfl, rfl, id⟩
theorem keptByAll_setOut (x : Vector Byte 22) : KeptByAll s (s.setOut x) := ⟨rfl, rfl, rfl, rfl, rfl, id⟩
theorem keptByAll_encode (x : Digest) (y : Vector Code 22) (z : Vector Byte 22) :
    KeptByAll s (((s.setPerm x).setCode y).setOut z) := ⟨rfl, rfl, rfl, rfl, rfl, id⟩
theorem keptByAll_encoded (q : DigestSource) : KeptByAll s (s.encoded q) := by
  rw [State.encoded]; exact keptByAll_encode s _ _ _
theorem keptByAll_refl : KeptByAll s s := ⟨rfl, rfl, rfl, rfl, rfl, id⟩

end Writes

/-- Every command keeps STATUS up to fault entry, the reset wire and the host's events, and LEN's bound
(`10_state.md` R32, `40_buffer.md` R107). -/
theorem resultOf_keeps (i : Instr) (s : State) : KeptByAll s (resultOf i s).state := by
  cases i with
  | bclr => rw [resultOf, bclr_eq, state_ok]; exact keptByAll_setBuf s _ _
  | bapb imm8 => rw [resultOf, bapb]; exact .ofBuf (appendByte_state imm8 s)
  | baps sel => rw [resultOf, baps]; exact .ofBuf (appendBytes_state _ s)
  | mpad => rw [resultOf]; exact .ofBuf (mpad_state s)
  | munp => rw [resultOf, munp, state_ok]; exact keptByAll_setM s _ _
  | mini => rw [resultOf, mini, state_ok]; exact keptByAll_setRegs s _ _ _ _
  | mrnd r => rw [resultOf, mrnd, state_ok]; exact keptByAll_setRegs s _ _ _ _
  | mfin => rw [resultOf, mfin, state_ok]; exact keptByAll_setDig s _
  | md5h =>
    by_cases h : s.len.toNat ≤ 55
    · rw [resultOf, md5h_of_le s h, state_ok]
      exact ⟨hashed_busy s, hashed_fault s, hashed_fcause s, hashed_rst s, hashed_host s,
        fun _ => by rw [hashed_len]; decide⟩
    · obtain ⟨t, h1, h2⟩ := md5h_of_gt s (by omega)
      have := KeptByAll.ofBuf (mpad_state s)
      rw [h1, state_raised] at this
      rw [resultOf, h2, state_raised]; exact this
  | ldpw idx imm8 =>
    rw [resultOf]; split
    · exact keptByAll_setPw s _
    · exact keptByAll_refl s
  | ldsl idx imm8 =>
    rw [resultOf]; split
    · exact keptByAll_setSalt s _
    · exact keptByAll_refl s
  | lddg idx imm8 => rw [resultOf, state_ok]; exact keptByAll_setDig s _
  | ldpl n => rw [resultOf, state_ok]; exact keptByAll_setPwlen s _
  | mvd q =>
    cases q <;> rw [resultOf, mvd, state_ok]
    · exact keptByAll_setAlt s _
    · exact keptByAll_setInt s _
  | clri => rw [resultOf, clri, state_ok]; exact keptByAll_setInum s _
  | palt => obtain ⟨t, e, -, hl, -, -, -, hk⟩ := palt_stage s; rw [resultOf, e, state_ok]; exact .ofStage hk hl
  | pint => obtain ⟨t, e, hl, -, -, -, hk, -⟩ := pint_stage s; rw [resultOf, e, state_ok]; exact .ofStage hk hl
  | prnd => obtain ⟨t, e, -, -, hl, -, -, hk⟩ := prnd_stage s; rw [resultOf, e, state_ok]; exact .ofStage hk hl
  | pwh =>
    obtain ⟨t, e, -, -, hl, -, -, hk⟩ := pwh_eq s
    rw [resultOf, e, state_ok]
    have h := keptByAll_encoded t .int
    exact ⟨h.busy.trans hk.busy, h.fault.trans hk.fault, h.fcause.trans hk.fcause, h.rst.trans hk.rst,
      h.host.trans hk.host, fun _ => h.len (by rw [hl]; decide)⟩
  | eprm q => rw [resultOf, eprm, state_ok]; exact keptByAll_setPerm s _
  | epak => rw [resultOf, epak, state_ok]; exact keptByAll_setCode s _
  | emap => rw [resultOf, emap, state_ok]; exact keptByAll_setOut s _
  | enc q => rw [resultOf, enc_eq, state_ok]; exact keptByAll_encoded s q

/-- A list of commands driven from outside is the same list run by the sequencer, from a healthy state
(`30_encoding.md` R80, R81). -/
theorem execSeq_eq (is : List Instr) :
    ∀ s : State, s.fault = false → (∀ i ∈ is, i.wellFormed = true) →
      execSeq is s = (run (is.map resultOf) s).outcome := by
  induction is with
  | nil => intro s _ _; rfl
  | cons i is ih =>
    intro s hf hw
    have hk := (resultOf_keeps i s).fault
    rw [execSeq, if_neg (by simp [hf]), exec_eq i s (hw i (by simp)), List.map_cons, run_cons]
    cases hr : resultOf i s with
    | ok u =>
      rw [hr, state_ok] at hk
      rw [outcome_ok, andThen_ok]
      exact ih u (hk.trans hf) fun j hj => hw j (by simp [hj])
    | raised u =>
      rw [outcome_raised, andThen_raised, outcome_raised]
      cases is with
      | nil => rfl
      | cons j js => simp only [execSeq, faultEntry_fault, if_true]

/-- The commands that raise, when, and what they have done by then (`60_exceptions.md` R221, R226). -/
theorem resultOf_raised {i : Instr} {s u : State} (h : resultOf i s = .raised u) :
    ((∃ b, i = .bapb b) ∧ 64 ≤ s.len.toNat ∧ u = s) ∨
    ((∃ sel, i = .baps sel ∧ s.len.toNat + (sourceBytes sel s).length > 64) ∧ u = s) ∨
    ((i = .mpad ∨ i = .md5h) ∧ 56 ≤ s.len.toNat ∧ mpad s = .raised u) := by
  cases i with
  | bapb b =>
    rw [resultOf, bapb] at h
    by_cases hl : s.len.toNat < 64
    · rw [appendByte_of_lt _ _ hl] at h; cases h
    · rw [appendByte_of_ge _ _ (by omega)] at h; injection h with h; exact .inl ⟨⟨b, rfl⟩, by omega, h.symm⟩
  | baps sel =>
    rw [resultOf, baps] at h
    by_cases hl : s.len.toNat + (sourceBytes sel s).length ≤ 64
    · rw [appendBytes_of_fits _ _ hl] at h; cases h
    · rw [appendBytes_of_over _ _ (by omega)] at h; injection h with h; exact .inr (.inl ⟨⟨sel, rfl, by omega⟩, h.symm⟩)
  | mpad =>
    rw [resultOf] at h
    by_cases hl : s.len.toNat ≤ 55
    · rw [mpad_of_le s hl] at h; cases h
    · exact .inr (.inr ⟨.inl rfl, by omega, h⟩)
  | md5h =>
    rw [resultOf] at h
    by_cases hl : s.len.toNat ≤ 55
    · rw [md5h_of_le s hl] at h; cases h
    · obtain ⟨t, h1, h2⟩ := md5h_of_gt s (by omega)
      rw [h2] at h; injection h with h; subst h
      exact .inr (.inr ⟨.inr rfl, by omega, h1⟩)
  | bclr => rw [resultOf, bclr] at h; cases h
  | munp => rw [resultOf, munp] at h; cases h
  | mini => rw [resultOf, mini] at h; cases h
  | mrnd r => rw [resultOf, mrnd] at h; cases h
  | mfin => rw [resultOf, mfin] at h; cases h
  | ldpw idx imm => rw [resultOf] at h; split at h <;> cases h
  | ldsl idx imm => rw [resultOf] at h; split at h <;> cases h
  | lddg idx imm => rw [resultOf] at h; cases h
  | ldpl n => rw [resultOf] at h; cases h
  | mvd q => cases q <;> rw [resultOf, mvd] at h <;> cases h
  | clri => rw [resultOf, clri] at h; cases h
  | palt => obtain ⟨t, e, -⟩ := palt_stage s; rw [resultOf, e] at h; cases h
  | pint => obtain ⟨t, e, -⟩ := pint_stage s; rw [resultOf, e] at h; cases h
  | prnd => obtain ⟨t, e, -⟩ := prnd_stage s; rw [resultOf, e] at h; cases h
  | pwh => obtain ⟨t, e, -⟩ := pwh_eq s; rw [resultOf, e] at h; cases h
  | eprm q => rw [resultOf, eprm] at h; cases h
  | epak => rw [resultOf, epak] at h; cases h
  | emap => rw [resultOf, emap] at h; cases h
  | enc q => rw [resultOf, enc_eq] at h; cases h

end Sys2Proof.Machine
end

