-- ==== Sys2Proof/Laws/PerInstr.lean ====
section
/-! SUPPORT. The per-instruction family `EncodeRow`: the word of every command matches its row's mask and match
(`30_encoding.md` R73). One lemma per constructor. -/

namespace Sys2Proof.Laws.EncodeRow

/-- `encode i AND mask = match`, for the row of `i`. -/
def Statement (i : Instr) : Prop := encode i &&& i.mask = i.matchBits

/-- A packed word under a mask whose low byte is 0 and whose high byte is 1s: the two top nibbles. -/
theorem packWord_mask_high (op fn : BitVec 4) (imm : Byte) : packWord op fn imm &&& 0xFF00 = packWord op fn 0 := by
  refine BitVec.eq_of_getLsbD_eq fun k hk => ?_
  rw [BitVec.getLsbD_and, getLsbD_packWord, getLsbD_packWord]
  interval_cases k <;> simp

/-- A packed word under the mask of its top nibble. -/
theorem packWord_mask_op (op fn : BitVec 4) (imm : Byte) : packWord op fn imm &&& 0xF000 = packWord op 0 0 := by
  refine BitVec.eq_of_getLsbD_eq fun k hk => ?_
  rw [BitVec.getLsbD_and, getLsbD_packWord, getLsbD_packWord]
  interval_cases k <;> simp

theorem bclr : Statement .bclr := by unfold Statement; decide
theorem bapb (imm8 : Byte) : Statement (.bapb imm8) := by
  show packWord 1 1 imm8 &&& 0xFF00 = 0x1100
  rw [packWord_mask_high]; decide
theorem baps (sel : BapsSource) : Statement (.baps sel) := by unfold Statement; cases sel <;> decide
theorem mpad : Statement .mpad := by unfold Statement; decide
theorem munp : Statement .munp := by unfold Statement; decide
theorem mini : Statement .mini := by unfold Statement; decide
theorem mrnd (i : BitVec 6) : Statement (.mrnd i) := by unfold Statement; revert i; decide
theorem mfin : Statement .mfin := by unfold Statement; decide
theorem md5h : Statement .md5h := by unfold Statement; decide
theorem ldpw (idx : BitVec 4) (imm8 : Byte) : Statement (.ldpw idx imm8) := by
  show packWord 3 idx imm8 &&& 0xF000 = 0x3000
  rw [packWord_mask_op]; decide
theorem ldsl (idx : BitVec 4) (imm8 : Byte) : Statement (.ldsl idx imm8) := by
  show packWord 4 idx imm8 &&& 0xF000 = 0x4000
  rw [packWord_mask_op]; decide
theorem lddg (idx : BitVec 4) (imm8 : Byte) : Statement (.lddg idx imm8) := by
  show packWord 5 idx imm8 &&& 0xF000 = 0x5000
  rw [packWord_mask_op]; decide
theorem ldpl (n : BitVec 4) : Statement (.ldpl n) := by unfold Statement; revert n; decide
theorem mvd (q : MvdDest) : Statement (.mvd q) := by unfold Statement; cases q <;> decide
theorem clri : Statement .clri := by unfold Statement; decide
theorem palt : Statement .palt := by unfold Statement; decide
theorem pint : Statement .pint := by unfold Statement; decide
theorem prnd : Statement .prnd := by unfold Statement; decide
theorem pwh : Statement .pwh := by unfold Statement; decide
theorem eprm (q : DigestSource) : Statement (.eprm q) := by unfold Statement; cases q <;> decide
theorem epak : Statement .epak := by unfold Statement; decide
theorem emap : Statement .emap := by unfold Statement; decide
theorem enc (q : DigestSource) : Statement (.enc q) := by unfold Statement; cases q <;> decide

end Sys2Proof.Laws.EncodeRow
end

