-- ==== Sys2Proof/Laws/ReadPort.lean ====
section
/-! SUPPORT. The read map range by range (`10_state.md` R42), so that no proof unfolds `readMap`. -/

namespace Sys2Proof.Machine

/-- The read port of an idle core is the map. -/
theorem readPort_eq_readMap (s : State) (x : Nat) (h : s.busy = false) (hx : x < 512) :
    s.readPort (BitVec.ofNat 9 x) = readMap s x := by
  rw [State.readPort, h, Bool.false_and, if_neg (by decide), BitVec.toNat_ofNat, Nat.mod_eq_of_lt (by omega)]

theorem readPort_status (s : State) : s.readPort 0x0D9 = s.status := by
  simp [State.readPort, readMap]

variable (s : State) (k : Nat)

theorem readMap_buf (h : k < 64) : readMap s k = s.buf[k] := by
  unfold readMap; rw [dif_pos (by omega)]
theorem readMap_m (x b : Nat) (hk : k < 16) (hb : b < 4) (hx : x = 0x040 + 4 * k + b) : readMap s x = le32Byte s.m[k] b := by
  have e1 : (x - 0x040) / 4 = k := by omega
  have e2 : x % 4 = b := by omega
  unfold readMap; rw [dif_neg (by omega), dif_pos (by omega)]
  simp only [e1, e2]
theorem readMap_a (x : Nat) (h : k < 4) (hx : x = 0x080 + k) : readMap s x = le32Byte s.a k := by
  have e : x % 4 = k := by omega
  unfold readMap
  rw [dif_neg (by omega), dif_neg (by omega), if_pos (by omega), e]
theorem readMap_b (x : Nat) (h : k < 4) (hx : x = 0x084 + k) : readMap s x = le32Byte s.b k := by
  have e : x % 4 = k := by omega
  unfold readMap
  rw [dif_neg (by omega), dif_neg (by omega)]
  iterate 1 rw [if_neg (by omega)]
  rw [if_pos (by omega), e]
theorem readMap_c (x : Nat) (h : k < 4) (hx : x = 0x088 + k) : readMap s x = le32Byte s.c k := by
  have e : x % 4 = k := by omega
  unfold readMap
  rw [dif_neg (by omega), dif_neg (by omega)]
  iterate 2 rw [if_neg (by omega)]
  rw [if_pos (by omega), e]
theorem readMap_d (x : Nat) (h : k < 4) (hx : x = 0x08C + k) : readMap s x = le32Byte s.d k := by
  have e : x % 4 = k := by omega
  unfold readMap
  rw [dif_neg (by omega), dif_neg (by omega)]
  iterate 3 rw [if_neg (by omega)]
  rw [if_pos (by omega), e]

/-- The map from 0x090 on, with the six ranges below it passed over. -/
theorem readMap_high (x : Nat) (hx : 0x090 ≤ x) : readMap s x =
    if h : x < 0x0A0 then s.dig[x - 0x090]'(by omega)
    else if h : x < 0x0B0 then s.alt[x - 0x0A0]'(by omega)
    else if h : x < 0x0C0 then s.int[x - 0x0B0]'(by omega)
    else if h : x < 0x0CF then s.pw[x - 0x0C0]'(by omega)
    else if x = 0x0CF then s.pwlen.setWidth 8
    else if h : x < 0x0D8 then s.salt[x - 0x0D0]'(by omega)
    else if x = 0x0D8 then s.len.setWidth 8
    else if x = 0x0D9 then s.status
    else if x = 0x0DA then s.inum.extractLsb' 0 8
    else if x = 0x0DB then (s.inum.extractLsb' 8 2).setWidth 8
    else if x < 0x0E0 then 0x00
    else if h : x < 0x0F0 then s.perm[x - 0x0E0]'(by omega)
    else if h : x < 0x106 then (s.code[x - 0x0F0]'(by omega)).setWidth 8
    else if x < 0x110 then 0x00
    else if h : x < 0x126 then s.out[x - 0x110]'(by omega)
    else 0x00 := by
  rw [readMap, dif_neg (by omega), dif_neg (by omega), if_neg (by omega), if_neg (by omega), if_neg (by omega),
    if_neg (by omega)]

theorem readMap_dig (h : k < 16) : readMap s (0x090 + k) = s.dig[k] := by
  have e : 0x090 + k - 0x090 = k := by omega
  rw [readMap_high _ _ (by omega), dif_pos (by omega)]; simp only [e]
theorem readMap_alt (h : k < 16) : readMap s (0x0A0 + k) = s.alt[k] := by
  have e : 0x0A0 + k - 0x0A0 = k := by omega
  rw [readMap_high _ _ (by omega), dif_neg (by omega), dif_pos (by omega)]; simp only [e]
theorem readMap_int (h : k < 16) : readMap s (0x0B0 + k) = s.int[k] := by
  have e : 0x0B0 + k - 0x0B0 = k := by omega
  rw [readMap_high _ _ (by omega), dif_neg (by omega), dif_neg (by omega), dif_pos (by omega)]; simp only [e]
theorem readMap_pw (h : k < 15) : readMap s (0x0C0 + k) = s.pw[k] := by
  have e : 0x0C0 + k - 0x0C0 = k := by omega
  rw [readMap_high _ _ (by omega), dif_neg (by omega), dif_neg (by omega), dif_neg (by omega), dif_pos (by omega)]
  simp only [e]

/-- The map from 0x0E0 on. -/
theorem readMap_top (x : Nat) (hx : 0x0E0 ≤ x) : readMap s x =
    if h : x < 0x0F0 then s.perm[x - 0x0E0]'(by omega)
    else if h : x < 0x106 then (s.code[x - 0x0F0]'(by omega)).setWidth 8
    else if x < 0x110 then 0x00
    else if h : x < 0x126 then s.out[x - 0x110]'(by omega)
    else 0x00 := by
  rw [readMap_high _ _ (by omega), dif_neg (by omega), dif_neg (by omega), dif_neg (by omega), dif_neg (by omega),
    if_neg (by omega), dif_neg (by omega), if_neg (by omega), if_neg (by omega), if_neg (by omega), if_neg (by omega),
    if_neg (by omega)]

theorem readMap_salt (h : k < 8) : readMap s (0x0D0 + k) = s.salt[k] := by
  have e : 0x0D0 + k - 0x0D0 = k := by omega
  rw [readMap_high _ _ (by omega), dif_neg (by omega), dif_neg (by omega), dif_neg (by omega), dif_neg (by omega),
    if_neg (by omega), dif_pos (by omega)]
  simp only [e]
theorem readMap_pwlen : readMap s 0x0CF = s.pwlen.setWidth 8 := rfl
theorem readMap_len : readMap s 0x0D8 = s.len.setWidth 8 := rfl
theorem readMap_inumLow : readMap s 0x0DA = s.inum.extractLsb' 0 8 := rfl
theorem readMap_inumHigh : readMap s 0x0DB = (s.inum.extractLsb' 8 2).setWidth 8 := rfl
theorem readMap_perm (h : k < 16) : readMap s (0x0E0 + k) = s.perm[k] := by
  have e : 0x0E0 + k - 0x0E0 = k := by omega
  rw [readMap_top _ _ (by omega), dif_pos (by omega)]; simp only [e]
theorem readMap_code (h : k < 22) : readMap s (0x0F0 + k) = (s.code[k]).setWidth 8 := by
  have e : 0x0F0 + k - 0x0F0 = k := by omega
  rw [readMap_top _ _ (by omega), dif_neg (by omega), dif_pos (by omega)]; simp only [e]
theorem readMap_out (h : k < 22) : readMap s (0x110 + k) = s.out[k] := by
  have e : 0x110 + k - 0x110 = k := by omega
  rw [readMap_top _ _ (by omega), dif_neg (by omega), dif_neg (by omega), if_neg (by omega), dif_pos (by omega)]
  simp only [e]
/-- The reserved addresses read 0x00 (`20_memory.md` R59). -/
theorem readMap_reserved (x : Nat) (h : 0x0DC ≤ x ∧ x ≤ 0x0DF ∨ 0x106 ≤ x ∧ x ≤ 0x10F ∨ 0x126 ≤ x) :
    readMap s x = 0x00 := by
  by_cases h1 : x < 0x0E0
  · rw [readMap_high _ _ (by omega), dif_neg (by omega), dif_neg (by omega), dif_neg (by omega), dif_neg (by omega),
      if_neg (by omega), dif_neg (by omega), if_neg (by omega), if_neg (by omega), if_neg (by omega), if_neg (by omega),
      if_pos h1]
  · rw [readMap_top _ _ (by omega), dif_neg (by omega), dif_neg (by omega)]
    by_cases h2 : x < 0x110
    · rw [if_pos h2]
    · rw [if_neg h2, dif_neg (by omega)]

end Sys2Proof.Machine
end

