-- ==== Sys2Proof/Laws/Step.lean ====
section
/-! SUPPORT. What one step can do, said once. -/

namespace Sys2Proof.Machine

@[simp] theorem completeCommand_next (s : State) : completeCommand (.next s) = .next { s with busy := false } := rfl
@[simp] theorem completeCommand_refused (r : Refusal) : completeCommand (.refused r) = .refused r := rfl

/-- INVERSION: a step that answers a next state idles, meets the reset wire, ignores a word,
runs a command, or has the command it accepted abandoned by a reset. -/
theorem step_cases {s t : State} (h : step s = .next t) :
    (s.host = [] ∧ t = s) ∨
    (∃ rest, s.host = .assertReset :: rest ∧ t = assertRst rest s) ∨
    (∃ rest, s.host = .releaseReset :: rest ∧ t = releaseRst rest s) ∨
    (∃ cw rest, s.host = .present cw :: rest ∧ s.accepts = false ∧ t = ignoreCommand rest s) ∨
    (∃ cw rest i u, s.host = .present cw :: rest ∧ s.accepts = true ∧ decode cw = .instr i ∧
      exec i (acceptCommand rest s) = .next u ∧ t = { u with busy := false }) ∨
    (∃ cw rest, s.host = .presentThenReset cw :: rest ∧ s.accepts = false ∧ t = assertRst rest s) ∨
    (∃ cw rest i, s.host = .presentThenReset cw :: rest ∧ s.accepts = true ∧ decode cw = .instr i ∧
      t = abandonCommand rest s) := by
  unfold step at h
  split at h
  · rename_i e; injection h with h; exact .inl ⟨e, h.symm⟩
  · rename_i cw rest e
    cases ha : s.accepts with
    | false =>
      rw [ha] at h; injection h with h
      exact .inr (.inr (.inr (.inr (.inr (.inl ⟨cw, rest, e, rfl, h.symm⟩)))))
    | true =>
      rw [if_pos ha, abandonWord] at h
      split at h
      · rename_i i hd; injection h with h
        exact .inr (.inr (.inr (.inr (.inr (.inr ⟨cw, rest, i, e, rfl, hd, h.symm⟩)))))
      · cases h
  · rename_i rest e; injection h with h; exact .inr (.inl ⟨rest, e, h.symm⟩)
  · rename_i rest e; injection h with h; exact .inr (.inr (.inl ⟨rest, e, h.symm⟩))
  · rename_i cw rest e
    cases ha : s.accepts with
    | false =>
      rw [ha] at h; injection h with h
      exact .inr (.inr (.inr (.inl ⟨cw, rest, e, rfl, h.symm⟩)))
    | true =>
      rw [if_pos ha, runWord] at h
      split at h
      · rename_i i hd
        cases hx : exec i (acceptCommand rest s) with
        | next u =>
          rw [hx, completeCommand_next] at h
          injection h with h
          exact .inr (.inr (.inr (.inr (.inl ⟨cw, rest, i, u, e, rfl, hd, hx, h.symm⟩))))
        | fault r => cases r
        | refused r => rw [hx, completeCommand_refused] at h; cases h
      · cases h

end Sys2Proof.Machine
end

