-- ==== Sys2Proof/Tests/Slice0.lean ====
section
/-! SUPPORT. The model's own tests: words written out from `30_encoding.md` R73, one-step tests whose expected values are
the vectors of `spec/95_test_vectors.md` to `97_test_vectors_pwh_enc.md` (the V number stands in the name), and for every
statement with hypotheses a concrete state and operands that meet them. -/

namespace Sys2Proof.Tests

open Sys2Proof.Machine

/-! ## Helpers -/

/-- Whether a command answers a next state of which `f` holds. -/
def nextIs (o : Host.Outcome State Fault Refusal) (f : State → Bool) : Bool :=
  match o with
  | .next t => f t
  | .fault _ => false
  | .refused _ => false

/-- The reset state with LEN set. -/
def lenIs (n : BitVec 7) : State := { State.reset with len := n }

/-- The reset state with events to come. -/
def offered (events : List HostEvent) : State := { State.reset with host := events }

/-- The state of V11, V13, V15 and V16 together: hello/abcdefgh, ALT[k] = a0 + k, INT[k] = b0 + k, BUF[k] = k, M[j] = 11111111 j. -/
def demo : State :=
  { State.reset with
    a := 0x01234567, b := 0x89ABCDEF, c := 0xFEDCBA98, d := 0x76543210
    m := Vector.ofFn fun j => 0x11111111 * BitVec.ofNat 32 j.val
    buf := Vector.ofFn fun k => BitVec.ofNat 8 k.val
    dig := Vector.ofFn fun k => BitVec.ofNat 8 k.val
    alt := Vector.ofFn fun k => 0xA0 + BitVec.ofNat 8 k.val
    int := Vector.ofFn fun k => 0xB0 + BitVec.ofNat 8 k.val
    pw := #v[0x68, 0x65, 0x6C, 0x6C, 0x6F, 0, 0, 0, 0, 0, 0, 0, 0, 0, 0]
    pwlen := 5
    salt := #v[0x61, 0x62, 0x63, 0x64, 0x65, 0x66, 0x67, 0x68] }

/-- Cells BUF[a] to BUF[a + bs.length - 1] hold `bs`. -/
def bufHolds (s : State) (a : Nat) (bs : List Byte) : Bool := (s.buf.toList.drop a).take bs.length == bs

/-! ## WellFormed: each check refuses an ill-formed term -/

theorem test_wf_ldpw_refuses_15 : (Instr.ldpw 15 0x41).wellFormed = false := by decide
theorem test_wf_ldpw_admits_14 : (Instr.ldpw 14 0x41).wellFormed = true := by decide
theorem test_wf_ldsl_refuses_8 : (Instr.ldsl 8 0x41).wellFormed = false := by decide
theorem test_wf_ldsl_admits_7 : (Instr.ldsl 7 0x41).wellFormed = true := by decide

/-! ## Decoding: words written out from R73 (V28), one constructor after another -/

theorem test_decode_buf :
    decode 0b0001000000000000 = .instr .bclr ∧ decode 0b0001000111111111 = .instr (.bapb 0xFF) ∧
    decode 0b0001001000000000 = .instr (.baps .pw) ∧ decode 0b0001001000000001 = .instr (.baps .salt) ∧
    decode 0b0001001000000010 = .instr (.baps .marker) ∧ decode 0b0001001000000011 = .instr (.baps .altp) ∧
    decode 0b0001001000000100 = .instr (.baps .int) ∧ decode 0b0001001000000101 = .instr (.baps .pw0) := by decide
theorem test_decode_md5 :
    decode 0b0010000000000000 = .instr .mpad ∧ decode 0b0010000100000000 = .instr .munp ∧
    decode 0b0010001000000000 = .instr .mini ∧ decode 0b0010001100111111 = .instr (.mrnd 63) ∧
    decode 0b0010010000000000 = .instr .mfin ∧ decode 0b0010111100000000 = .instr .md5h := by decide
theorem test_decode_pwh :
    decode 0b0011000001101000 = .instr (.ldpw 0 0x68) ∧ decode 0b0100011111111111 = .instr (.ldsl 7 0xFF) ∧
    decode 0b0101111101111110 = .instr (.lddg 15 0x7E) ∧ decode 0b0110000000000101 = .instr (.ldpl 5) ∧
    decode 0b0110000100000000 = .instr (.mvd .alt) ∧ decode 0b0110000100000001 = .instr (.mvd .int) ∧
    decode 0b0110001000000000 = .instr .clri ∧ decode 0b0110001100000000 = .instr .palt ∧
    decode 0b0110010000000000 = .instr .pint ∧ decode 0b0110010100000000 = .instr .prnd ∧
    decode 0b0110111100000000 = .instr .pwh := by decide
theorem test_decode_enc :
    decode 0b0111000000000000 = .instr (.eprm .dig) ∧ decode 0b0111000000000001 = .instr (.eprm .int) ∧
    decode 0b0111000100000000 = .instr .epak ∧ decode 0b0111001000000000 = .instr .emap ∧
    decode 0b0111111100000000 = .instr (.enc .dig) ∧ decode 0b0111111100000001 = .instr (.enc .int) := by decide
/-- V29: every word of the list is refused. -/
theorem test_decode_reserved_V29 :
    ([0x0000, 0xFFFF, 0x0100, 0x8000, 0x1001, 0x1300, 0x1206, 0x1207, 0x1208, 0x2001, 0x2340, 0x23FF, 0x2500, 0x2E00,
      0x2F01, 0x3F00, 0x4800, 0x4F61, 0x6010, 0x6102, 0x6201, 0x6600, 0x6E00, 0x6F01, 0x7002, 0x7101, 0x7300, 0x7F02, 0x9000,
      0xF000] : List CmdWord).all (fun w => (decode w).toOption.isNone) = true := by decide +kernel
theorem test_decode_reasons :
    decode 0x8000 = .reserved .opcode ∧ decode 0x1300 = .reserved .function ∧ decode 0x2001 = .reserved .mustBeZero ∧
    decode 0x3F00 = .reserved .index ∧ decode 0x1206 = .reserved .selector := by decide
theorem test_decodeTableWord : decodeTableWord 16 0x6005 = some (.ldpl 5) ∧ decodeTableWord 16 0x10000 = none := by decide
theorem test_encode : encode (.ldsl 7 0x68) = 0x4768 ∧ encode (.mrnd 63) = 0x233F ∧ encode (.enc .int) = 0x7F01 := by decide

/-! ## BUF family -/

/-- V10: BCLR at LEN = 17 leaves LEN = 0. -/
theorem test_bclr_V10 : nextIs (exec .bclr (lenIs 17)) (fun t => t.len == 0 && t.freeCtr == 215 + 64) = true := by decide
theorem test_bapb_V10 :
    nextIs (exec (.bapb 0x61) (lenIs 63)) (fun t => t.len == 64 && bufHolds t 63 [0x61] && t.status == 0x00) = true := by
  decide +kernel
/-- V2: the 65th byte faults; LEN stays, BUF[63] stays, STATUS = 0x06. -/
theorem test_bapb_full_V2 :
    nextIs (exec (.bapb 0xAA) { demo with len := 64 })
      (fun t => t.len == 64 && bufHolds t 63 [0x3F] && t.status == 0x06 && !t.cmdReady) = true := by decide +kernel
/-- V11: each source, at the LEN of its row. -/
theorem test_baps_V11 :
    nextIs (exec (.baps .pw) { demo with len := 0 }) (fun t => t.len == 5 && bufHolds t 0 [0x68, 0x65, 0x6C, 0x6C, 0x6F]) ∧
    nextIs (exec (.baps .salt) { demo with len := 5 })
      (fun t => t.len == 13 && bufHolds t 5 [0x61, 0x62, 0x63, 0x64, 0x65, 0x66, 0x67, 0x68]) ∧
    nextIs (exec (.baps .marker) { demo with len := 13 }) (fun t => t.len == 16 && bufHolds t 13 [0x24, 0x31, 0x24]) ∧
    nextIs (exec (.baps .altp) { demo with len := 16 })
      (fun t => t.len == 21 && bufHolds t 16 [0xA0, 0xA1, 0xA2, 0xA3, 0xA4, 21]) ∧
    nextIs (exec (.baps .pw0) { demo with len := 37 }) (fun t => t.len == 38 && bufHolds t 37 [0x68, 38]) := by
  decide +kernel
/-- V11, P3: 16 bytes fit at 48 and raise at 49 with nothing written; an empty source succeeds at 64. -/
theorem test_baps_boundary_V11 :
    nextIs (exec (.baps .int) { demo with len := 48 }) (fun t => t.len == 64 && bufHolds t 48 [0xB0, 0xB1] && !t.fault) ∧
    nextIs (exec (.baps .int) { demo with len := 49 }) (fun t => t.len == 49 && bufHolds t 49 [49, 50] && t.status == 0x06) ∧
    nextIs (exec (.baps .pw) { demo with len := 64, pwlen := 0 }) (fun t => t.len == 64 && !t.fault) := by decide +kernel

/-! ## MD5 family -/

/-- V12: L = 32 and L = 55. -/
theorem test_mpad_V12 :
    nextIs (exec .mpad { demo with len := 32 })
      (fun t => t.len == 64 && bufHolds t 31 [31, 0x80, 0x00] && bufHolds t 55 [0, 0x00, 0x01, 0, 0, 0, 0, 0, 0]) ∧
    nextIs (exec .mpad { demo with len := 55 })
      (fun t => t.len == 64 && bufHolds t 54 [54, 0x80, 0xB8, 0x01, 0, 0, 0, 0, 0, 0]) := by decide +kernel
/-- V12: L = 56 keeps the 0x80; L = 64 changes nothing. -/
theorem test_mpad_faults_V12 :
    nextIs (exec .mpad { demo with len := 56 }) (fun t => t.len == 57 && bufHolds t 55 [55, 0x80, 57] && t.status == 0x06) ∧
    nextIs (exec .mpad { demo with len := 64 }) (fun t => t.len == 64 && bufHolds t 62 [62, 63] && t.status == 0x06) := by
  decide +kernel
theorem test_munp_V13 :
    nextIs (exec .munp { demo with len := 64 })
      (fun t => t.m[0] == 0x03020100 && t.m[15] == 0x3F3E3D3C && t.len == 64 && t.freeCtr == 215) = true := by decide +kernel
theorem test_mini : nextIs (exec .mini demo) (fun t => t.a == 0x67452301 && t.b == 0xEFCDAB89 && t.c == 0x98BADCFE
    && t.d == 0x10325476) = true := by decide
/-- V14: rotl. -/
theorem test_rotl_V14 : rotl 0x12345678 7 = 0x1A2B3C09 ∧ rotl 0x80000000 1 = 1 ∧ rotl 0x00000001 31 = 0x80000000 := by decide
/-- V14: the last row of the table of F, then G at both ends of each family. -/
theorem test_mix_V14 :
    mixF 0 0x12345678 0x9ABCDEF0 0x0F1E2D3C = 0x1F3E7F74 ∧ mixF 1 0x12345678 0x9ABCDEF0 0x0F1E2D3C = 0x92B4D6F8 ∧
    mixF 2 0x12345678 0x9ABCDEF0 0x0F1E2D3C = 0x8796A5B4 ∧ mixF 3 0x12345678 0x9ABCDEF0 0x0F1E2D3C = 0x6849080B ∧
    [mixG 15, mixG 16, mixG 31, mixG 32, mixG 47, mixG 48, mixG 63] = [15, 1, 12, 5, 2, 0, 9] := by decide
/-- V15: one round of each end of each family; every row leaves A' = 76543210, C' = 89ABCDEF, D' = FEDCBA98. -/
theorem test_mrnd_V15 :
    let leaves (o : Host.Outcome State Fault Refusal) (b : Word) : Bool :=
      nextIs o (fun t => t.a == 0x76543210 && t.b == b && t.c == 0x89ABCDEF && t.d == 0xFEDCBA98)
    leaves (exec (.mrnd 0) demo) 0x3EFE09DA ∧ leaves (exec (.mrnd 15) demo) 0x917E3AF1 ∧
    leaves (exec (.mrnd 16) demo) 0xA50C5A41 ∧ leaves (exec (.mrnd 31) demo) 0xFE0A081D ∧
    leaves (exec (.mrnd 32) demo) 0x030D6444 ∧ leaves (exec (.mrnd 47) demo) 0x34A05870 ∧
    leaves (exec (.mrnd 48) demo) 0xBAA3968A ∧ leaves (exec (.mrnd 63) demo) 0xCACB8554 := by decide +kernel
theorem test_mfin_V16 :
    nextIs (exec .mfin { demo with a := 0xFFFFFFFF, b := 0x00000000, c := 0x67452301, d := 0x98BADCFF })
      (fun t => t.a == 0xFFFFFFFF && t.dig == #v[0x00, 0x23, 0x45, 0x67, 0x89, 0xAB, 0xCD, 0xEF, 0xFF, 0xFF, 0xFF, 0xFF, 0x75,
        0x31, 0xED, 0xA8]) = true := by decide +kernel
/-- V4, the source's own known-answer test: the digest of the empty message, right after reset. -/
theorem test_md5h_V4 :
    nextIs (exec .md5h State.reset) (fun t => t.len == 64 && t.b == 0x14E45506 && t.dig == #v[0xD4, 0x1D, 0x8C, 0xD9, 0x8F,
      0x00, 0xB2, 0x04, 0xE9, 0x80, 0x09, 0x98, 0xEC, 0xF8, 0x42, 0x7E]) = true := by decide +kernel
/-- V20: a message of 56 bytes faults, and M, A to D and DIG keep their values. -/
theorem test_md5h_V20 :
    nextIs (exec .md5h { demo with len := 56 })
      (fun t => t.status == 0x06 && t.len == 57 && t.a == demo.a && t.m == demo.m && t.dig == demo.dig) = true := by
  decide +kernel

/-! ## PWH family -/

/-- V21: the loads, and nothing else of the files beside the cell. -/
theorem test_loads_V21 :
    nextIs (exec (.ldpw 14 0xFF) demo) (fun t => t.pw[14] == 0xFF && t.pw[0] == 0x68 && t.pwlen == 5) ∧
    nextIs (exec (.ldsl 7 0x7A) demo) (fun t => t.salt[7] == 0x7A && t.salt[6] == 0x67) ∧
    nextIs (exec (.lddg 15 0x7E) demo) (fun t => t.dig[15] == 0x7E && t.dig[14] == 14) ∧
    nextIs (exec (.ldpl 15) demo) (fun t => t.pwlen == 15 && t.pw == demo.pw) := by decide +kernel
/-- V21: the reserved indices are refused. -/
theorem test_loads_refused_V21 :
    exec (.ldpw 15 0x41) demo = .refused (.reservedWord .index) ∧
    exec (.ldsl 8 0x41) demo = .refused (.reservedWord .index) := ⟨rfl, rfl⟩
theorem test_mvd_clri_V21 :
    nextIs (exec (.mvd .alt) demo) (fun t => t.alt == demo.dig && t.int == demo.int) ∧
    nextIs (exec (.mvd .int) demo) (fun t => t.int == demo.dig && t.alt == demo.alt) ∧
    nextIs (exec .clri { demo with inum := 1000 }) (fun t => t.inum == 0) := by decide +kernel
theorem test_palt_V6 :
    nextIs (exec .palt demo) (fun t => t.len == 64 && t.alt == #v[0x32, 0x26, 0x45, 0x1A, 0x8E, 0xBC, 0x13, 0x94, 0xD5, 0xD0,
      0x16, 0xED, 0x57, 0xD7, 0x58, 0xD9]) = true := by decide +kernel
theorem test_pint_V6 :
    nextIs (exec .pint { demo with alt := #v[0x32, 0x26, 0x45, 0x1A, 0x8E, 0xBC, 0x13, 0x94, 0xD5, 0xD0, 0x16, 0xED, 0x57, 0xD7,
      0x58, 0xD9] })
      (fun t => t.int == #v[0xBD, 0x60, 0x15, 0x8F, 0x8F, 0x81, 0x11, 0x20, 0xDE, 0xC6, 0xA3, 0xD3, 0x80, 0xE3, 0xEF, 0xD2])
      = true := by decide +kernel
/-- V6, row 0 of stage 3. -/
theorem test_prnd_V6 :
    nextIs (exec .prnd { demo with int := #v[0xBD, 0x60, 0x15, 0x8F, 0x8F, 0x81, 0x11, 0x20, 0xDE, 0xC6, 0xA3, 0xD3, 0x80, 0xE3,
      0xEF, 0xD2] })
      (fun t => t.inum == 1 && t.int == #v[0x67, 0xAE, 0xB7, 0x34, 0xCE, 0xBF, 0x40, 0x6F, 0x36, 0xB8, 0xB5, 0x8B, 0x90, 0x61,
        0x24, 0xD2]) = true := by decide +kernel
/-- V26: the wrap of INUM, on the odd form PW ++ PW ++ INT. -/
theorem test_prnd_wrap_V26 :
    nextIs (exec .prnd { demo with inum := 1023, int := #v[0x50, 0xAB, 0xF8, 0x67, 0xF2, 0xEC, 0x20, 0x06, 0x24, 0xE3, 0xC9, 0x60,
      0xFE, 0x97, 0x62, 0xDF] })
      (fun t => t.inum == 0 && t.int == #v[0x99, 0xE1, 0x05, 0x00, 0xB7, 0xAA, 0x27, 0xEE, 0xAC, 0x01, 0x69, 0x8A, 0x22, 0x10,
        0x05, 0xC4]) = true := by decide +kernel

/-! ## ENC family -/

theorem test_eprm : nextIs (exec (.eprm .dig) demo) (fun t => t.perm == #v[0x0C, 0x06, 0x00, 0x0D, 0x07, 0x01, 0x0E, 0x08,
    0x02, 0x0F, 0x09, 0x03, 0x05, 0x0A, 0x04, 0x0B]) = true := by decide +kernel
theorem test_epak_V27 :
    nextIs (exec .epak { demo with perm := #v[0x37, 0x3F, 0x43, 0x67, 0xE7, 0x66, 0x82, 0xC9, 0xDA, 0x21, 0x5B, 0x36, 0xF4, 0x2E,
      0x66, 0x5C] })
      (fun t => t.code == #v[55, 60, 51, 16, 39, 29, 46, 25, 2, 38, 44, 54, 33, 44, 37, 13, 52, 59, 34, 25, 28, 1]) = true := by
  decide +kernel
theorem test_emap_V1 :
    [alphaRom 0, alphaRom 1, alphaRom 2, alphaRom 11, alphaRom 12, alphaRom 37, alphaRom 38, alphaRom 63]
      = [0x2E, 0x2F, 0x30, 0x39, 0x41, 0x5A, 0x61, 0x7A] := by decide
/-- V6, stage 4: the final INT encodes to "rwnEbRiN0agqVgZBovWNQ/". -/
theorem test_enc_V6 :
    nextIs (exec (.enc .int) { demo with int := #v[0x43, 0x66, 0xDA, 0x36, 0x66, 0xF4, 0x3F, 0xE7, 0xC9, 0x5B, 0x2E, 0x5C, 0x37,
      0x67, 0x82, 0x21] })
      (fun t => t.out == #v[0x72, 0x77, 0x6E, 0x45, 0x62, 0x52, 0x69, 0x4E, 0x30, 0x61, 0x67, 0x71, 0x56, 0x67, 0x5A, 0x42,
        0x6F, 0x76, 0x57, 0x4E, 0x51, 0x2F]) = true := by decide +kernel
/-- V27, row 2: the all-ones digest ends in `1`. -/
theorem test_enc_V27 :
    nextIs (exec (.enc .dig) { demo with dig := Vector.replicate 16 0xFF })
      (fun t => t.out[0] == 0x7A && t.out[20] == 0x7A && t.out[21] == 0x31) = true := by decide +kernel

/-! ## The step, the port and the read port (V30) -/

theorem test_step_runs_word : nextIs (step (State.reset.withFetchWord 16 0x6005)) (fun t => t.pwlen == 5 && t.host == []
    && t.status == 0x00) = true := by decide +kernel
theorem test_step_refuses_reserved : step (offered [.present 0x0000]) = .refused (.reservedWord .opcode) := rfl
theorem test_step_faulted_ignores_V30 :
    nextIs (step { lenIs 64 with fault := true, fcause := 1, host := [.present 0x1000] })
      (fun t => t.len == 64 && t.status == 0x06 && t.readPort 0x0D8 == 0x40) = true := by decide +kernel
theorem test_step_reset_V30 :
    nextIs (step { demo with len := 64, fault := true, fcause := 1, rst := true, host := [.releaseReset] })
      (fun t => t.status == 0x00 && t.len == 0 && t.pwlen == 0 && t.readPort 0x0DC == 0x00) = true := by decide +kernel
/-- R250: a reset inside a PWH leaves BUSY = 1 and reads that show nothing but STATUS, and its release the reset table. -/
theorem test_step_reset_inside_command :
    nextIs (step { demo with host := [.presentThenReset 0x6F00, .releaseReset] }) (fun u => u.status == 0x01 && u.rst &&
      nextIs (step u) (fun t => t.status == 0x00 && t.len == 0 && t.pwlen == 0 && t.inum == 0 && t.cmdReady && t.host == []))
      = true := by decide +kernel
theorem test_readPort_R54 : (demo.readPort 0x044, demo.readPort 0x080, demo.readPort 0x083, demo.readPort 0x09F,
    demo.readPort 0x0CF, demo.readPort 0x1FF) = (0x11, 0x67, 0x01, 0x0F, 0x05, 0x00) := by decide +kernel

/-! ## Witnesses: a concrete state and operands that meet the hypotheses of each statement -/

theorem witness_O2 : (Instr.ldpw 14 0xFF).wellFormed = true ∧ (Instr.ldsl 7 0xFF).wellFormed = true := by decide
theorem witness_O3 : decode 0x3EFF = .instr (.ldpw 14 0xFF) ∧ decode 0x47FF = .instr (.ldsl 7 0xFF) := by decide
/-- O5: a reserved word alone, and one with a reset inside. -/
theorem witness_O5 : (offered [.present 0x1206]).host = [.present 0x1206] ∧ (offered [.present 0x1206]).accepts = true ∧
    (offered [.presentThenReset 0x1206]).host = [.presentThenReset 0x1206] ∧
    (offered [.presentThenReset 0x1206]).accepts = true ∧ decode 0x1206 = .reserved .selector := by decide
theorem witness_O6 : (offered [.present 0x1161]).host = [.present 0x1161] ∧ (offered [.present 0x1161]).busy = false ∧
    (offered [.present 0x1161]).fault = false ∧ (offered [.present 0x1161]).rst = false ∧
    decode 0x1161 = .instr (.bapb 0x61) := by decide
/-- The three clauses of O7: ready or not, and a completed command. -/
theorem witness_O7 : (offered [.present 0x1161]).cmdReady = true ∧
    (∃ t, step (offered [.present 0x1161]) = .next t) ∧
    { offered [.present 0x1161] with fault := true }.cmdReady = false ∧
    { offered [.present 0x1161] with busy := true }.cmdReady = false := by
  refine ⟨by decide, ⟨_, rfl⟩, by decide, by decide⟩
theorem witness_O9 : State.reset.host = [] := rfl
/-- O10: a command in a faulted state; a word offered to one; reset released from one. -/
theorem witness_O10 :
    (∃ t, exec .mini { lenIs 64 with fault := true } = .next t) ∧
    (∃ t, step { offered [.present 0x1000] with fault := true } = .next t) ∧
    (∃ t, step { offered [.releaseReset] with fault := true, rst := true } = .next t ∧ t.fault = false) :=
  ⟨⟨_, rfl⟩, ⟨_, rfl⟩, ⟨_, rfl, rfl⟩⟩
theorem witness_O11 : { offered [.releaseReset] with rst := true }.rst = true ∧
    { offered [.releaseReset] with rst := true }.host = [.releaseReset] := ⟨rfl, rfl⟩
theorem witness_O12 : (offered [.assertReset]).host = [.assertReset] ∧
    { offered [.present 0x1000] with rst := true }.rst = true ∧
    { offered [.present 0x1000] with rst := true }.host = [.present 0x1000] := ⟨rfl, rfl, rfl⟩
/-- O14: a step that takes the fault entry, from a state at the bound; a step whose command a reset abandons. -/
theorem witness_O14 : { lenIs 64 with host := [.present 0x1161] }.Inv ∧
    ∃ t, step { lenIs 64 with host := [.present 0x1161] } = .next t ∧ t.fault = true := ⟨by decide, _, rfl, rfl⟩
theorem witness_O14_abandoned : (offered [.presentThenReset 0x6F00]).Inv ∧
    step (offered [.presentThenReset 0x6F00]) = .next (abandonCommand [] (offered [.presentThenReset 0x6F00])) :=
  ⟨by decide, rfl⟩
/-- O15: a command that raises, one that does not; a faulted state and one with an abandoned command that meet the
invariant. -/
theorem witness_O15 : (∃ t, exec (.bapb 0x61) (lenIs 64) = .next t ∧ t.fault = true) ∧ (∃ t, exec .mini State.reset = .next t) ∧
    { State.reset with fault := true, fcause := 1 }.Inv ∧ { State.reset with busy := true, rst := true }.Inv :=
  ⟨⟨_, rfl, rfl⟩, ⟨_, rfl⟩, by decide, by decide⟩
theorem witness_O16 : (lenIs 64).len = 64 ∧ (lenIs 63).len.toNat < 64 := by decide
/-- O17: 9 + 56 (raises) and 8 + 56 (fits), as V3 has them. -/
theorem witness_O17 : (lenIs 9).len.toNat ≤ 64 ∧ (lenIs 9).len.toNat + (List.replicate 56 (0 : Byte)).length > 64 ∧
    (lenIs 8).len.toNat + (List.replicate 56 (0 : Byte)).length ≤ 64 := by decide
theorem witness_O20 : (lenIs 63).len.toNat < 64 ∧ (lenIs 64).len = 64 := by decide
/-- O21: INT fits at 48 and raises at 49. -/
theorem witness_O21 : (lenIs 48).len.toNat ≤ 64 ∧ (lenIs 48).len.toNat + (sourceBytes .int (lenIs 48)).length ≤ 64 ∧
    (lenIs 49).len.toNat ≤ 64 ∧ (lenIs 49).len.toNat + (sourceBytes .int (lenIs 49)).length > 64 := by decide +kernel
theorem witness_O22 : (lenIs 63).len.toNat ≤ 64 ∧ (∃ t, exec (.bapb 0x61) (lenIs 63) = .next t ∧ t.len = 64) ∧
    ∃ t, step { lenIs 63 with host := [.present 0x1161] } = .next t := ⟨by decide, ⟨_, rfl, rfl⟩, ⟨_, rfl⟩⟩
theorem witness_O23 : (lenIs 63).len.toNat ≤ 64 ∧ ∃ t, exec (.bapb 0x61) (lenIs 63) = .next t ∧ t.len = 64 :=
  ⟨by decide, _, rfl, rfl⟩
/-- O24: both ends of each of the three cases. -/
theorem witness_O24 : (lenIs 0).len.toNat ≤ 55 ∧ (lenIs 55).len.toNat ≤ 55 ∧
    (56 ≤ (lenIs 56).len.toNat ∧ (lenIs 56).len.toNat < 64) ∧ (56 ≤ (lenIs 63).len.toNat ∧ (lenIs 63).len.toNat < 64) ∧
    (lenIs 64).len = 64 := by decide
theorem witness_O25 : 4 * 15 + 4 ≤ (lenIs 64).len.toNat := by decide
theorem witness_O29 : (lenIs 55).fault = false ∧ (lenIs 55).len.toNat ≤ 55 ∧ (lenIs 56).fault = false ∧
    56 ≤ (lenIs 56).len.toNat ∧ (lenIs 64).len.toNat ≤ 64 := by decide
theorem witness_O30 : State.reset.fault = false ∧ State.reset.len = 0 := ⟨rfl, rfl⟩
theorem witness_O31 : (lenIs 55).fault = false ∧ (lenIs 55).len.toNat ≤ 55 := by decide
/-- O32: two states with one message and other leftovers. -/
theorem witness_O32 : (lenIs 55).fault = false ∧ { lenIs 55 with a := 1, inum := 7 }.fault = false ∧
    (lenIs 55).len.toNat ≤ 55 ∧ { lenIs 55 with a := 1, inum := 7 }.len = (lenIs 55).len ∧
    ∀ (k : Nat) (hk : k < 64), k < (lenIs 55).len.toNat →
      { lenIs 55 with a := 1, inum := 7 }.buf[k] = (lenIs 55).buf[k] := ⟨rfl, rfl, by decide, rfl, fun _ _ _ => rfl⟩
theorem witness_O33 : (lenIs 55).fault = false ∧ (lenIs 55).len.toNat ≤ 64 ∧
    (∃ t, exec .mpad (lenIs 55) = .next t ∧ t.fault = false) ∧ ∃ t, exec .md5h (lenIs 55) = .next t ∧ t.fault = false := by
  refine ⟨rfl, by decide, ⟨_, by rw [exec, execMpad, mpad_of_le _ (by decide), outcome_ok], rfl⟩, _,
    by rw [exec, execMd5h, md5h_of_le _ (by decide), outcome_ok], hashed_fault _⟩
theorem witness_O34 : (lenIs 60).fault = false ∧ (lenIs 60).busy = false ∧ (lenIs 60).len.toNat = 4 * 15 := by decide
theorem witness_O35 : (14 : BitVec 4).toNat < 15 ∧ (15 : BitVec 4).toNat = 15 ∧ (7 : BitVec 4).toNat < 8 ∧
    8 ≤ (8 : BitVec 4).toNat := by decide
/-- O37 to O41, O47, O56: a healthy state. -/
theorem witness_O37 : demo.fault = false := rfl
theorem witness_O42 : demo.fault = false ∧ { demo with int := demo.alt, inum := 3 }.fault = false ∧
    { demo with int := demo.alt, inum := 3 }.pwlen = demo.pwlen ∧
    { demo with int := demo.alt, inum := 3 }.salt = demo.salt ∧
    ∀ (k : Nat) (hk : k < 15), k < demo.pwlen.toNat → { demo with int := demo.alt, inum := 3 }.pw[k] = demo.pw[k] :=
  ⟨rfl, rfl, rfl, rfl, fun _ _ _ => rfl⟩
theorem witness_O48 : (∃ t, exec .emap demo = .next t) ∧ (∃ t, exec (.enc .dig) demo = .next t) ∧
    ∃ t t', exec (.enc .dig) demo = .next t ∧ exec (.enc .int) { demo with int := demo.dig } = .next t' ∧ t.out = t'.out := by
  refine ⟨⟨_, rfl⟩, ⟨_, by rw [exec, execEnc, enc_eq, outcome_ok]⟩, _, _, by rw [exec, execEnc, enc_eq, outcome_ok],
    by rw [exec, execEnc, enc_eq, outcome_ok], ?_⟩
  rw [State.encoded, State.encoded, setOut_out, setOut_out]; rfl
theorem witness_O49 : (Instr.baps .int).wellFormed = true ∧ (lenIs 49).fault = false ∧ (lenIs 49).len.toNat ≤ 64 := by decide
/-- O50: a BAPB that raises, an MPAD that raises at 56 and one at 64. -/
theorem witness_O50 : (∃ t, exec (.bapb 0x61) (lenIs 64) = .next t ∧ t.fault = true) ∧
    (∃ t, exec .mpad (lenIs 56) = .next t ∧ t.fault = true) ∧ ∃ t, exec .mpad (lenIs 64) = .next t ∧ t.fault = true := by
  refine ⟨⟨_, rfl, rfl⟩, ⟨_, by rw [exec, execMpad, mpad_of_mid _ (by decide) (by decide), outcome_raised], rfl⟩,
    ⟨_, by rw [exec, execMpad, mpad_of_full _ (by decide), outcome_raised], rfl⟩⟩
theorem witness_O51 : Instr.pwh = .palt ∨ Instr.pwh = .pint ∨ Instr.pwh = .prnd ∨ Instr.pwh = .pwh := by decide
/-- O52: a command that moves each kind of register. -/
theorem witness_O52 : (∃ t, exec .mini demo = .next t ∧ t.a ≠ demo.a) ∧ (∃ t, exec (.ldpl 7) demo = .next t ∧ t.pwlen ≠ demo.pwlen) ∧
    ∃ t, exec (.mvd .alt) demo = .next t ∧ t.alt ≠ demo.alt :=
  ⟨⟨_, rfl, by decide⟩, ⟨_, rfl, by decide⟩, ⟨_, rfl, by decide +kernel⟩⟩
theorem witness_O53 : (lenIs 64).busy = false ∧ 63 < (lenIs 64).len.toNat := by decide
theorem witness_O54 : demo.fault = false ∧ (List.replicate 55 (0x61 : Byte)).length ≤ 55 := by decide
theorem witness_O55 : demo.fault = false ∧ (List.replicate 15 (0x61 : Byte)).length ≤ 15 ∧
    (List.replicate 8 (0x62 : Byte)).length = 8 := by decide
/-- O57: an accepted command with a reset inside, followed by the release; a second state and command at the same position of
the counter; a word that is not accepted. -/
theorem witness_O57 :
    (offered [.presentThenReset 0x6F00, .releaseReset]).accepts = true ∧ decode 0x6F00 = .instr .pwh ∧
    { lenIs 64 with host := [.presentThenReset 0x2F00, .releaseReset] }.accepts = true ∧ decode 0x2F00 = .instr .md5h ∧
    { lenIs 64 with host := [.presentThenReset 0x2F00, .releaseReset] }.freeCtr =
      (offered [.presentThenReset 0x6F00, .releaseReset]).freeCtr ∧
    { lenIs 64 with host := [.presentThenReset 0x2F00, .releaseReset] }.fcause =
      (offered [.presentThenReset 0x6F00, .releaseReset]).fcause ∧
    { offered [.presentThenReset 0x6F00] with fault := true }.accepts = false := by decide

end Sys2Proof.Tests
end

section
/-! Scope (`00_scope.md`): what one step answers, event by event, and that it refuses reserved words only. -/

namespace Sys2Proof.Machine

section
variable {s : State} {cw : CmdWord} {rest : List HostEvent}

/-! The equations of `step`, one per event and level of acceptance (`30_encoding.md` R81, `70_reset_and_hazards.md` R250). -/

theorem step_idle (h : s.host = []) : step s = .next s := by
  rw [step, h]
theorem step_assertReset (h : s.host = .assertReset :: rest) : step s = .next (assertRst rest s) := by
  rw [step, h]
theorem step_releaseReset (h : s.host = .releaseReset :: rest) : step s = .next (releaseRst rest s) := by
  rw [step, h]
theorem step_present_of_accepts (h : s.host = .present cw :: rest) (ha : s.accepts = true) :
    step s = runWord cw (acceptCommand rest s) := by
  simp [step, h, ha]
theorem step_present_of_ignores (h : s.host = .present cw :: rest) (ha : s.accepts = false) :
    step s = .next (ignoreCommand rest s) := by
  simp [step, h, ha]
theorem step_presentThenReset_of_accepts (h : s.host = .presentThenReset cw :: rest) (ha : s.accepts = true) :
    step s = abandonWord cw rest s := by
  simp [step, h, ha]
theorem step_presentThenReset_of_ignores (h : s.host = .presentThenReset cw :: rest) (ha : s.accepts = false) :
    step s = .next (assertRst rest s) := by
  simp [step, h, ha]

theorem runWord_of_instr {i : Instr} (h : decode cw = .instr i) : runWord cw s = completeCommand (exec i s) := by
  rw [runWord, h]
theorem runWord_of_reserved {why : Reserved} (h : decode cw = .reserved why) :
    runWord cw s = .refused (.reservedWord why) := by
  rw [runWord, h]
theorem abandonWord_of_instr {i : Instr} (h : decode cw = .instr i) :
    abandonWord cw rest s = .next (abandonCommand rest s) := by
  rw [abandonWord, h]
theorem abandonWord_of_reserved {why : Reserved} (h : decode cw = .reserved why) :
    abandonWord cw rest s = .refused (.reservedWord why) := by
  rw [abandonWord, h]

/-- A well-formed command completes or takes fault entry, and both are next states (`00_scope.md` R13). -/
theorem exec_next_of_wellFormed (i : Instr) (s : State) (h : i.wellFormed = true) : ∃ t, exec i s = .next t := by
  rw [exec_eq i s h]
  obtain ⟨t, -, ht⟩ | ⟨t, -, ht⟩ := outcome_eq (resultOf i s)
  · exact ⟨t, ht⟩
  · exact ⟨faultEntry t, ht⟩

/-- The decoder gives well-formed commands only, so a word it gives a command to answers a next state. -/
theorem runWord_next_of_instr {i : Instr} (h : decode cw = .instr i) : ∃ t, runWord cw s = .next t := by
  obtain ⟨t, ht⟩ := exec_next_of_wellFormed i s (decode_wellFormed h)
  exact ⟨_, by rw [runWord_of_instr h, ht, completeCommand_next]⟩

end

/-- Settles O8: by the host's event, and for an accepted word by what it decodes to. -/
theorem everyStepCompletesFaultsOrRefuses : Obligations.EveryStepCompletesFaultsOrRefuses := by
  intro s
  match hh : s.host with
  | [] => exact .inl ⟨_, step_idle hh⟩
  | .assertReset :: rest => exact .inl ⟨_, step_assertReset hh⟩
  | .releaseReset :: rest => exact .inl ⟨_, step_releaseReset hh⟩
  | .present cw :: rest =>
    cases ha : s.accepts with
    | false => exact .inl ⟨_, step_present_of_ignores hh ha⟩
    | true =>
      have hstep := step_present_of_accepts hh ha
      cases hd : decode cw with
      | instr i => rw [hstep]; exact .inl (runWord_next_of_instr hd)
      | reserved why => exact .inr ⟨cw, rest, why, .inl rfl, rfl, hd, hstep.trans (runWord_of_reserved hd)⟩
  | .presentThenReset cw :: rest =>
    cases ha : s.accepts with
    | false => exact .inl ⟨_, step_presentThenReset_of_ignores hh ha⟩
    | true =>
      have hstep := step_presentThenReset_of_accepts hh ha
      cases hd : decode cw with
      | instr i => exact .inl ⟨_, hstep.trans (abandonWord_of_instr hd)⟩
      | reserved why => exact .inr ⟨cw, rest, why, .inr rfl, rfl, hd, hstep.trans (abandonWord_of_reserved hd)⟩

end Sys2Proof.Machine
end

section
/-! The frame of every command, register by register (`10_state.md` section 1): which files a command may change. -/

namespace Sys2Proof.Machine

/-- The registers of the overview table (`10_state.md` section 1); A to D, and BUF with LEN, count as one each. -/
inductive Register where
  | chaining | m | buffer | dig | alt | int | pw | pwlen | salt | inum | perm | code | out

/-- What a register holds. -/
def Register.Content : Register → Type
  | .chaining => Word × Word × Word × Word
  | .m => Vector Word 16
  | .buffer => Vector Byte 64 × BitVec 7
  | .dig | .alt | .int | .perm => Digest
  | .pw => Vector Byte 15
  | .pwlen => BitVec 4
  | .salt => Vector Byte 8
  | .inum => BitVec 10
  | .code => Vector Code 22
  | .out => Vector Byte 22

/-- The content of a register in a state. -/
def Register.read : (r : Register) → State → r.Content
  | .chaining, s => s.regs
  | .m, s => s.m
  | .buffer, s => (s.buf, s.len)
  | .dig, s => s.dig
  | .alt, s => s.alt
  | .int, s => s.int
  | .pw, s => s.pw
  | .pwlen, s => s.pwlen
  | .salt, s => s.salt
  | .inum, s => s.inum
  | .perm, s => s.perm
  | .code, s => s.code
  | .out, s => s.out

/-- The commands that run MD5H. -/
def Hashes (i : Instr) : Prop := i = .md5h ∨ i = .palt ∨ i = .pint ∨ i = .prnd ∨ i = .pwh

/-- The writers of a register: the overview table's primitives, and the commands that run them. -/
def Register.WrittenBy : Register → Instr → Prop
  | .chaining, i => Hashes i ∨ i = .mini ∨ ∃ r, i = .mrnd r
  | .m, i => Hashes i ∨ i = .munp
  | .buffer, i => Hashes i ∨ i = .bclr ∨ i = .mpad ∨ (∃ imm8, i = .bapb imm8) ∨ ∃ sel, i = .baps sel
  | .dig, i => Hashes i ∨ i = .mfin ∨ ∃ idx imm8, i = .lddg idx imm8
  | .alt, i => i = .mvd .alt ∨ i = .palt ∨ i = .pwh
  | .int, i => i = .mvd .int ∨ i = .pint ∨ i = .prnd ∨ i = .pwh
  | .pw, i => ∃ idx imm8, i = .ldpw idx imm8
  | .pwlen, i => ∃ n, i = .ldpl n
  | .salt, i => ∃ idx imm8, i = .ldsl idx imm8
  | .inum, i => i = .clri ∨ i = .prnd ∨ i = .pwh
  | .perm, i => (∃ q, i = .eprm q ∨ i = .enc q) ∨ i = .pwh
  | .code, i => (∃ q, i = .enc q) ∨ i = .epak ∨ i = .pwh
  | .out, i => (∃ q, i = .enc q) ∨ i = .emap ∨ i = .pwh

/-- The registers MD5H writes. -/
def Register.OfHash (r : Register) : Prop := r = .chaining ∨ r = .m ∨ r = .buffer ∨ r = .dig

section
variable {r : Register} {s t : State} {i : Instr}

@[simp] theorem read_faultEntry : r.read (faultEntry s) = r.read s := by cases r <;> rfl
@[simp] theorem read_draw (n : Nat) : r.read (s.draw n) = r.read s := by cases r <;> rfl

/-! Each named write changes its own register only. -/

theorem setRegs_changes {a b c d : Word} (h : r.read (s.setRegs a b c d) ≠ r.read s) : r = .chaining := by
  cases r with
  | chaining => rfl
  | _ => exact absurd rfl h
theorem setM_changes {x : Vector Word 16} (h : r.read (s.setM x) ≠ r.read s) : r = .m := by
  cases r with
  | m => rfl
  | _ => exact absurd rfl h
theorem setBuf_changes {x : Vector Byte 64} {l : BitVec 7} (h : r.read (s.setBuf x l) ≠ r.read s) : r = .buffer := by
  cases r with
  | buffer => rfl
  | _ => exact absurd rfl h
theorem setDig_changes {x : Digest} (h : r.read (s.setDig x) ≠ r.read s) : r = .dig := by
  cases r with
  | dig => rfl
  | _ => exact absurd rfl h
theorem setAlt_changes {x : Digest} (h : r.read (s.setAlt x) ≠ r.read s) : r = .alt := by
  cases r with
  | alt => rfl
  | _ => exact absurd rfl h
theorem setInt_changes {x : Digest} (h : r.read (s.setInt x) ≠ r.read s) : r = .int := by
  cases r with
  | int => rfl
  | _ => exact absurd rfl h
theorem setPw_changes {x : Vector Byte 15} (h : r.read (s.setPw x) ≠ r.read s) : r = .pw := by
  cases r with
  | pw => rfl
  | _ => exact absurd rfl h
theorem setPwlen_changes {x : BitVec 4} (h : r.read (s.setPwlen x) ≠ r.read s) : r = .pwlen := by
  cases r with
  | pwlen => rfl
  | _ => exact absurd rfl h
theorem setSalt_changes {x : Vector Byte 8} (h : r.read (s.setSalt x) ≠ r.read s) : r = .salt := by
  cases r with
  | salt => rfl
  | _ => exact absurd rfl h
theorem setInum_changes {x : BitVec 10} (h : r.read (s.setInum x) ≠ r.read s) : r = .inum := by
  cases r with
  | inum => rfl
  | _ => exact absurd rfl h
theorem setPerm_changes {x : Digest} (h : r.read (s.setPerm x) ≠ r.read s) : r = .perm := by
  cases r with
  | perm => rfl
  | _ => exact absurd rfl h
theorem setCode_changes {x : Vector Code 22} (h : r.read (s.setCode x) ≠ r.read s) : r = .code := by
  cases r with
  | code => rfl
  | _ => exact absurd rfl h
theorem setOut_changes {x : Vector Byte 22} (h : r.read (s.setOut x) ≠ r.read s) : r = .out := by
  cases r with
  | out => rfl
  | _ => exact absurd rfl h

/-- A change from `s` to `u` by way of `t` is a change on one of the two legs. -/
theorem changes_via (t : State) {u : State} (h : r.read u ≠ r.read s) : r.read u ≠ r.read t ∨ r.read t ≠ r.read s :=
  (h.ne_or_ne (r.read t)).imp_right Ne.symm

theorem encode_changes {x : Digest} {y : Vector Code 22} {z : Vector Byte 22}
    (h : r.read (((s.setPerm x).setCode y).setOut z) ≠ r.read s) : r = .perm ∨ r = .code ∨ r = .out := by
  obtain h | h := changes_via ((s.setPerm x).setCode y) h
  · exact .inr (.inr (setOut_changes h))
  obtain h | h := changes_via (s.setPerm x) h
  · exact .inr (.inl (setCode_changes h))
  · exact .inl (setPerm_changes h)

theorem encoded_changes {q : DigestSource} (h : r.read (s.encoded q) ≠ r.read s) : r = .perm ∨ r = .code ∨ r = .out := by
  rw [State.encoded] at h
  exact encode_changes h

/-- An append, also one that raises, changes BUF and LEN only. -/
theorem buf_changes (ht : ∃ buf len, t = s.setBuf buf len ∧ (s.len.toNat ≤ 64 → len.toNat ≤ 64))
    (h : r.read t ≠ r.read s) : r = .buffer := by
  obtain ⟨buf, len, rfl, -⟩ := ht
  exact setBuf_changes h

/-- What the hashing of a message changes (`41_md5.md` R131). -/
theorem KeptByHash.changes (hk : KeptByHash s t) (h : r.read t ≠ r.read s) : r.OfHash := by
  cases r with
  | chaining | m | buffer | dig => simp [Register.OfHash]
  | alt => exact absurd hk.alt h
  | int => exact absurd hk.int h
  | pw => exact absurd hk.pw h
  | pwlen => exact absurd hk.pwlen h
  | salt => exact absurd hk.salt h
  | inum => exact absurd hk.inum h
  | perm => exact absurd hk.perm h
  | code => exact absurd hk.code h
  | out => exact absurd hk.out h

/-- What the first three stages of PWH change (`42_pwhash.md` R171). -/
theorem KeptByStage.changes (hk : KeptByStage s t) (h : r.read t ≠ r.read s) :
    r.OfHash ∨ r = .alt ∨ r = .int ∨ r = .inum := by
  cases r with
  | chaining | m | buffer | dig | alt | int | inum => simp [Register.OfHash]
  | pw => exact absurd hk.pw h
  | pwlen => exact absurd hk.pwlen h
  | salt => exact absurd hk.salt h
  | perm => exact absurd hk.perm h
  | code => exact absurd hk.code h
  | out => exact absurd hk.out h

theorem Register.OfHash.writtenBy (hr : r.OfHash) (hi : Hashes i) : r.WrittenBy i := by
  obtain rfl | rfl | rfl | rfl := hr <;> exact .inl hi

/-- MD5H, whether it completes or raises, changes the registers of a hash only (`41_md5.md` R129, R130). -/
theorem md5h_changes (h : r.read (md5h s).state ≠ r.read s) : r.OfHash := by
  by_cases hl : s.len.toNat ≤ 55
  · have hs : Appended (s.draw 0) s s.content := ⟨⟨s.buf, s.len, rfl⟩, by omega, rfl⟩
    obtain ⟨e, -, -, hk⟩ := hs.hashed (by rw [length_content s (by omega)]; exact hl)
    rw [e, state_ok] at h
    exact hk.changes h
  · obtain ⟨t, hm, e⟩ := md5h_of_gt s (by omega)
    have hb := mpad_state s
    rw [hm, state_raised] at hb
    rw [e, state_raised] at h
    exact .inr (.inr (.inl (buf_changes hb h)))

/-- THE FRAME OF EVERY COMMAND: a register that differs afterwards, also of a command that raised, is one the command
writes. -/
theorem resultOf_changes (h : r.read (resultOf i s).state ≠ r.read s) : r.WrittenBy i := by
  cases i with
  | bclr =>
    rw [resultOf, bclr_eq, state_ok, ← read_draw (s := s) 64] at h
    obtain rfl := setBuf_changes h; simp [Register.WrittenBy]
  | bapb imm8 => obtain rfl := buf_changes (appendByte_state imm8 s) h; simp [Register.WrittenBy]
  | baps sel => obtain rfl := buf_changes (appendBytes_state _ s) h; simp [Register.WrittenBy]
  | mpad => obtain rfl := buf_changes (mpad_state s) h; simp [Register.WrittenBy]
  | munp =>
    rw [resultOf, munp, state_ok, read_draw] at h
    obtain rfl := setM_changes h; simp [Register.WrittenBy]
  | mini => obtain rfl := setRegs_changes h; simp [Register.WrittenBy]
  | mrnd n => obtain rfl := setRegs_changes h; simp [Register.WrittenBy]
  | mfin => obtain rfl := setDig_changes h; simp [Register.WrittenBy]
  | md5h => exact (md5h_changes h).writtenBy (by simp [Hashes])
  | ldpw idx imm8 =>
    rw [resultOf] at h
    split at h
    · obtain rfl := setPw_changes h; simp [Register.WrittenBy]
    · exact absurd rfl h
  | ldsl idx imm8 =>
    rw [resultOf] at h
    split at h
    · obtain rfl := setSalt_changes h; simp [Register.WrittenBy]
    · exact absurd rfl h
  | lddg idx imm8 => obtain rfl := setDig_changes h; simp [Register.WrittenBy]
  | ldpl n => obtain rfl := setPwlen_changes h; simp [Register.WrittenBy]
  | mvd q =>
    cases q with
    | alt => obtain rfl := setAlt_changes h; simp [Register.WrittenBy]
    | int => obtain rfl := setInt_changes h; simp [Register.WrittenBy]
  | clri => obtain rfl := setInum_changes h; simp [Register.WrittenBy]
  | palt =>
    obtain ⟨t, e, -, -, hk⟩ := palt_eq s
    rw [resultOf, e, state_ok] at h
    obtain h | h := changes_via t h
    · obtain rfl := setAlt_changes h; simp [Register.WrittenBy]
    · exact (hk.changes h).writtenBy (by simp [Hashes])
  | pint =>
    obtain ⟨t, e, -, -, hk⟩ := pint_eq s
    rw [resultOf, e, state_ok] at h
    obtain h | h := changes_via t h
    · obtain rfl := setInt_changes h; simp [Register.WrittenBy]
    · exact (hk.changes h).writtenBy (by simp [Hashes])
  | prnd =>
    obtain ⟨t, e, -, -, hk⟩ := prnd_eq s
    rw [resultOf, e, state_ok] at h
    obtain h | h := changes_via (t.setInt t.dig) h
    · obtain rfl := setInum_changes h; simp [Register.WrittenBy]
    obtain h | h := changes_via t h
    · obtain rfl := setInt_changes h; simp [Register.WrittenBy]
    · exact (hk.changes h).writtenBy (by simp [Hashes])
  | pwh =>
    obtain ⟨t, e, -, -, -, -, -, hk⟩ := pwh_eq s
    rw [resultOf, e, state_ok] at h
    obtain h | h := changes_via t h
    · obtain rfl | rfl | rfl := encoded_changes h <;> simp [Register.WrittenBy]
    · obtain hr | rfl | rfl | rfl := hk.changes h
      · exact hr.writtenBy (by simp [Hashes])
      all_goals simp [Register.WrittenBy]
  | eprm q => obtain rfl := setPerm_changes h; simp [Register.WrittenBy]
  | epak => obtain rfl := setCode_changes h; simp [Register.WrittenBy]
  | emap => obtain rfl := setOut_changes h; simp [Register.WrittenBy]
  | enc q =>
    rw [resultOf, enc_eq, state_ok] at h
    obtain rfl | rfl | rfl := encoded_changes h <;> simp [Register.WrittenBy]

/-- What a command answers is what it left, or that after fault entry. -/
theorem exec_state (hx : exec i s = .next t) : t = (resultOf i s).state ∨ t = faultEntry (resultOf i s).state := by
  obtain ⟨-, e | ⟨u, e, rfl⟩⟩ := exec_cases hx
  · rw [e]; exact .inl rfl
  · rw [e]; exact .inr rfl

theorem exec_changes (hx : exec i s = .next t) (h : r.read t ≠ r.read s) : r.WrittenBy i := by
  obtain rfl | rfl := exec_state hx
  · exact resultOf_changes h
  · rw [read_faultEntry] at h; exact resultOf_changes h

theorem exec_rst (hx : exec i s = .next t) : t.rst = s.rst := by
  obtain rfl | rfl := exec_state hx <;> exact (resultOf_keeps i s).rst

theorem exec_host (hx : exec i s = .next t) : t.host = s.host := by
  obtain rfl | rfl := exec_state hx <;> exact (resultOf_keeps i s).host

end

theorem regs_eq_iff {s t : State} : t.regs = s.regs ↔ t.a = s.a ∧ t.b = s.b ∧ t.c = s.c ∧ t.d = s.d := by
  simp [State.regs]

/-- Settles O52: the frame of every command at each register. -/
theorem registersChangeOnlyByTheirWriters : Obligations.RegistersChangeOnlyByTheirWriters := by
  intro i s t hx
  have key : ∀ r : Register, r.read t ≠ r.read s → r.WrittenBy i := fun r => exec_changes hx
  refine ⟨fun h => key .chaining fun e => ?_, key .m, fun h => key .buffer fun e => ?_, key .dig, key .alt, key .int,
    key .pw, key .pwlen, key .salt, key .inum, key .perm, key .code, key .out, exec_rst hx, exec_host hx⟩
  · obtain ⟨ha, hb, hc, hd⟩ := regs_eq_iff.mp e
    simp [ha, hb, hc, hd] at h
  · obtain ⟨hbuf, hlen⟩ := Prod.mk.inj e
    simp [hbuf, hlen] at h

end Sys2Proof.Machine
end

section
/-! STATUS, the reset table and the constant tables (`10_state.md` R32, R34 to R39, R43). -/

namespace Sys2Proof.Machine

/-- The layout of STATUS (`10_state.md` R32), over all its fields. -/
theorem statusByte_layout : ∀ (c : BitVec 2) (f b : Bool),
    let x : Byte := (0 : BitVec 4) ++ c ++ BitVec.ofBool f ++ BitVec.ofBool b
    x.getLsbD 0 = b ∧ x.getLsbD 1 = f ∧ x.extractLsb' 2 2 = c ∧ x.extractLsb' 4 4 = 0 := by
  decide

/-- Setting BUSY sets bit 0 and no other. -/
theorem statusByte_busy : ∀ (c : BitVec 2) (f b : Bool),
    (0 : BitVec 4) ++ c ++ BitVec.ofBool f ++ BitVec.ofBool true
      = ((0 : BitVec 4) ++ c ++ BitVec.ofBool f ++ BitVec.ofBool b : Byte) ||| 0x01 := by
  decide

section
variable {s t : State} {i : Instr}

theorem KeptByAll.status (h : KeptByAll s t) : t.status = s.status := by
  rw [State.status, State.status, h.busy, h.fault, h.fcause]

/-- No command writes STATUS but by fault entry (`10_state.md` R32, `60_exceptions.md` R226). -/
theorem exec_status (hx : exec i s = .next t) :
    t.status = s.status ∨ (t.fault = true ∧ t.fcause = 1 ∧ t.busy = false) := by
  obtain rfl | rfl := exec_state hx
  · exact .inl (resultOf_keeps i s).status
  · exact .inr ⟨rfl, rfl, rfl⟩

/-- The invariant leaves STATUS three values: FCAUSE follows FAULT, and BUSY excludes FAULT. -/
theorem status_of_inv (h : s.Inv) : s.status = if s.fault then 0x06 else if s.busy then 0x01 else 0x00 := by
  obtain ⟨-, hbusy, hcause⟩ := h
  rw [State.status, hcause]
  cases hf : s.fault with
  | false => cases s.busy <;> rfl
  | true =>
    have hb : s.busy = false := by
      cases hb : s.busy with
      | false => rfl
      | true => rw [(hbusy hb).2] at hf; cases hf
    rw [hb]; rfl

/-- Without an asserted reset the core is not busy between steps. -/
theorem busy_of_inv (h : s.Inv) (hr : s.rst = false) : s.busy = false := by
  obtain ⟨-, hbusy, -⟩ := h
  cases hb : s.busy with
  | false => rfl
  | true => rw [(hbusy hb).1] at hr; cases hr

end

/-- Settles O15: the layout field by field, `exec_status`, and the values the invariant leaves. -/
theorem statusRegister : Obligations.StatusRegister := by
  refine ⟨fun s => statusByte_layout s.fcause s.fault s.busy, fun i s t => exec_status, fun s hs => ⟨status_of_inv hs, ?_⟩,
    fun s rest => statusByte_busy s.fcause s.fault s.busy⟩
  intro hr
  rw [status_of_inv hs, busy_of_inv hs hr]; rfl

section
variable (rest : List HostEvent) (ctr : Nat)

@[simp] theorem atReset_status : (State.atReset ctr rest).status = 0x00 := by
  simp [State.status]
@[simp] theorem atReset_cmdReady : (State.atReset ctr rest).cmdReady = true := rfl

end

/-- Settles O11: the release of an asserted reset is `State.atReset`, and so is `State.reset`. -/
theorem resetTable : Obligations.ResetTable := by
  refine ⟨fun s rest hr hh => ⟨State.atReset s.freeCtr rest, ?_, ?_⟩, ?_⟩
  · rw [step_releaseReset hh, releaseRst_of_asserted _ _ hr]
  · simp
  · simp

/-- Settles O13: the control registers of the reset table are 0. -/
theorem resetSatisfiesInv : Obligations.ResetSatisfiesInv := by
  rw [Obligations.ResetSatisfiesInv, reset_eq_atReset]
  simp [State.Inv]

/-- Settles O46: each table evaluated over its whole index range, ALPHA at the ends of its ranges. -/
theorem romTables : Obligations.RomTables := by
  refine ⟨rfl, ?shift, ?noise, ?dest, ?alpha, rfl⟩
  case shift => decide
  case noise => decide
  case dest => decide
  case alpha => decide

end Sys2Proof.Machine
end

section
/-! The read port (`10_state.md` R42). -/

namespace Sys2Proof.Machine

/-- The two INUM bytes of the map carry all ten bits. -/
theorem inum_of_bytes (n : BitVec 10) :
    (n.extractLsb' 0 8).toNat + 2 ^ 8 * ((n.extractLsb' 8 2).setWidth 8).toNat = n.toNat := by
  have hn := n.isLt
  rw [BitVec.toNat_setWidth_of_le (by decide), BitVec.extractLsb'_toNat, BitVec.extractLsb'_toNat,
    Nat.shiftRight_eq_div_pow, Nat.shiftRight_eq_div_pow]
  omega

/-- Settles O53: the map's lemma of each range, at the address the port is given. -/
theorem readPortMap : Obligations.ReadPortMap := by
  refine ⟨readPort_status, fun s hb => ?_⟩
  intro rd
  have hrd : ∀ x, x < 512 → rd x = readMap s x := fun x => readPort_eq_readMap s x hb
  refine ⟨?buf, ?m, ?regs, ?digests, ?pw, ?pwlen, ?salt, ?len, ?inum, ?codes, ?reserved⟩
  case buf =>
    intro k hk _
    rw [hrd k (by omega), readMap_buf s k hk]
  case m =>
    intro k b
    rw [hrd _ (by omega), readMap_m s k _ b k.isLt b.isLt rfl, le32Byte_toNat]; rfl
  case regs =>
    intro b
    rw [hrd _ (by omega), hrd _ (by omega), hrd _ (by omega), hrd _ (by omega), readMap_a s b _ b.isLt rfl,
      readMap_b s b _ b.isLt rfl, readMap_c s b _ b.isLt rfl, readMap_d s b _ b.isLt rfl]
    simp only [le32Byte_toNat, and_self]
  case digests =>
    intro k
    rw [hrd _ (by omega), hrd _ (by omega), hrd _ (by omega), hrd _ (by omega)]
    exact ⟨readMap_dig s k k.isLt, readMap_alt s k k.isLt, readMap_int s k k.isLt, readMap_perm s k k.isLt⟩
  case pw =>
    intro k
    rw [hrd _ (by omega)]; exact readMap_pw s k k.isLt
  case pwlen => rw [hrd _ (by decide), readMap_pwlen, BitVec.toNat_setWidth_of_le (by decide)]
  case salt =>
    intro k
    rw [hrd _ (by omega)]; exact readMap_salt s k k.isLt
  case len => rw [hrd _ (by decide), readMap_len, BitVec.toNat_setWidth_of_le (by decide)]
  case inum =>
    rw [hrd _ (by decide), hrd _ (by decide), readMap_inumLow, readMap_inumHigh]
    exact inum_of_bytes s.inum
  case codes =>
    intro k
    rw [hrd _ (by omega), hrd _ (by omega), readMap_code s k k.isLt, BitVec.toNat_setWidth_of_le (by decide)]
    exact ⟨rfl, readMap_out s k k.isLt⟩
  case reserved =>
    intro x hx hres
    rw [hrd x hx, readMap_reserved s x hres]

end Sys2Proof.Machine
end

section
/-! The byte order of BUF, M and the read port (`20_memory.md` R51, R54). -/

namespace Sys2Proof.Machine

/-- Byte appends one after another that fit are one write of the sequence (`40_buffer.md` R100, R103). -/
theorem run_bapbs_of_fits (bs : List Byte) (s : State) (h : s.len.toNat + bs.length ≤ 64) :
    run (bs.map bapb) s =
      .ok (s.setBuf (writeBytes s.buf s.len.toNat bs) (s.len + BitVec.ofNat 7 bs.length)) := by
  induction bs generalizing s with
  | nil => rw [List.map_nil, run_nil, writeBytes_nil, setBuf_self s _ (by simp)]
  | cons b bs ih =>
    rw [List.length_cons] at h
    have hlen : (s.len + 1).toNat = s.len.toNat + 1 := by simpa using len_add_toNat s.len 1 (by omega)
    have hsum : s.len + 1 + BitVec.ofNat 7 bs.length = s.len + BitVec.ofNat 7 (b :: bs).length := by
      rw [BitVec.add_assoc, List.length_cons, Nat.add_comm bs.length 1, BitVec.ofNat_add]; rfl
    have hwrite := writeBytes_append s.buf s.len.toNat [b] bs
    rw [List.length_singleton, List.singleton_append] at hwrite
    rw [List.map_cons, run_cons, bapb, appendByte_of_lt _ _ (by omega), andThen_ok,
      ih _ (by rw [setBuf_len, hlen]; omega), setBuf_setBuf, setBuf_buf, setBuf_len, hlen, hsum, set_eq_writeBytes, hwrite]

/-- The word decoded from four bytes written at its own cells. -/
theorem bufWord_writeBytes (buf : Vector Byte 64) (k : Fin 16) (b0 b1 b2 b3 : Byte) :
    bufWord (writeBytes buf (4 * k.val) [b0, b1, b2, b3]) k = wordOfBytes b0 b1 b2 b3 := by
  simp [bufWord, writeBytes_getElem]

/-- Serialising a decoded word gives its four bytes back, in order (`20_memory.md` R54). -/
theorem le32Byte_wordOfBytes (b0 b1 b2 b3 : Byte) :
    le32Byte (wordOfBytes b0 b1 b2 b3) 0 = b0 ∧ le32Byte (wordOfBytes b0 b1 b2 b3) 1 = b1 ∧
    le32Byte (wordOfBytes b0 b1 b2 b3) 2 = b2 ∧ le32Byte (wordOfBytes b0 b1 b2 b3) 3 = b3 := by
  have h0 := b0.isLt
  have h1 := b1.isLt
  have h2 := b2.isLt
  have h3 := b3.isLt
  refine ⟨?_, ?_, ?_, ?_⟩ <;>
    (apply BitVec.eq_of_toNat_eq; rw [le32Byte_toNat, wordOfBytes_toNat]; omega)

/-- The state MUNP leaves (`41_md5.md` R122). -/
def State.unpacked (s : State) : State :=
  (s.setM (Vector.ofFn fun i => unpackedWord s i)).draw (if s.len.toNat < cap then 16 else 0)

section
variable (s : State) (k : Fin 16)

theorem munp_eq : munp s = .ok s.unpacked := rfl

@[simp] theorem unpacked_busy : s.unpacked.busy = s.busy := by rw [State.unpacked, draw_busy, setM_busy]
@[simp] theorem unpacked_fault : s.unpacked.fault = s.fault := by rw [State.unpacked, draw_fault, setM_fault]

/-- A word whose four cells lie below LEN is decoded from them (`41_md5.md` R122). -/
theorem unpacked_m_of_le (h : 4 * k.val + 4 ≤ s.len.toNat) : s.unpacked.m[k] = bufWord s.buf k := by
  simp [State.unpacked, unpackedWord, h]

/-- The read port of an idle core at byte `b` of M[k] (`10_state.md` R42). -/
theorem readPort_m (x b : Nat) (hs : s.busy = false) (hb : b < 4) (hx : x = 0x040 + 4 * k.val + b) :
    s.readPort (BitVec.ofNat 9 x) = le32Byte s.m[k] b := by
  rw [readPort_eq_readMap s x hs (by omega), readMap_m s k x b k.isLt hb hx]; rfl

/-- Four BAPB into the cells of word `k` and then MUNP: M[k] is the word of the four bytes, and STATUS stays. -/
theorem run_bapbs_munp (b0 b1 b2 b3 : Byte) (hlen : s.len.toNat = 4 * k.val) :
    ∃ t, run ([b0, b1, b2, b3].map bapb ++ [munp]) s = .ok t ∧ t.fault = s.fault ∧ t.busy = s.busy ∧
      t.m[k] = wordOfBytes b0 b1 b2 b3 := by
  have hfit : s.len.toNat + [b0, b1, b2, b3].length ≤ 64 := by simp; omega
  have hrun : run ([b0, b1, b2, b3].map bapb ++ [munp]) s =
      .ok (s.setBuf (writeBytes s.buf s.len.toNat [b0, b1, b2, b3]) (s.len + 4)).unpacked := by
    rw [run_append, run_bapbs_of_fits _ s hfit, andThen_ok, run_cons, munp_eq, andThen_ok, run_nil]; rfl
  have hcells : 4 * k.val + 4 ≤ (s.len + 4).toNat := by
    rw [← hlen]; exact (len_add_toNat s.len 4 hfit).ge
  refine ⟨_, hrun, by rw [unpacked_fault, setBuf_fault], by rw [unpacked_busy, setBuf_busy], ?_⟩
  rw [unpacked_m_of_le _ k hcells, setBuf_buf, hlen, bufWord_writeBytes]

end

/-- Settles O34: M[k] is the word of the four bytes, which `wordOfBytes_toNat` reads as a number and `le32Byte_wordOfBytes`
byte by byte, as the port does. -/
theorem byteOrderIsLittleEndian : Obligations.ByteOrderIsLittleEndian := by
  intro s k b0 b1 b2 b3 hfault hbusy hlen
  obtain ⟨t, hrun, htf, htb, hm⟩ := run_bapbs_munp s k b0 b1 b2 b3 hlen
  have hidle : t.busy = false := htb.trans hbusy
  obtain ⟨e0, e1, e2, e3⟩ := le32Byte_wordOfBytes b0 b1 b2 b3
  refine ⟨t, ?seq, htf.trans hfault, ?word, ?port0, ?port1, ?port2, ?port3⟩
  case seq =>
    have hwf : ∀ i ∈ [Instr.bapb b0, .bapb b1, .bapb b2, .bapb b3, .munp], i.wellFormed = true := by simp [Instr.wellFormed]
    rw [execSeq_eq _ s hfault hwf]
    exact congrArg Result.outcome hrun
  case word => rw [hm, wordOfBytes_toNat]
  case port0 => rw [readPort_m t k _ 0 hidle (by omega) (by omega), hm, e0]
  case port1 => rw [readPort_m t k _ 1 hidle (by omega) (by omega), hm, e1]
  case port2 => rw [readPort_m t k _ 2 hidle (by omega) (by omega), hm, e2]
  case port3 => rw [readPort_m t k _ 3 hidle (by omega) (by omega), hm, e3]

end Sys2Proof.Machine
end

section
/-! The decoder and the encoder are inverse, and the decoder is the opcode map (`30_encoding.md` R70 to R76). -/

namespace Sys2Proof

/-- The decoder's answer is that the word is reserved (R76). -/
def Decoded.IsReserved (d : Decoded) : Prop := ∃ why, d = .reserved why

@[simp] theorem isReserved_reserved (why : Reserved) : (Decoded.reserved why).IsReserved := ⟨why, rfl⟩
@[simp] theorem not_isReserved_instr (i : Instr) : ¬ (Decoded.instr i).IsReserved := by
  rintro ⟨why, h⟩; cases h

/-! The decoder at a packed word, major opcode by major opcode (R73). -/

section
variable (fn : BitVec 4) (imm : Byte)

@[simp] theorem decode_packWord_buf : decode (packWord 1 fn imm) = decodeBuf fn imm := by
  rw [decode, opField_packWord, fnField_packWord, immField_packWord]; rfl
@[simp] theorem decode_packWord_md5 : decode (packWord 2 fn imm) = decodeMd5 fn imm := by
  rw [decode, opField_packWord, fnField_packWord, immField_packWord]; rfl
@[simp] theorem decode_packWord_ldpw : decode (packWord 3 fn imm) =
    if fn.toNat ≤ 14 then .instr (.ldpw fn imm) else .reserved .index := by
  rw [decode, opField_packWord, fnField_packWord, immField_packWord]; rfl
@[simp] theorem decode_packWord_ldsl : decode (packWord 4 fn imm) =
    if fn.toNat ≤ 7 then .instr (.ldsl fn imm) else .reserved .index := by
  rw [decode, opField_packWord, fnField_packWord, immField_packWord]; rfl
@[simp] theorem decode_packWord_lddg : decode (packWord 5 fn imm) = .instr (.lddg fn imm) := by
  rw [decode, opField_packWord, fnField_packWord, immField_packWord]; rfl
@[simp] theorem decode_packWord_pwh : decode (packWord 6 fn imm) = decodePwh fn imm := by
  rw [decode, opField_packWord, fnField_packWord, immField_packWord]; rfl
@[simp] theorem decode_packWord_enc : decode (packWord 7 fn imm) = decodeEnc fn imm := by
  rw [decode, opField_packWord, fnField_packWord, immField_packWord]; rfl

/-- The major opcodes that no row has (R76). -/
theorem decode_packWord_unassigned {op : BitVec 4} (h : op.toNat = 0 ∨ 8 ≤ op.toNat) :
    decode (packWord op fn imm) = .reserved .opcode := by
  rw [decode, opField_packWord, fnField_packWord, immField_packWord]
  split
  case h_8 => rfl
  all_goals omega

end

/-- The assigned major opcodes, and the others. -/
theorem opcode_cases : ∀ op : BitVec 4,
    op = 1 ∨ op = 2 ∨ op = 3 ∨ op = 4 ∨ op = 5 ∨ op = 6 ∨ op = 7 ∨ op.toNat = 0 ∨ 8 ≤ op.toNat := by
  decide

/-! The formats of R71: each decodes the immediate bytes that spell an operand, to the command with that operand. -/

section
variable {imm : Byte} {i j i0 i1 : Instr}

theorem formatN_eq_instr (h : formatN imm j = .instr i) : i = j ∧ imm = 0 := by
  rw [formatN] at h
  split at h
  · cases h; exact ⟨rfl, ‹_›⟩
  · cases h
theorem formatS_sel (sel : BapsSource) : formatS (sel.sel.setWidth 8) = .instr (.baps sel) := by cases sel <;> rfl

theorem formatS_eq_instr (h : formatS imm = .instr i) : ∃ sel, i = .baps sel ∧ imm = sel.sel.setWidth 8 := by
  rw [formatS] at h
  split at h
  case h_7 => split at h <;> cases h
  all_goals
    cases h
    exact ⟨_, rfl, BitVec.eq_of_toNat_eq ‹_›⟩

theorem formatR_setWidth (r : BitVec 6) : formatR (r.setWidth 8) = .instr (.mrnd r) := by
  revert r; decide

theorem formatR_eq_instr (h : formatR imm = .instr i) : ∃ r, i = .mrnd r ∧ imm = r.setWidth 8 := by
  rw [formatR] at h
  split at h
  · cases h
    refine ⟨_, rfl, BitVec.eq_of_toNat_eq ?_⟩
    simp; omega
  · cases h

theorem formatL_setWidth (n : BitVec 4) : formatL (n.setWidth 8) = .instr (.ldpl n) := by
  revert n; decide

theorem formatL_eq_instr (h : formatL imm = .instr i) : ∃ n, i = .ldpl n ∧ imm = n.setWidth 8 := by
  rw [formatL] at h
  split at h
  · cases h
    refine ⟨_, rfl, BitVec.eq_of_toNat_eq ?_⟩
    simp; omega
  · cases h

theorem formatQ_eq_instr (h : formatQ imm i0 i1 = .instr i) : (i = i0 ∧ imm = 0) ∨ (i = i1 ∧ imm = 1) := by
  rw [formatQ] at h
  split at h
  · cases h; exact .inl ⟨rfl, BitVec.eq_of_toNat_eq ‹_›⟩
  · cases h; exact .inr ⟨rfl, BitVec.eq_of_toNat_eq ‹_›⟩
  · cases h

end

/-- Settles O2: the fields of a packed word come back, and each format gives back the operand spelled in its byte. -/
theorem decodeOfEncodeIsTheInstr : Obligations.DecodeOfEncodeIsTheInstr := by
  intro i hw
  cases i with
  | baps sel => exact (decode_packWord_buf _ _).trans (formatS_sel sel)
  | mrnd r => exact (decode_packWord_md5 _ _).trans (formatR_setWidth r)
  | ldpl n => exact (decode_packWord_pwh _ _).trans (formatL_setWidth n)
  | ldpw idx imm8 => rw [encode, decode_packWord_ldpw, if_pos (of_decide_eq_true hw)]
  | ldsl idx imm8 => rw [encode, decode_packWord_ldsl, if_pos (of_decide_eq_true hw)]
  | lddg idx imm8 => exact decode_packWord_lddg idx imm8
  | bapb imm8 => exact decode_packWord_buf 1 imm8
  | mvd q => cases q <;> exact decode_packWord_pwh 1 _
  | eprm q => cases q <;> exact decode_packWord_enc 0 _
  | enc q => cases q <;> exact decode_packWord_enc 15 _
  | bclr => exact decode_packWord_buf 0 0
  | mpad => exact decode_packWord_md5 0 0
  | munp => exact decode_packWord_md5 1 0
  | mini => exact decode_packWord_md5 2 0
  | mfin => exact decode_packWord_md5 4 0
  | md5h => exact decode_packWord_md5 15 0
  | clri => exact decode_packWord_pwh 2 0
  | palt => exact decode_packWord_pwh 3 0
  | pint => exact decode_packWord_pwh 4 0
  | prnd => exact decode_packWord_pwh 5 0
  | pwh => exact decode_packWord_pwh 15 0
  | epak => exact decode_packWord_enc 1 0
  | emap => exact decode_packWord_enc 2 0

/-! Each family decodes a word only to the command whose word it is (R73). -/

section
variable {fn : BitVec 4} {imm : Byte} {i : Instr}

theorem encode_of_decodeBuf (h : decodeBuf fn imm = .instr i) : encode i = packWord 1 fn imm := by
  rw [decodeBuf] at h
  split at h
  case h_1 hfn =>
    obtain rfl : fn = 0 := BitVec.eq_of_toNat_eq hfn
    obtain ⟨rfl, rfl⟩ := formatN_eq_instr h; rfl
  case h_2 hfn =>
    obtain rfl : fn = 1 := BitVec.eq_of_toNat_eq hfn
    cases h; rfl
  case h_3 hfn =>
    obtain rfl : fn = 2 := BitVec.eq_of_toNat_eq hfn
    obtain ⟨sel, rfl, rfl⟩ := formatS_eq_instr h; rfl
  case h_4 => cases h

theorem encode_of_decodeMd5 (h : decodeMd5 fn imm = .instr i) : encode i = packWord 2 fn imm := by
  rw [decodeMd5] at h
  split at h
  case h_4 hfn =>
    obtain rfl : fn = 3 := BitVec.eq_of_toNat_eq hfn
    obtain ⟨r, rfl, rfl⟩ := formatR_eq_instr h; rfl
  case h_7 => cases h
  all_goals
    obtain ⟨rfl, rfl⟩ := formatN_eq_instr h
    exact congrArg (packWord 2 · 0) (BitVec.eq_of_toNat_eq (Eq.symm ‹_›))

theorem encode_of_decodePwh (h : decodePwh fn imm = .instr i) : encode i = packWord 6 fn imm := by
  rw [decodePwh] at h
  split at h
  case h_1 hfn =>
    obtain rfl : fn = 0 := BitVec.eq_of_toNat_eq hfn
    obtain ⟨n, rfl, rfl⟩ := formatL_eq_instr h; rfl
  case h_2 hfn =>
    obtain rfl : fn = 1 := BitVec.eq_of_toNat_eq hfn
    obtain ⟨rfl, rfl⟩ | ⟨rfl, rfl⟩ := formatQ_eq_instr h <;> rfl
  case h_8 => cases h
  all_goals
    obtain ⟨rfl, rfl⟩ := formatN_eq_instr h
    exact congrArg (packWord 6 · 0) (BitVec.eq_of_toNat_eq (Eq.symm ‹_›))

theorem encode_of_decodeEnc (h : decodeEnc fn imm = .instr i) : encode i = packWord 7 fn imm := by
  rw [decodeEnc] at h
  split at h
  case h_1 hfn =>
    obtain rfl : fn = 0 := BitVec.eq_of_toNat_eq hfn
    obtain ⟨rfl, rfl⟩ | ⟨rfl, rfl⟩ := formatQ_eq_instr h <;> rfl
  case h_4 hfn =>
    obtain rfl : fn = 15 := BitVec.eq_of_toNat_eq hfn
    obtain ⟨rfl, rfl⟩ | ⟨rfl, rfl⟩ := formatQ_eq_instr h <;> rfl
  case h_5 => cases h
  all_goals
    obtain ⟨rfl, rfl⟩ := formatN_eq_instr h
    exact congrArg (packWord 7 · 0) (BitVec.eq_of_toNat_eq (Eq.symm ‹_›))

theorem encode_of_decode_packWord {op : BitVec 4} (h : decode (packWord op fn imm) = .instr i) :
    encode i = packWord op fn imm := by
  obtain rfl | rfl | rfl | rfl | rfl | rfl | rfl | hop := opcode_cases op
  · exact encode_of_decodeBuf (by rwa [decode_packWord_buf] at h)
  · exact encode_of_decodeMd5 (by rwa [decode_packWord_md5] at h)
  · rw [decode_packWord_ldpw] at h
    split at h <;> cases h
    rfl
  · rw [decode_packWord_ldsl] at h
    split at h <;> cases h
    rfl
  · rw [decode_packWord_lddg] at h
    cases h; rfl
  · exact encode_of_decodePwh (by rwa [decode_packWord_pwh] at h)
  · exact encode_of_decodeEnc (by rwa [decode_packWord_enc] at h)
  · rw [decode_packWord_unassigned fn imm hop] at h
    cases h

end

/-- Settles O3: a word is its three fields, and each family gives back the word. -/
theorem encodeOfDecodeIsTheWord : Obligations.EncodeOfDecodeIsTheWord := by
  intro cw i h
  refine ⟨decode_wellFormed h, ?_⟩
  rw [← packWord_fields cw] at h ⊢
  exact encode_of_decode_packWord h

/-- The decoder is the inverse of the encoder on well-formed commands. -/
theorem decode_eq_instr_iff {cw : CmdWord} {i : Instr} : decode cw = .instr i ↔ i.wellFormed = true ∧ encode i = cw := by
  constructor
  · exact encodeOfDecodeIsTheWord cw i
  · rintro ⟨hw, rfl⟩
    exact decodeOfEncodeIsTheInstr i hw

/-! A row of the opcode map: a mask that clears the low operand bits, and the operand in those bits (R72, R73). -/

/-- Bits are equal when they are equal under a mask of the bits from `k` on, and in the `k` low bits. -/
theorem eq_iff_high_low {w : Nat} (k : Nat) (x y : BitVec w) :
    x = y ↔ x &&& BitVec.allOnes w <<< k = y &&& BitVec.allOnes w <<< k ∧ x.extractLsb' 0 k = y.extractLsb' 0 k := by
  constructor
  · rintro rfl; exact ⟨rfl, rfl⟩
  · rintro ⟨hhigh, hlow⟩
    refine BitVec.eq_of_getLsbD_eq fun n hn => ?_
    by_cases hk : n < k
    · simpa [hk] using congrArg (BitVec.getLsbD · n) hlow
    · simpa [hk, hn, show n - k < w by omega] using congrArg (BitVec.getLsbD · n) hhigh

/-- The word of a command under its row's mask (R73). -/
theorem encode_and_mask (i : Instr) : encode i &&& i.mask = i.matchBits := by
  cases i with
  | bclr => exact Laws.EncodeRow.bclr
  | bapb imm8 => exact Laws.EncodeRow.bapb imm8
  | baps sel => exact Laws.EncodeRow.baps sel
  | mpad => exact Laws.EncodeRow.mpad
  | munp => exact Laws.EncodeRow.munp
  | mini => exact Laws.EncodeRow.mini
  | mrnd r => exact Laws.EncodeRow.mrnd r
  | mfin => exact Laws.EncodeRow.mfin
  | md5h => exact Laws.EncodeRow.md5h
  | ldpw idx imm8 => exact Laws.EncodeRow.ldpw idx imm8
  | ldsl idx imm8 => exact Laws.EncodeRow.ldsl idx imm8
  | lddg idx imm8 => exact Laws.EncodeRow.lddg idx imm8
  | ldpl n => exact Laws.EncodeRow.ldpl n
  | mvd q => exact Laws.EncodeRow.mvd q
  | clri => exact Laws.EncodeRow.clri
  | palt => exact Laws.EncodeRow.palt
  | pint => exact Laws.EncodeRow.pint
  | prnd => exact Laws.EncodeRow.prnd
  | pwh => exact Laws.EncodeRow.pwh
  | eprm q => exact Laws.EncodeRow.eprm q
  | epak => exact Laws.EncodeRow.epak
  | emap => exact Laws.EncodeRow.emap
  | enc q => exact Laws.EncodeRow.enc q

/-- The low bits of a word whose immediate byte spells an operand of at most 8 bits are that operand. -/
theorem low_packWord_setWidth {k : Nat} (hk : k ≤ 8) (op fn : BitVec 4) (x : BitVec k) :
    (packWord op fn (x.setWidth 8)).extractLsb' 0 k = x := by
  refine BitVec.eq_of_getLsbD_eq fun n hn => ?_
  simp [getLsbD_packWord, hn, show n < 8 by omega]

/-- The low 12 bits of a word are the index nibble and the immediate byte. -/
theorem low_packWord (op fn : BitVec 4) (imm : Byte) : (packWord op fn imm).extractLsb' 0 12 = fn ++ imm := by
  refine BitVec.eq_of_getLsbD_eq fun n hn => ?_
  rw [BitVec.getLsbD_append, BitVec.getLsbD_extractLsb', getLsbD_packWord]
  simp [hn]

section
variable {cw : CmdWord} (i : Instr) {k : Nat}

/-- A row whose `k` low bits hold the operand `x`: mask, match and constraint say when a word decodes to the row's command
with that operand. -/
theorem row_iff {x : BitVec k} (hmask : i.mask = BitVec.allOnes 16 <<< k) (hx : (encode i).extractLsb' 0 k = x) :
    (cw &&& i.mask = i.matchBits ∧ cw.extractLsb' 0 k = x) ∧ i.wellFormed = true ↔ decode cw = .instr i := by
  rw [decode_eq_instr_iff, eq_comm (a := encode i), eq_iff_high_low k cw, ← hmask, encode_and_mask, hx, and_comm]

/-- The row of a command that takes its operand from the word (R72). -/
theorem operand_row_iff (hmask : i.mask = BitVec.allOnes 16 <<< k)
    (hx : (encode i).extractLsb' 0 k = cw.extractLsb' 0 k) :
    cw &&& i.mask = i.matchBits ∧ i.wellFormed = true ↔ decode cw = .instr i := by
  rw [← row_iff i hmask hx, and_iff_left rfl]

/-- `operand_row_iff` for a row with an empty constraint column. -/
theorem free_operand_row_iff (hw : i.wellFormed = true) (hmask : i.mask = BitVec.allOnes 16 <<< k)
    (hx : (encode i).extractLsb' 0 k = cw.extractLsb' 0 k) :
    cw &&& i.mask = i.matchBits ↔ decode cw = .instr i := by
  rw [← operand_row_iff i hmask hx, and_iff_left hw]

/-- The row of a format-N command: the mask is all ones. -/
theorem noOperand_row_iff (hw : i.wellFormed = true) (hmask : i.mask = 0xFFFF) :
    cw &&& i.mask = i.matchBits ↔ decode cw = .instr i :=
  free_operand_row_iff (k := 0) i hw hmask (Subsingleton.elim _ _)

/-- The row of a command with a selector, for the name of each selector (R74, R75). -/
theorem selector_row_iff (hw : i.wellFormed = true) {x : BitVec k} (hmask : i.mask = BitVec.allOnes 16 <<< k)
    (hx : (encode i).extractLsb' 0 k = x) :
    cw &&& i.mask = i.matchBits ∧ cw.extractLsb' 0 k = x ↔ decode cw = .instr i := by
  rw [← row_iff i hmask hx, and_iff_left hw]

theorem baps_row_iff (sel : BapsSource) :
    cw &&& 0xFFF8 = 0x1200 ∧ cw.extractLsb' 0 3 = sel.sel ↔ decode cw = .instr (.baps sel) :=
  selector_row_iff (.baps sel) rfl rfl (low_packWord_setWidth (by decide) 1 2 sel.sel)

theorem mvd_row_iff (q : MvdDest) :
    cw &&& 0xFFFE = 0x6100 ∧ cw.extractLsb' 0 1 = q.q ↔ decode cw = .instr (.mvd q) :=
  selector_row_iff (.mvd q) rfl rfl (low_packWord_setWidth (by decide) 6 1 q.q)

theorem eprm_row_iff (q : DigestSource) :
    cw &&& 0xFFFE = 0x7000 ∧ cw.extractLsb' 0 1 = q.q ↔ decode cw = .instr (.eprm q) :=
  selector_row_iff (.eprm q) rfl rfl (low_packWord_setWidth (by decide) 7 0 q.q)

theorem enc_row_iff (q : DigestSource) :
    cw &&& 0xFFFE = 0x7F00 ∧ cw.extractLsb' 0 1 = q.q ↔ decode cw = .instr (.enc q) :=
  selector_row_iff (.enc q) rfl rfl (low_packWord_setWidth (by decide) 7 15 q.q)

/-- Format X: index nibble and immediate byte are the 12 low bits, and the index may be constrained (R72). -/
theorem indexed_row_iff (op : BitVec 4) (hmask : i.mask = 0xF000)
    (he : encode i = packWord op (cw.extractLsb' 8 4) (cw.extractLsb' 0 8)) :
    cw &&& i.mask = i.matchBits ∧ i.wellFormed = true ↔ decode cw = .instr i := by
  refine operand_row_iff (k := 12) i hmask ?_
  rw [he, low_packWord]
  exact BitVec.extractLsb'_append_extractLsb'_eq_extractLsb' rfl

end

/-- Settles O4, row by row. -/
theorem decodeFollowsTheOpcodeMap : Obligations.DecodeFollowsTheOpcodeMap := by
  intro cw imm8 idx sel q
  refine ⟨noOperand_row_iff .bclr rfl rfl, ?bapb, baps_row_iff .pw, baps_row_iff .salt, baps_row_iff .marker,
    baps_row_iff .altp, baps_row_iff .int, baps_row_iff .pw0, noOperand_row_iff .mpad rfl rfl,
    noOperand_row_iff .munp rfl rfl, noOperand_row_iff .mini rfl rfl, ?mrnd, noOperand_row_iff .mfin rfl rfl,
    noOperand_row_iff .md5h rfl rfl, ?ldpw, ?ldsl, ?lddg, ?ldpl, mvd_row_iff .alt, mvd_row_iff .int,
    noOperand_row_iff .clri rfl rfl, noOperand_row_iff .palt rfl rfl, noOperand_row_iff .pint rfl rfl,
    noOperand_row_iff .prnd rfl rfl, noOperand_row_iff .pwh rfl rfl, eprm_row_iff .dig, eprm_row_iff .int,
    noOperand_row_iff .epak rfl rfl, noOperand_row_iff .emap rfl rfl, enc_row_iff .dig, enc_row_iff .int⟩
  case bapb => exact free_operand_row_iff (.bapb imm8) rfl rfl (immField_packWord 1 1 imm8)
  case mrnd => exact free_operand_row_iff (.mrnd _) rfl rfl (low_packWord_setWidth (by decide) 2 3 _)
  case ldpl => exact free_operand_row_iff (.ldpl _) rfl rfl (low_packWord_setWidth (by decide) 6 0 _)
  case lddg => rw [← indexed_row_iff (.lddg idx imm8) 5 rfl rfl]; exact (and_iff_left rfl).symm
  case ldpw => rw [← indexed_row_iff (.ldpw idx imm8) 3 rfl rfl]; exact and_congr_right' decide_eq_true_iff.symm
  case ldsl => rw [← indexed_row_iff (.ldsl idx imm8) 4 rfl rfl]; exact and_congr_right' decide_eq_true_iff.symm

/-- Settles O1: each word decodes by evaluation. -/
theorem decodeSampleWords : Obligations.DecodeSampleWords := by
  unfold Obligations.DecodeSampleWords
  decide

/-! The reserved immediate bytes of each format, and the reserved words of each family (R71, R76). -/

section
variable (fn : BitVec 4) (imm : Byte) (i j : Instr)

@[simp] theorem formatN_isReserved : (formatN imm i).IsReserved ↔ imm.toNat ≠ 0 := by
  have h0 : imm.toNat = 0 ↔ imm = 0 := BitVec.toNat_inj (y := 0)
  rw [formatN, ne_eq, h0]
  split
  case isTrue h => simp [h]
  case isFalse h => simpa using h
@[simp] theorem formatS_isReserved : (formatS imm).IsReserved ↔ 6 ≤ imm.toNat := by
  rw [formatS]
  split
  case h_7 =>
    simp only [imp_false] at *
    split <;> simp only [isReserved_reserved, true_iff] <;> omega
  all_goals simp [*]
@[simp] theorem formatR_isReserved : (formatR imm).IsReserved ↔ 64 ≤ imm.toNat := by
  rw [formatR]
  split <;> simp <;> omega
@[simp] theorem formatL_isReserved : (formatL imm).IsReserved ↔ 16 ≤ imm.toNat := by
  rw [formatL]
  split <;> simp <;> omega
@[simp] theorem formatQ_isReserved : (formatQ imm i j).IsReserved ↔ 2 ≤ imm.toNat := by
  rw [formatQ]
  split
  case h_3 => simp only [imp_false, isReserved_reserved, true_iff] at *; omega
  all_goals simp [*]

theorem decodeBuf_isReserved : (decodeBuf fn imm).IsReserved ↔
    3 ≤ fn.toNat ∨ (fn.toNat = 0 ∧ imm.toNat ≠ 0) ∨ (fn.toNat = 2 ∧ 6 ≤ imm.toNat) := by
  rw [decodeBuf]
  split
  case h_4 => simp only [imp_false, isReserved_reserved, true_iff] at *; omega
  all_goals simp [*]
theorem decodeMd5_isReserved : (decodeMd5 fn imm).IsReserved ↔
    (5 ≤ fn.toNat ∧ fn.toNat ≤ 14) ∨ ((fn.toNat ≤ 2 ∨ fn.toNat = 4 ∨ fn.toNat = 15) ∧ imm.toNat ≠ 0) ∨
      (fn.toNat = 3 ∧ 64 ≤ imm.toNat) := by
  rw [decodeMd5]
  split
  case h_7 => simp only [imp_false, isReserved_reserved, true_iff] at *; omega
  all_goals simp [*]
theorem decodePwh_isReserved : (decodePwh fn imm).IsReserved ↔
    (6 ≤ fn.toNat ∧ fn.toNat ≤ 14) ∨ ((2 ≤ fn.toNat ∧ fn.toNat ≤ 5 ∨ fn.toNat = 15) ∧ imm.toNat ≠ 0) ∨
      (fn.toNat = 0 ∧ 16 ≤ imm.toNat) ∨ (fn.toNat = 1 ∧ 2 ≤ imm.toNat) := by
  rw [decodePwh]
  split
  case h_8 => simp only [imp_false, isReserved_reserved, true_iff] at *; omega
  all_goals simp [*]
theorem decodeEnc_isReserved : (decodeEnc fn imm).IsReserved ↔
    (3 ≤ fn.toNat ∧ fn.toNat ≤ 14) ∨ ((fn.toNat = 1 ∨ fn.toNat = 2) ∧ imm.toNat ≠ 0) ∨
      ((fn.toNat = 0 ∨ fn.toNat = 15) ∧ 2 ≤ imm.toNat) := by
  rw [decodeEnc]
  split
  case h_5 => simp only [imp_false, isReserved_reserved, true_iff] at *; omega
  all_goals simp [*]

end

/-- The list of R76, over the fields of a word as numbers. -/
def ReservedFields (op fn imm : Nat) : Prop :=
  op = 0 ∨ op ≥ 8 ∨
  (op = 1 ∧ fn ≥ 3) ∨ (op = 2 ∧ 5 ≤ fn ∧ fn ≤ 14) ∨ (op = 6 ∧ 6 ≤ fn ∧ fn ≤ 14) ∨ (op = 7 ∧ 3 ≤ fn ∧ fn ≤ 14) ∨
  (op = 1 ∧ fn = 0 ∧ imm ≠ 0) ∨ (op = 2 ∧ (fn ≤ 2 ∨ fn = 4 ∨ fn = 15) ∧ imm ≠ 0) ∨
  (op = 6 ∧ (2 ≤ fn ∧ fn ≤ 5 ∨ fn = 15) ∧ imm ≠ 0) ∨ (op = 7 ∧ (fn = 1 ∨ fn = 2) ∧ imm ≠ 0) ∨
  (op = 1 ∧ fn = 2 ∧ imm ≥ 8) ∨ (op = 2 ∧ fn = 3 ∧ imm ≥ 64) ∨ (op = 6 ∧ fn = 0 ∧ imm ≥ 16) ∨
  (op = 6 ∧ fn = 1 ∧ imm ≥ 2) ∨ (op = 7 ∧ (fn = 0 ∨ fn = 15) ∧ imm ≥ 2) ∨
  (op = 1 ∧ fn = 2 ∧ (imm = 6 ∨ imm = 7)) ∨ (op = 3 ∧ fn = 15) ∨ (op = 4 ∧ fn ≥ 8)

/-- The reserved words, major opcode by major opcode. -/
theorem decode_packWord_isReserved (op fn : BitVec 4) (imm : Byte) :
    (decode (packWord op fn imm)).IsReserved ↔ ReservedFields op.toNat fn.toNat imm.toNat := by
  have hfn := fn.isLt
  obtain rfl | rfl | rfl | rfl | rfl | rfl | rfl | hop := opcode_cases op
  · rw [decode_packWord_buf, decodeBuf_isReserved]
    simp [ReservedFields]; omega
  · rw [decode_packWord_md5, decodeMd5_isReserved]
    simp [ReservedFields]
  · rw [decode_packWord_ldpw]
    split <;> simp [ReservedFields] <;> omega
  · rw [decode_packWord_ldsl]
    split <;> simp [ReservedFields] <;> omega
  · rw [decode_packWord_lddg]
    simp [ReservedFields]
  · rw [decode_packWord_pwh, decodePwh_isReserved]
    simp [ReservedFields]
  · rw [decode_packWord_enc, decodeEnc_isReserved]
    simp [ReservedFields]
  · rw [decode_packWord_unassigned fn imm hop]
    simp only [isReserved_reserved, true_iff]
    exact hop.imp_right .inl

/-- The reserved words, of a word as a number. -/
theorem decode_isReserved (cw : CmdWord) : (decode cw).IsReserved ↔
    ReservedFields (cw.toNat / 2 ^ 12) (cw.toNat / 2 ^ 8 % 2 ^ 4) (cw.toNat % 2 ^ 8) := by
  have hword := packWord_toNat (opField cw) (fnField cw) (immField cw)
  have hfn := (fnField cw).isLt
  have himm := (immField cw).isLt
  rw [packWord_fields] at hword
  have hop' : cw.toNat / 2 ^ 12 = (opField cw).toNat := by omega
  have hfn' : cw.toNat / 2 ^ 8 % 2 ^ 4 = (fnField cw).toNat := by omega
  have himm' : cw.toNat % 2 ^ 8 = (immField cw).toNat := by omega
  rw [hop', hfn', himm', ← decode_packWord_isReserved, packWord_fields]

end Sys2Proof
end

section
/-! The command port: what a step does with a presented word (`30_encoding.md` R76, R81). -/

namespace Sys2Proof.Machine

section
variable {s t : State} {cw : CmdWord} {rest : List HostEvent}

/-- `cmd_ready` = 1 exactly when BUSY = 0 and FAULT = 0 (R81). -/
theorem cmdReady_iff : s.cmdReady = true ↔ s.busy = false ∧ s.fault = false := by
  simp [State.cmdReady]

/-- A word is accepted exactly when `cmd_ready` = 1 and `rst` is released (R81, `70_reset_and_hazards.md` R250). -/
theorem accepts_iff : s.accepts = true ↔ s.cmdReady = true ∧ s.rst = false := by
  simp [State.accepts]

theorem accepts_of_not_cmdReady (h : s.cmdReady = false) : s.accepts = false := by
  rw [State.accepts, h, Bool.false_and]

/-- An accepted reserved word is refused, with or without a reset that would follow inside the command. -/
theorem step_of_reserved {why : Reserved} (h : s.host = .present cw :: rest ∨ s.host = .presentThenReset cw :: rest)
    (ha : s.accepts = true) (hd : decode cw = .reserved why) : step s = .refused (.reservedWord why) := by
  obtain h | h := h
  · rw [step_present_of_accepts h ha, runWord_of_reserved hd]
  · rw [step_presentThenReset_of_accepts h ha, abandonWord_of_reserved hd]

/-- What a run of an accepted word leaves: BUSY is 0 and the host's events are as before it. -/
theorem runWord_next (h : runWord cw s = .next t) : t.busy = false ∧ t.host = s.host := by
  cases hd : decode cw with
  | reserved why => rw [runWord_of_reserved hd] at h; cases h
  | instr i =>
    obtain ⟨u, hu⟩ := exec_next_of_wellFormed i s (decode_wellFormed hd)
    rw [runWord_of_instr hd, hu, completeCommand_next] at h
    cases h
    exact ⟨rfl, (exec_host hu : u.host = s.host)⟩

/-- After a word met with `cmd_ready` = 1, accepted or kept out by `rst`, BUSY is 0 and the event is used up. -/
theorem step_present_ends (h : s.host = .present cw :: rest) (hr : s.cmdReady = true) (ht : step s = .next t) :
    t.busy = false ∧ t.host = rest := by
  cases ha : s.accepts with
  | true =>
    rw [step_present_of_accepts h ha] at ht
    exact runWord_next ht
  | false =>
    rw [step_present_of_ignores h ha] at ht
    cases ht
    exact ⟨(cmdReady_iff.mp hr).1, rfl⟩

end

/-- Settles O5: `decode_isReserved` for the list, `step_of_reserved` for the step; 0x0000 and 0xFFFF by evaluation. -/
theorem reservedWordsAreRefused : Obligations.ReservedWordsAreRefused :=
  ⟨decode_isReserved, fun _ _ _ _ h => step_of_reserved h, ⟨.opcode, rfl⟩, ⟨.opcode, rfl⟩⟩

/-- Settles O6: the word is accepted, and the command it decodes to is well-formed, so it answers a next state. -/
theorem stepRunsTheDecodedInstr : Obligations.StepRunsTheDecodedInstr := by
  intro s cw rest i hhost hbusy hfault hrst hd
  have ha : s.accepts = true := accepts_iff.mpr ⟨cmdReady_iff.mpr ⟨hbusy, hfault⟩, hrst⟩
  obtain ⟨u, hu⟩ := exec_next_of_wellFormed i (acceptCommand rest s) (decode_wellFormed hd)
  refine ⟨u, hu, ?_⟩
  rw [step_present_of_accepts hhost ha, runWord_of_instr hd, hu, completeCommand_next]

/-- Settles O7: a core that is not ready ignores the word, and after a word met ready only FAULT keeps `cmd_ready` at 0. -/
theorem commandPort : Obligations.CommandPort := by
  intro s
  refine ⟨cmdReady_iff, fun cw rest h hr => step_present_of_ignores h (accepts_of_not_cmdReady hr), ?_⟩
  intro cw rest t h hr ht
  obtain ⟨hbusy, hhost⟩ := step_present_ends h hr ht
  exact ⟨hbusy, hhost, cmdReady_iff.trans (and_iff_right hbusy)⟩

end Sys2Proof.Machine
end

section
/-! What the appends do, and the commands made of one append (`40_buffer.md` R100 to R105). -/

namespace Sys2Proof.Machine

section
variable (bs : List Byte) (s : State)

/-- What a cell holds after a multi-byte write, the range written as one interval. -/
theorem writeBytes_getElem_eq_getD (buf : Vector Byte 64) (at0 k : Nat) (hk : k < 64) :
    (writeBytes buf at0 bs)[k] =
      if at0 ≤ k ∧ k < at0 + bs.length then bs.getD (k - at0) 0 else buf[k] := by
  have hrange : at0 ≤ k ∧ k - at0 < bs.length ↔ at0 ≤ k ∧ k < at0 + bs.length := by omega
  rw [writeBytes_getElem]
  by_cases h : at0 ≤ k ∧ k - at0 < bs.length
  · rw [dif_pos h, if_pos (hrange.mp h), List.getD_eq_getElem _ _ h.2]
  · rw [dif_neg h, if_neg (mt hrange.mpr h)]

/-- An append that fits, cell by cell (`40_buffer.md` R101). -/
theorem appendBytes_cells (h : s.len.toNat + bs.length ≤ 64) :
    ∃ buf len, appendBytes bs s = .ok (s.setBuf buf len) ∧ len.toNat = s.len.toNat + bs.length ∧
      ∀ (k : Nat) (hk : k < 64), buf[k] =
        if s.len.toNat ≤ k ∧ k < s.len.toNat + bs.length then bs.getD (k - s.len.toNat) 0 else s.buf[k] :=
  ⟨_, _, appendBytes_of_fits bs s h, len_add_toNat _ _ h, writeBytes_getElem_eq_getD bs s.buf _⟩

theorem appendBytes_nil (h : s.len.toNat ≤ 64) : appendBytes [] s = .ok s := by
  rw [appendBytes_of_fits [] s h, writeBytes_nil, setBuf_self s _ (by simp)]

end

/-- Settles O16: the two branches of `appendByte`. -/
theorem appendByteRule : Obligations.AppendByteRule :=
  fun b s => ⟨fun h => appendByte_of_ge b s (by simp [h]), appendByte_of_lt b s⟩

/-- Settles O17: the two branches of `appendBytes`, the first cell by cell. -/
theorem appendBytesRule : Obligations.AppendBytesRule :=
  fun bs s hs => ⟨appendBytes_of_over bs s, appendBytes_cells bs s, appendBytes_nil s hs,
    fun b => (appendByte_eq_appendBytes b s hs).symm⟩

/-- Settles O18: the word is BCLR's, and `bclr` draws the cells it leaves. -/
theorem bclrEmptiesTheBuffer : Obligations.BclrEmptiesTheBuffer :=
  ⟨rfl, fun s => ⟨freeBuf s.freeCtr, s.freeCtr + 64, rfl⟩⟩

/-- Settles O19: the cells of `freeBuf`. -/
theorem bclrDrawsAfresh : Obligations.BclrDrawsAfresh :=
  fun s => ⟨freeBuf s.freeCtr, rfl, fun k hk => by rw [freeBuf, Vector.getElem_ofFn]⟩

/-- The word of BAPB (`30_encoding.md` R73). -/
theorem encode_bapb (imm8 : Byte) : encode (.bapb imm8) = 0x1100 + imm8.setWidth 16 := by
  refine BitVec.eq_of_toNat_eq ?_
  rw [encode, packWord_toNat, BitVec.toNat_add, BitVec.toNat_setWidth_of_le (by decide)]
  have himm := imm8.isLt
  simp; omega

theorem exec_bapb (imm8 : Byte) (s : State) : exec (.bapb imm8) s = (appendByte imm8 s).outcome := rfl

/-- Settles O20: the outcome of the one `appendByte`. -/
theorem bapbAppendsAByte : Obligations.BapbAppendsAByte := by
  intro imm8 s
  refine ⟨decode_eq_instr_iff.mpr ⟨rfl, encode_bapb imm8⟩, fun h => ?fits, fun h => ?full⟩
  case fits => rw [exec_bapb, appendByte_of_lt imm8 s h]; rfl
  case full => rw [exec_bapb, appendByte_of_ge imm8 s (by simp [h])]; rfl

/-- The first bytes of a list, by index. -/
theorem take_eq_map_getD {l : List Byte} {n : Nat} (h : n ≤ l.length) :
    l.take n = (List.range n).map fun k => l.getD k 0 := by
  refine List.ext_getElem (by simp [h]) fun k hk hk' => ?_
  have hkl : k < l.length := by simp at hk; omega
  simp [hkl]

theorem toList_eq_map_getD {n : Nat} (v : Vector Byte n) : v.toList = (List.range n).map fun k => v.toList.getD k 0 := by
  rw [← take_eq_map_getD (by simp), List.take_of_length_le (by simp)]

/-- The word of BAPS by its selector number (`30_encoding.md` R73, R74). -/
theorem encode_baps (sel : BapsSource) : encode (.baps sel) = BitVec.ofNat 16 (0x1200 + sel.sel.toNat) := by
  cases sel <;> rfl

theorem exec_baps (sel : BapsSource) (s : State) :
    exec (.baps sel) s = (appendBytes (sourceBytes sel s) s).outcome := rfl

/-- Settles O21: the six sources one by one, then the outcome of the one `appendBytes`. -/
theorem bapsAppendsItsSource : Obligations.BapsAppendsItsSource := by
  intro sel s _ number source
  have hnumber : number = sel.sel.toNat := by cases sel <;> rfl
  have hsource : source = sourceBytes sel s := by
    have hpwlen := s.pwlen.isLt
    cases sel with
    | pw => exact (take_eq_map_getD (by simp; omega)).symm
    | salt =>
      refine .trans ?_ (toList_eq_map_getD s.salt).symm
      simp [source, List.range, List.range.loop]
    | marker => rfl
    | altp => exact (take_eq_map_getD (by simp; omega)).symm
    | int => exact (toList_eq_map_getD s.int).symm
    | pw0 => rfl
  rw [hnumber, hsource, exec_baps]
  refine ⟨decode_eq_instr_iff.mpr ⟨rfl, encode_baps sel⟩, fun h => ?fits, fun h => ?overflow⟩
  case fits =>
    obtain ⟨buf, len, happend, hcells⟩ := appendBytes_cells _ s h
    exact ⟨buf, len, congrArg Result.outcome happend, hcells⟩
  case overflow => rw [appendBytes_of_over _ s h]; rfl

end Sys2Proof.Machine
end

section
/-! The invariant between steps, and the bound of LEN (`40_buffer.md` R107, `10_state.md` R32). -/

namespace Sys2Proof.Machine

/-- What `State.Inv` says of STATUS. -/
structure State.StatusLegal (s : State) : Prop where
  busy : s.busy = true → s.rst = true ∧ s.fault = false
  fcause : s.fcause = if s.fault then 1 else 0

theorem inv_iff {s : State} : s.Inv ↔ s.len.toNat ≤ 64 ∧ s.StatusLegal :=
  and_congr_right' ⟨fun ⟨hbusy, hfcause⟩ => ⟨hbusy, hfcause⟩, fun h => ⟨h.busy, h.fcause⟩⟩

section
variable {i : Instr} {s t : State} (rest : List HostEvent)

/-- LEN's bound over a command that completes or faults. -/
theorem exec_len_le (hs : s.len.toNat ≤ 64) (hx : exec i s = .next t) : t.len.toNat ≤ 64 := by
  obtain rfl | rfl := exec_state hx <;> exact (resultOf_keeps i s).len hs

/-- FCAUSE follows FAULT over a command: both stay, or fault entry writes both (`60_exceptions.md` R226). -/
theorem exec_fcause (hs : s.fcause = if s.fault then 1 else 0) (hx : exec i s = .next t) :
    t.fcause = if t.fault then 1 else 0 := by
  obtain rfl | rfl := exec_state hx
  · have hk := resultOf_keeps i s
    rw [hk.fcause, hk.fault, hs]
  · rfl

theorem fault_of_accepts (h : s.accepts = true) : s.fault = false := (cmdReady_iff.mp (accepts_iff.mp h).1).2

theorem atReset_statusLegal (ctr : Nat) : (State.atReset ctr rest).StatusLegal := ⟨fun h => by simp at h, rfl⟩

theorem State.StatusLegal.ignoreCommand (h : s.StatusLegal) : (ignoreCommand rest s).StatusLegal := ⟨h.busy, h.fcause⟩

theorem State.StatusLegal.assertRst (h : s.StatusLegal) : (assertRst rest s).StatusLegal :=
  ⟨fun hbusy => ⟨rfl, (h.busy hbusy).2⟩, h.fcause⟩

theorem State.StatusLegal.releaseRst (h : s.StatusLegal) : (releaseRst rest s).StatusLegal := by
  cases hr : s.rst with
  | true => rw [releaseRst_of_asserted s rest hr]; exact atReset_statusLegal rest _
  | false => rw [releaseRst_of_released s rest hr]; exact h.ignoreCommand rest

theorem State.StatusLegal.abandonCommand (h : s.StatusLegal) (ha : s.accepts = true) :
    (abandonCommand rest s).StatusLegal :=
  ⟨fun _ => ⟨rfl, (fault_of_accepts ha : s.fault = false)⟩, h.fcause⟩

/-- A command that ends, completed or faulted, leaves BUSY 0. -/
theorem State.StatusLegal.complete (h : s.StatusLegal) (hx : exec i (acceptCommand rest s) = .next t) :
    State.StatusLegal { t with busy := false } :=
  have hfcause : t.fcause = if t.fault then 1 else 0 := exec_fcause (s := acceptCommand rest s) h.fcause hx
  ⟨fun hbusy => absurd hbusy Bool.false_ne_true, hfcause⟩

theorem releaseRst_len_le (hs : s.len.toNat ≤ 64) : (releaseRst rest s).len.toNat ≤ 64 := by
  cases hr : s.rst with
  | true => rw [releaseRst_of_asserted s rest hr]; simp
  | false => rw [releaseRst_of_released s rest hr]; exact hs

/-- Over a step LEN stays, is reset to 0, is a command's, or is what an abandoned command leaves. -/
theorem step_len_le (hs : s.len.toNat ≤ 64) (h : step s = .next t) : t.len.toNat ≤ 64 := by
  obtain ⟨-, rfl⟩ | ⟨rest, -, rfl⟩ | ⟨rest, -, rfl⟩ | ⟨cw, rest, -, -, rfl⟩ | ⟨cw, rest, i, u, -, -, -, hx, rfl⟩ |
    ⟨cw, rest, -, -, rfl⟩ | ⟨cw, rest, i, -, -, -, rfl⟩ := step_cases h
  · exact hs
  · exact hs
  · exact releaseRst_len_le rest hs
  · exact hs
  · exact (exec_len_le (s := acceptCommand rest s) hs hx : u.len.toNat ≤ 64)
  · exact hs
  · exact abandonCommand_len_le s rest

theorem step_statusLegal (hs : s.StatusLegal) (h : step s = .next t) : t.StatusLegal := by
  obtain ⟨-, rfl⟩ | ⟨rest, -, rfl⟩ | ⟨rest, -, rfl⟩ | ⟨cw, rest, -, -, rfl⟩ | ⟨cw, rest, i, u, -, -, -, hx, rfl⟩ |
    ⟨cw, rest, -, -, rfl⟩ | ⟨cw, rest, i, -, ha, -, rfl⟩ := step_cases h
  · exact hs
  · exact hs.assertRst rest
  · exact hs.releaseRst rest
  · exact hs.ignoreCommand rest
  · exact hs.complete rest hx
  · exact hs.assertRst rest
  · exact hs.abandonCommand rest ha

end

/-- Settles O14: LEN's bound and the legality of STATUS, each over every event. -/
theorem stepKeepsInv : Obligations.StepKeepsInv := by
  intro s t hinv h
  obtain ⟨hlen, hstatus⟩ := inv_iff.mp hinv
  exact inv_iff.mpr ⟨step_len_le hlen h, step_statusLegal hstatus h⟩

/-- Settles O22: the bound at reset, over a command and over a step. -/
theorem lenNeverExceeds64 : Obligations.LenNeverExceeds64 :=
  ⟨rfl, fun _ _ _ => exec_len_le, fun _ _ => step_len_le⟩

end Sys2Proof.Machine
end

section
/-! The buffer only grows (`40_buffer.md` R106), and the protocol macros never overflow it (R108). -/

namespace Sys2Proof.Machine

/-- The content below LEN stays, and no cell at or above the new LEN is written (`40_buffer.md` R106). -/
structure GrowsOnly (s t : State) : Prop where
  len_le : s.len.toNat ≤ t.len.toNat
  cells : ∀ (k : Nat) (hk : k < 64), k < s.len.toNat ∨ t.len.toNat ≤ k → t.buf[k] = s.buf[k]

section
variable {s t : State}

theorem GrowsOnly.of_same (hbuf : t.buf = s.buf) (hlen : t.len = s.len) : GrowsOnly s t :=
  ⟨by rw [hlen], fun k hk _ => by rw [hbuf]⟩

/-- A state whose buffer is `bs` written from the old LEN on. -/
theorem GrowsOnly.of_write {bs : List Byte} (hbuf : t.buf = writeBytes s.buf s.len.toNat bs)
    (hlen : t.len.toNat = s.len.toNat + bs.length) : GrowsOnly s t := by
  refine ⟨by omega, fun k hk hout => ?_⟩
  rw [hbuf, writeBytes_getElem_eq_getD, if_neg (by omega)]

theorem appendBytes_growsOnly (bs : List Byte) (s : State) : GrowsOnly s (appendBytes bs s).state := by
  by_cases h : s.len.toNat + bs.length ≤ 64
  · rw [appendBytes_of_fits bs s h]
    exact .of_write rfl (len_add_toNat _ _ h)
  · rw [appendBytes_of_over bs s (by omega)]
    exact .of_same rfl rfl

theorem mpad_growsOnly (s : State) : GrowsOnly s (mpad s).state := by
  by_cases hle : s.len.toNat ≤ 55
  · rw [mpad_of_le s hle]
    refine .of_write rfl ?_
    rw [length_padBytes _ hle, state_ok, setBuf_len, show (64 : BitVec 7).toNat = 64 from rfl]; omega
  by_cases hlt : s.len.toNat < 64
  · rw [mpad_of_mid s (by omega) hlt]
    exact .of_write (set_eq_writeBytes _ _ _ hlt) (len_add_toNat s.len 1 (by omega))
  · rw [mpad_of_full s (by omega)]
    exact .of_same rfl rfl

/-- MD5H leaves the buffer that its MPAD leaves (`41_md5.md` R129). -/
theorem md5h_growsOnly (s : State) : GrowsOnly s (md5h s).state := by
  have hpad := mpad_growsOnly s
  by_cases hle : s.len.toNat ≤ 55
  · rw [mpad_of_le s hle, state_ok] at hpad
    rw [md5h_of_le s hle, state_ok]
    exact ⟨by simpa using hpad.len_le, by simpa using hpad.cells⟩
  · obtain ⟨u, hm, he⟩ := md5h_of_gt s (by omega)
    rwa [he, ← hm]

/-- A command that is no writer of the buffer leaves it as it is; of the writers, BAPB, BAPS, MPAD and MD5H append. -/
theorem resultOf_growsOnly {i : Instr} (hs : s.len.toNat ≤ 64) (hbclr : i ≠ .bclr) (hpalt : i ≠ .palt) (hpint : i ≠ .pint)
    (hprnd : i ≠ .prnd) (hpwh : i ≠ .pwh) : GrowsOnly s (resultOf i s).state := by
  by_cases hsame : Register.buffer.read (resultOf i s).state = Register.buffer.read s
  · obtain ⟨hbuf, hlen⟩ := Prod.mk.inj hsame
    exact .of_same hbuf hlen
  · obtain (rfl | rfl | rfl | rfl | rfl) | rfl | rfl | ⟨imm8, rfl⟩ | ⟨sel, rfl⟩ := resultOf_changes hsame
    · exact md5h_growsOnly s
    · exact absurd rfl hpalt
    · exact absurd rfl hpint
    · exact absurd rfl hprnd
    · exact absurd rfl hpwh
    · exact absurd rfl hbclr
    · exact mpad_growsOnly s
    · rw [resultOf, bapb, appendByte_eq_appendBytes imm8 s hs]; exact appendBytes_growsOnly _ s
    · exact appendBytes_growsOnly _ s

end

/-- Settles O23: what a command leaves only grows the buffer, and fault entry does not touch it. -/
theorem bufferIsWriteOnce : Obligations.BufferIsWriteOnce := by
  intro i s t hs hbclr hpalt hpint hprnd hpwh hx
  have hgrows := resultOf_growsOnly hs hbclr hpalt hpint hprnd hpwh
  obtain rfl | rfl := exec_state hx <;> exact ⟨hgrows.len_le, hgrows.cells⟩

/-- A command keeps every register it is no writer of. -/
theorem exec_keeps {r : Register} {i : Instr} {s t : State} (hx : exec i s = .next t) (hn : ¬ r.WrittenBy i) :
    r.read t = r.read s :=
  not_not.mp (mt (exec_changes hx) hn)

/-- PALT, PINT, PRND and PWH complete, with a full buffer (`40_buffer.md` R108). -/
theorem protocolMacro_completes {i : Instr} (s : State) (h : i = .palt ∨ i = .pint ∨ i = .prnd ∨ i = .pwh) :
    ∃ t, resultOf i s = .ok t ∧ t.len = 64 := by
  obtain rfl | rfl | rfl | rfl := h
  · obtain ⟨t, e, -, hlen, -⟩ := palt_stage s; exact ⟨t, e, hlen⟩
  · obtain ⟨t, e, hlen, -⟩ := pint_stage s; exact ⟨t, e, hlen⟩
  · obtain ⟨t, e, -, -, hlen, -⟩ := prnd_stage s; exact ⟨t, e, hlen⟩
  · obtain ⟨t, e, -, -, hlen, -⟩ := pwh_eq s; exact ⟨t.encoded .int, e, hlen⟩

/-- The protocol macros are no writers of their arguments (`70_reset_and_hazards.md` R259). -/
theorem protocolMacro_not_writes {i : Instr} (h : i = .palt ∨ i = .pint ∨ i = .prnd ∨ i = .pwh) :
    ¬ Register.pw.WrittenBy i ∧ ¬ Register.pwlen.WrittenBy i ∧ ¬ Register.salt.WrittenBy i := by
  obtain rfl | rfl | rfl | rfl := h <;> simp [Register.WrittenBy]

/-- Settles O51: the command completes, so STATUS is as before, and it writes none of PW, PWLEN and SALT. -/
theorem protocolMacrosNeverFault : Obligations.ProtocolMacrosNeverFault := by
  intro i s hi
  obtain ⟨t, hr, hlen⟩ := protocolMacro_completes s hi
  obtain ⟨hpw, hpwlen, hsalt⟩ := protocolMacro_not_writes hi
  have hwf : i.wellFormed = true := by obtain rfl | rfl | rfl | rfl := hi <;> rfl
  have hx : exec i s = .next t := by rw [exec_eq i s hwf, hr, outcome_ok]
  have hstatus := (resultOf_keeps i s).status
  rw [hr, state_ok] at hstatus
  exact ⟨t, hx, hstatus, hlen, exec_keeps hx hpw, exec_keeps hx hpwlen, exec_keeps hx hsalt⟩

end Sys2Proof.Machine
end

section
/-! The MD5 primitives one by one: MPAD, MUNP, MINI, MRND and MFIN (`41_md5.md` R121 to R128). -/

namespace Sys2Proof.Machine

/-! The padding, cell by cell (`20_memory.md` R52, R58). -/

theorem le64_getD (v : BitVec 64) {k : Nat} (hk : k < 8) : (le64 v).getD k 0 = v.extractLsb' (8 * k) 8 := by
  simp [le64, hk]

/-- Byte `k` of a number that fits in 64 bits. -/
theorem extractLsb'_ofNat_byte {x : Nat} (hx : x < 2 ^ 64) (k : Nat) :
    (BitVec.ofNat 64 x).extractLsb' (8 * k) 8 = BitVec.ofNat 8 (x / 2 ^ (8 * k)) := by
  rw [BitVec.extractLsb', BitVec.toNat_ofNat, Nat.mod_eq_of_lt hx, Nat.shiftRight_eq_div_pow]

/-- Byte `j` of the padding after `n` message bytes: the marker, then zeros up to cell 56, then the bit length. -/
theorem padBytes_getD {n j : Nat} (hn : n ≤ 55) (hj : n + j < 64) :
    (padBytes n).getD j 0 =
      if j = 0 then 0x80 else if n + j < 56 then 0x00 else BitVec.ofNat 8 (8 * n / 2 ^ (8 * (n + j - 56))) := by
  have hfill : ([0x80] ++ List.replicate (55 - n) (0x00 : Byte)).length = 56 - n := by simp; omega
  split_ifs with h0 h56
  · rw [h0]; rfl
  · rw [padBytes, List.getD_append _ _ _ _ (by omega), List.getD_append_right _ _ _ _ (by simp; omega),
      List.getD_replicate _ (by simp; omega)]
  · have hbyte : j - (56 - n) = n + j - 56 := by omega
    rw [padBytes, List.getD_append_right _ _ _ _ (by omega), hfill, hbyte, le64_getD _ (by omega),
      extractLsb'_ofNat_byte (by omega)]

/-- The padded block, cell by cell. -/
theorem writeBytes_padBytes_getElem (buf : Vector Byte 64) {n k : Nat} (hn : n ≤ 55) (hk : k < 64) :
    (writeBytes buf n (padBytes n))[k] =
      if k < n then buf[k] else if k = n then 0x80 else if k < 56 then 0x00
      else BitVec.ofNat 8 (8 * n / 2 ^ (8 * (k - 56))) := by
  have hlen := length_padBytes n hn
  rw [writeBytes_getElem_eq_getD]
  by_cases h : k < n
  · rw [if_neg (by omega), if_pos h]
  · have hcell : n + (k - n) = k := by omega
    have hmarker : k - n = 0 ↔ k = n := by omega
    rw [if_pos (by omega), if_neg h, padBytes_getD hn (by omega), hcell]
    simp only [hmarker]

theorem exec_mpad (s : State) : exec .mpad s = (mpad s).outcome := rfl

/-- Settles O24: the three cases of `mpad`, the first cell by cell. -/
theorem mpadPadsTheBlock : Obligations.MpadPadsTheBlock := by
  refine ⟨rfl, fun s => ⟨fun hle => ?fits, fun h => ?lengthOverflows, fun hfull => ?full⟩⟩
  case fits =>
    exact ⟨_, by rw [exec_mpad, mpad_of_le s hle]; rfl, fun k hk => writeBytes_padBytes_getElem s.buf hle hk⟩
  case lengthOverflows => rw [exec_mpad, mpad_of_mid s h.1 h.2]; rfl
  case full => rw [exec_mpad, mpad_of_full s (by simp [hfull])]; rfl

/-- The writes of MUNP as one update. -/
theorem draw_setM (s : State) (m : Vector Word 16) (n : Nat) :
    (s.setM m).draw n = { s with m := m, freeCtr := s.freeCtr + n } := rfl

/-- Settles O25: a word below LEN is decoded from its four cells, which `wordOfBytes_toNat` reads as a number. -/
theorem munpDecodesLittleEndian : Obligations.MunpDecodesLittleEndian := by
  refine ⟨rfl, fun s => ⟨s.unpacked.m, _, congrArg Host.Outcome.next (draw_setM s _ _), fun i hi => ?_⟩⟩
  rw [unpacked_m_of_le s i hi, bufWord, wordOfBytes_toNat]

/-- Settles O26: the four constants are INITK's. -/
theorem miniLoadsTheConstants : Obligations.MiniLoadsTheConstants :=
  ⟨rfl, fun _ => rfl⟩

/-! The round functions by the round's index, its family being index / 16 (R124 to R126). -/

section
variable {n : Nat} (hn : n < 64)
include hn

theorem mixF_of_round (b c d : Word) : mixF (n / 16) b c d =
    if n < 16 then (b &&& c) ||| (~~~b &&& d)
    else if n < 32 then (b &&& d) ||| (c &&& ~~~d)
    else if n < 48 then b ^^^ c ^^^ d
    else c ^^^ (b ||| ~~~d) := by
  split_ifs
  · rw [show n / 16 = 0 by omega, mixF]
  · rw [show n / 16 = 1 by omega, mixF]
  · rw [show n / 16 = 2 by omega, mixF]
  · rw [show n / 16 = 3 by omega]; rfl

theorem mixG_of_round : mixG n =
    if n < 16 then n else if n < 32 then (5 * n + 1) % 16 else if n < 48 then (3 * n + 5) % 16 else 7 * n % 16 := by
  rw [mixG]
  split_ifs with h16
  · rw [show n / 16 = 0 by omega]; exact Nat.mod_eq_of_lt h16
  · rw [show n / 16 = 1 by omega]; rfl
  · rw [show n / 16 = 2 by omega]; rfl
  · rw [show n / 16 = 3 by omega]; rfl

end

theorem shiftRom_of_round : ∀ i : BitVec 6, shiftRom i =
    (if i.toNat < 16 then [7, 12, 17, 22] else if i.toNat < 32 then [5, 9, 14, 20]
      else if i.toNat < 48 then [4, 11, 16, 23] else [6, 10, 15, 21]).getD (i.toNat % 4) 0 := by
  decide

theorem shiftRom_lt : ∀ i : BitVec 6, shiftRom i < 32 := by
  decide

/-- The word of MRND (`30_encoding.md` R73). -/
theorem encode_mrnd (i : BitVec 6) : encode (.mrnd i) = 0x2300 + i.setWidth 16 := by
  refine BitVec.eq_of_toNat_eq ?_
  rw [encode, packWord_toNat, BitVec.toNat_add, BitVec.toNat_setWidth_of_le (by decide),
    BitVec.toNat_setWidth_of_le (by decide)]
  have hi := i.isLt
  simp; omega

/-- Settles O27: the statement's mixing, index and shift are those of `roundWord`, whose rotation is `rotl_eq`'s. -/
theorem mrndPerformsTheRound : Obligations.MrndPerformsTheRound := by
  intro i s
  refine ⟨decode_eq_instr_iff.mpr ⟨rfl, encode_mrnd i⟩, ?_⟩
  intro n f g shift t
  have hf : f = mixF (n / 16) s.b s.c s.d := (mixF_of_round i.isLt s.b s.c s.d).symm
  have hg : g = mixG n := (mixG_of_round i.isLt).symm
  have hword : s.m.toList.getD g 0 = s.m[mixG n]'(mixG_lt n) := by rw [hg]; simp [mixG_lt]
  have hshift : shift = shiftRom i := (shiftRom_of_round i).symm
  have hb : roundWord i s.a s.b s.c s.d s.m = t.rotateLeft shift + s.b := by
    rw [roundWord, rotl_eq _ _ (shiftRom_lt i), ← hshift, ← hf, ← hword]
  rw [← hb]; rfl

/-- A digest byte as a number: byte `k` of register `q`'s sum (`20_memory.md` R53). -/
theorem digestOfWords_toNat (w : Vector Word 4) (j q k : Nat) (hq : q < 4) (hk : k < 4) (h : j = 4 * q + k) :
    ((digestOfWords w)[j]'(by omega)).toNat = (w[q] + initK[q]).toNat / 2 ^ (8 * k) % 256 := by
  rw [digestOfWords_getElem w j q k hq hk h, le32Byte_toNat]

/-- Settles O28: the digest's bytes, register by register. -/
theorem mfinSerialisesTheDigest : Obligations.MfinSerialisesTheDigest := by
  refine ⟨rfl, fun s => ⟨digestOfWords #v[s.a, s.b, s.c, s.d], rfl, fun k => ⟨?a, ?b, ?c, ?d⟩⟩⟩
  case a => exact digestOfWords_toNat _ _ 0 k (by omega) k.isLt (by omega)
  case b => exact digestOfWords_toNat _ _ 1 k (by omega) k.isLt (by omega)
  case c => exact digestOfWords_toNat _ _ 2 k (by omega) k.isLt (by omega)
  case d => exact digestOfWords_toNat _ _ 3 k (by omega) k.isLt (by omega)

end Sys2Proof.Machine
end

section
/-! MD5H: its primitives, the function it computes, and that the digest depends on the message alone
(`41_md5.md` R129 to R132). -/

namespace Sys2Proof.Machine

/-- The 68 primitives of MD5H in order (R129). -/
def md5hPrimitives : List Instr :=
  [Instr.mpad, .munp, .mini] ++ (List.range 64).map (fun i => Instr.mrnd (BitVec.ofNat 6 i)) ++ [Instr.mfin]

theorem md5hPrimitives_wellFormed : ∀ i ∈ md5hPrimitives, i.wellFormed = true := by
  intro i hi
  simp only [md5hPrimitives, List.mem_append, List.mem_cons, List.mem_map, List.not_mem_nil, or_false] at hi
  obtain ((rfl | rfl | rfl) | ⟨r, -, rfl⟩) | rfl := hi <;> rfl

section
variable (s : State)

theorem exec_md5h : exec .md5h s = (md5h s).outcome := rfl

theorem run_md5hPrimitives : run (md5hPrimitives.map resultOf) s = md5h s := by
  rw [md5hPrimitives, List.map_append, List.map_append, List.map_map]; rfl

/-- What MD5H writes on a legal message. -/
theorem hashed_writes : ∃ buf m r dig, s.hashed = (((s.setBuf buf 64).setM m).setTuple r).setDig dig :=
  ⟨_, _, _, _, rfl⟩

end

/-- Settles O29: `execSeq` of the primitives is `run` of their meanings; the frame is that of the writes. -/
theorem md5hRunsItsPrimitives : Obligations.Md5hRunsItsPrimitives := by
  refine ⟨rfl, fun s hfault _ => ⟨?primitives, fun hle => ?fits, fun hge => ?overflow⟩⟩
  case primitives =>
    have hseq := execSeq_eq md5hPrimitives s hfault md5hPrimitives_wellFormed
    rw [run_md5hPrimitives] at hseq
    exact hseq.symm
  case fits =>
    obtain ⟨buf, m, r, dig, hwrites⟩ := hashed_writes s
    exact ⟨_, by rw [exec_md5h, md5h_of_le s hle, outcome_ok, hwrites], rfl, rfl⟩
  case overflow =>
    obtain ⟨t, hmpad, hmd5h⟩ := md5h_of_gt s hge
    obtain ⟨buf, len, ht, -⟩ := mpad_state s
    rw [hmpad, state_raised] at ht
    exact ⟨_, by rw [exec_md5h, hmd5h, outcome_raised, ht], rfl⟩

section
variable {s s' : State}

theorem exec_md5h_of_le (h : s.len.toNat ≤ 55) : exec .md5h s = .next s.hashed := by
  rw [exec_md5h, md5h_of_le s h, outcome_ok]

theorem hashed_content (h : s.len.toNat ≤ 55) : s.hashed.content = padMessage s.content := by
  rw [← content_padded s h, State.content, hashed_buf, hashed_len]; rfl

theorem content_of_len_zero (h : s.len = 0) : s.content = [] := by
  rw [State.content, h]; rfl

/-- The content is the cells below LEN. -/
theorem content_congr (hlen : s'.len = s.len)
    (hcells : ∀ (k : Nat) (hk : k < 64), k < s.len.toNat → s'.buf[k] = s.buf[k]) : s'.content = s.content := by
  refine List.ext_getElem (by simp [State.content, hlen]) fun k hk hk' => ?_
  simp only [State.content, List.length_take, Vector.length_toList, Nat.lt_min] at hk'
  simpa [State.content] using hcells k hk'.2 hk'.1

end

/-- Settles O31: the state MD5H leaves, field by field. -/
theorem md5hRefinesMd5 : Obligations.Md5hRefinesMd5 := fun s hfault hlen =>
  ⟨s.hashed, exec_md5h_of_le hlen, (hashed_fault s).trans hfault, hashed_dig s, hashed_content hlen, hashed_m s,
    hashed_regs s⟩

/-- The published digest of the empty message (V4). -/
theorem md5_nil : md5 [] =
    #v[0xD4, 0x1D, 0x8C, 0xD9, 0x8F, 0x00, 0xB2, 0x04, 0xE9, 0x80, 0x09, 0x98, 0xEC, 0xF8, 0x42, 0x7E] := by
  decide +kernel

/-- Settles O30: MD5H computes `md5` of the content, which is empty. -/
theorem md5hOfTheEmptyMessage : Obligations.Md5hOfTheEmptyMessage := by
  intro s hfault hlen
  refine ⟨s.hashed, exec_md5h_of_le (by simp [hlen]), (hashed_fault s).trans hfault, ?_⟩
  rw [hashed_dig, content_of_len_zero hlen, md5_nil]

/-- Settles O32: both digests are `md5` of the one content. -/
theorem md5hIsPure : Obligations.Md5hIsPure := by
  intro s s' hfault hfault' hle hlen hcells
  have hle' : s'.len.toNat ≤ 55 := hlen ▸ hle
  refine ⟨s.hashed, s'.hashed, exec_md5h_of_le hle, exec_md5h_of_le hle', (hashed_fault s).trans hfault,
    (hashed_fault s').trans hfault', ?_⟩
  rw [hashed_dig, hashed_dig, content_congr hlen hcells]

end Sys2Proof.Machine
end

section
/-! The loads, the moves and CLRI: each writes one cell or one register (`42_pwhash.md` R161 to R166). -/

namespace Sys2Proof.Machine

section
variable (idx : BitVec 4) (imm8 : Byte)

/-- A packed word as a number (`30_encoding.md` R70). -/
theorem packWord_eq_ofNat (op : BitVec 4) :
    packWord op idx imm8 = BitVec.ofNat 16 (4096 * op.toNat + 256 * idx.toNat + imm8.toNat) := by
  refine BitVec.eq_of_toNat_eq ?_
  have hop := op.isLt
  have hidx := idx.isLt
  have himm := imm8.isLt
  rw [packWord_toNat, BitVec.toNat_ofNat]
  omega

theorem decode_ldpw_word : decode (BitVec.ofNat 16 (0x3000 + 256 * idx.toNat + imm8.toNat)) =
    if idx.toNat ≤ 14 then .instr (.ldpw idx imm8) else .reserved .index :=
  (congrArg decode (packWord_eq_ofNat idx imm8 3)).symm.trans (decode_packWord_ldpw idx imm8)

theorem decode_ldsl_word : decode (BitVec.ofNat 16 (0x4000 + 256 * idx.toNat + imm8.toNat)) =
    if idx.toNat ≤ 7 then .instr (.ldsl idx imm8) else .reserved .index :=
  (congrArg decode (packWord_eq_ofNat idx imm8 4)).symm.trans (decode_packWord_ldsl idx imm8)

theorem decode_lddg_word :
    decode (BitVec.ofNat 16 (0x5000 + 256 * idx.toNat + imm8.toNat)) = .instr (.lddg idx imm8) :=
  (congrArg decode (packWord_eq_ofNat idx imm8 5)).symm.trans (decode_packWord_lddg idx imm8)

theorem decode_ldpl_word (n : BitVec 4) : decode (BitVec.ofNat 16 (0x6000 + n.toNat)) = .instr (.ldpl n) := by
  refine decode_eq_instr_iff.mpr ⟨rfl, ?_⟩
  rw [encode, packWord_eq_ofNat, BitVec.toNat_setWidth_of_le (by decide)]
  rfl

theorem exec_ldpw_of_lt (s : State) (h : idx.toNat < 15) :
    exec (.ldpw idx imm8) s = .next (s.setPw (s.pw.set idx.toNat imm8 h)) := by
  rw [exec, execLdpw, dif_pos h]

theorem exec_ldsl_of_lt (s : State) (h : idx.toNat < 8) :
    exec (.ldsl idx imm8) s = .next (s.setSalt (s.salt.set idx.toNat imm8 h)) := by
  rw [exec, execLdsl, dif_pos h]

end

/-- Settles O35: the load's word is the packed one, and the index's range is what decoder and `exec` test. -/
theorem loadsWriteOneCell : Obligations.LoadsWriteOneCell := by
  refine ⟨fun idx imm8 s => ⟨fun h => ⟨?ldpwWord, exec_ldpw_of_lt idx imm8 s h⟩, fun h => ⟨?ldpwReserved, ?ldpwRefused⟩,
      fun h => ⟨?ldslWord, exec_ldsl_of_lt idx imm8 s h⟩, fun h => ⟨?ldslReserved, ?ldslRefused⟩,
      decode_lddg_word idx imm8, rfl⟩,
    fun n s => ⟨decode_ldpl_word n, rfl⟩⟩
  case ldpwWord => rw [decode_ldpw_word, if_pos (Nat.le_of_lt_succ h)]
  case ldpwReserved => rw [decode_ldpw_word, if_neg (by omega)]
  case ldpwRefused => exact exec_illFormed _ s (decide_eq_false (by omega))
  case ldslWord => rw [decode_ldsl_word, if_pos (Nat.le_of_lt_succ h)]
  case ldslReserved => rw [decode_ldsl_word, if_neg (by omega)]
  case ldslRefused => exact exec_illFormed _ s (decide_eq_false (by omega))

/-- Settles O36: each is one named write. -/
theorem mvdAndClri : Obligations.MvdAndClri :=
  ⟨rfl, rfl, rfl, fun _ => ⟨rfl, rfl, rfl⟩⟩

end Sys2Proof.Machine
end

section
/-! The stage macros PALT, PINT and PRND: each is its list of commands, and hashes its message
(`42_pwhash.md` R167 to R170). -/

namespace Sys2Proof.Machine

section
variable {s t : State}

/-- A macro is the list of commands whose results it runs (`30_encoding.md` R80). -/
theorem exec_eq_execSeq {i : Instr} {is : List Instr} (hs : s.fault = false) (hi : i.wellFormed = true)
    (his : ∀ j ∈ is, j.wellFormed = true) (hrun : run (is.map resultOf) s = resultOf i s) :
    exec i s = execSeq is s := by
  rw [exec_eq i s hi, execSeq_eq is s hs his, hrun]

/-- The frame of a hash as one update: only BUF, LEN, M, A to D, DIG and the counter of draws move. -/
theorem KeptByHash.eq_update (h : KeptByHash s t) :
    t = { s with buf := t.buf, len := t.len, m := t.m, a := t.a, b := t.b, c := t.c, d := t.d, dig := t.dig,
                 freeCtr := t.freeCtr } := by
  rw [← h.alt, ← h.int, ← h.pw, ← h.pwlen, ← h.salt, ← h.inum, ← h.perm, ← h.code, ← h.out, ← h.busy, ← h.fault,
    ← h.fcause, ← h.rst, ← h.host]

end

/-- Settles O37: PALT is `run` of its commands, and moves ALT besides what the hash moves. -/
theorem paltComputesTheAlternateHash : Obligations.PaltComputesTheAlternateHash := by
  refine ⟨rfl, fun s hfault => ⟨exec_eq_execSeq hfault rfl (by decide) rfl, ?_⟩⟩
  obtain ⟨t, hrun, hdig, -, hkept⟩ := palt_eq s
  exact ⟨_, congrArg Result.outcome hrun, hdig, congrArg (State.setAlt · t.dig) hkept.eq_update⟩

section
variable (n : Nat)

/-- The commands of the bit loop that starts from `n`: one per binary digit, the lowest first (R169). -/
def bitLoopCommands : List Instr :=
  (Nat.digits 2 n).map fun digit => if digit = 1 then .bapb 0x00 else .baps .pw0

theorem bitLoopCommands_of_pos (h : 0 < n) :
    bitLoopCommands n = (if n % 2 = 0 then .baps .pw0 else .bapb 0x00) :: bitLoopCommands (n / 2) := by
  have hdigit : (if n % 2 = 1 then Instr.bapb 0x00 else .baps .pw0) = if n % 2 = 0 then .baps .pw0 else .bapb 0x00 := by
    obtain hn | hn := Nat.mod_two_eq_zero_or_one n <;> simp [hn]
  rw [bitLoopCommands, Nat.digits_def' (by decide) h, List.map_cons, hdigit, bitLoopCommands]

theorem bitLoopCommands_wellFormed : ∀ i ∈ bitLoopCommands n, i.wellFormed = true := by
  intro i hi
  obtain ⟨digit, -, rfl⟩ := List.mem_map.mp hi
  split <;> rfl

/-- The bytes the bit loop's commands append are those of `bitBytes`. -/
theorem map_bitLoopCommands (p : Byte) :
    (bitLoopCommands n).map (fun i => if i = .bapb 0x00 then 0x00 else p) = bitBytes n p := by
  rw [bitLoopCommands, bitBytes, List.map_map]
  refine List.map_congr_left fun digit _ => ?_
  by_cases h : digit = 1 <;> simp [h]

/-- The bit loop runs its commands. -/
theorem bitLoop_eq_run (fuel : Nat) : ∀ n : Nat, n < 2 ^ fuel → bitLoop fuel n = run ((bitLoopCommands n).map resultOf) := by
  induction fuel with
  | zero =>
    intro n hn
    obtain rfl : n = 0 := by simpa using hn
    rfl
  | succ fuel ih =>
    intro n hn
    by_cases h0 : n = 0
    · subst h0; rfl
    · funext s
      rw [bitLoop, if_pos (by omega), ih (n / 2) (by omega), bitLoopCommands_of_pos n (by omega), List.map_cons, run_cons]
      split <;> rfl

/-- The table of R169. -/
theorem bitLoopCommands_table (l : BitVec 4) :
    let z : Instr := .bapb 0x00
    let p : Instr := .baps .pw0
    [[], [z], [p, z], [z, z], [p, p, z], [z, p, z], [p, z, z], [z, z, z], [p, p, p, z], [z, p, p, z], [p, z, p, z],
      [z, z, p, z], [p, p, z, z], [z, p, z, z], [p, z, z, z], [z, z, z, z]].getD l.toNat [] = bitLoopCommands l.toNat := by
  revert l; decide

end

/-- The commands of PINT for a password of `n` bytes (R168). -/
def pintCommands (n : Nat) : List Instr :=
  [.bclr, .baps .pw, .baps .marker, .baps .salt, .baps .altp] ++ bitLoopCommands n ++ [.md5h, .mvd .int]

theorem pintCommands_wellFormed (n : Nat) : ∀ i ∈ pintCommands n, i.wellFormed = true := by
  have hfront : ∀ i ∈ [Instr.bclr, .baps .pw, .baps .marker, .baps .salt, .baps .altp], i.wellFormed = true := by decide
  have hback : ∀ i ∈ [Instr.md5h, .mvd .int], i.wellFormed = true := by decide
  exact List.forall_mem_append.mpr ⟨List.forall_mem_append.mpr ⟨hfront, bitLoopCommands_wellFormed n⟩, hback⟩

theorem run_pintCommands (s : State) : run ((pintCommands s.pwlen.toNat).map resultOf) s = pint s := by
  have hpint : pint s = run (([.bclr, .baps .pw, .baps .marker, .baps .salt, .baps .altp] : List Instr).map resultOf
      ++ bitLoop 4 s.pwlen.toNat :: ([.md5h, .mvd .int] : List Instr).map resultOf) s := rfl
  have hloop (t : State) : run ((bitLoopCommands s.pwlen.toNat).map resultOf
      ++ ([.md5h, .mvd .int] : List Instr).map resultOf) t
      = run (bitLoop 4 s.pwlen.toNat :: ([.md5h, .mvd .int] : List Instr).map resultOf) t := by
    rw [run_append, run_cons, bitLoop_eq_run 4 _ s.pwlen.isLt]
  rw [hpint, pintCommands, List.map_append, List.map_append, List.append_assoc, run_append, run_append, funext hloop]

/-- Settles O38: the bit loop is its commands, which are the table's; the message is the one of `pint_eq`. -/
theorem pintComputesTheFirstIntermediateHash : Obligations.PintComputesTheFirstIntermediateHash := by
  refine ⟨rfl, ?_⟩
  intro s hfault z p loop bytes
  have hloop : loop = bitLoopCommands s.pwlen.toNat := bitLoopCommands_table s.pwlen
  have hbytes : bytes = bitBytes s.pwlen.toNat s.pw[0] := by
    rw [← map_bitLoopCommands, ← hloop]
  rw [hbytes, hloop]
  refine ⟨exec_eq_execSeq hfault rfl (pintCommands_wellFormed _) (run_pintCommands s), ?_⟩
  obtain ⟨t, hrun, hdig, -, hkept⟩ := pint_eq s
  rw [stage2Message, length_password] at hdig
  exact ⟨_, congrArg Result.outcome hrun, hdig, congrArg (State.setInt · t.dig) hkept.eq_update⟩

/-- The commands of PRND before the increment, by the residues of the INUM it starts with (R170). -/
def prndCommands (inum : Nat) : List Instr := [.bclr] ++ (roundSources inum).map .baps ++ [.md5h, .mvd .int]

theorem prndCommands_wellFormed (inum : Nat) : ∀ i ∈ prndCommands inum, i.wellFormed = true := by
  intro i hi
  simp only [prndCommands, List.mem_append, List.mem_cons, List.mem_map, List.not_mem_nil, or_false] at hi
  obtain (rfl | ⟨sel, -, rfl⟩) | rfl | rfl := hi <;> rfl

/-- PRND is its commands, then the increment. -/
theorem prnd_eq_run (s : State) :
    prnd s = (run ((prndCommands s.inum.toNat).map resultOf) s).andThen nextInum := by
  have hcommands : (prndCommands s.inum.toNat).map resultOf
      = [bclr] ++ roundAppends s.inum.toNat ++ [md5h, mvd .int] := by
    rw [roundAppends_eq, prndCommands, List.map_append, List.map_append, List.map_map]; rfl
  have hlist : [bclr] ++ roundAppends s.inum.toNat ++ [md5h, mvd .int, nextInum]
      = [bclr] ++ roundAppends s.inum.toNat ++ [md5h, mvd .int] ++ [nextInum] := by
    simp only [List.append_assoc, List.cons_append, List.nil_append]
  rw [hcommands, prnd, hlist, run_append]
  cases run ([bclr] ++ roundAppends s.inum.toNat ++ [md5h, mvd .int]) s <;> rfl

/-- PRND's commands complete, and PRND answers what they leave with INUM, which they have kept, advanced by one. -/
theorem prndCommands_complete (s : State) :
    ∃ u, run ((prndCommands s.inum.toNat).map resultOf) s = .ok u ∧ prnd s = .ok (u.setInum (s.inum + 1)) := by
  have hsplit := prnd_eq_run s
  obtain ⟨t, ht, -, hinum, -⟩ := prnd_stage s
  cases hu : run ((prndCommands s.inum.toNat).map resultOf) s with
  | raised u => rw [hu, ht] at hsplit; cases hsplit
  | ok u =>
    rw [hu, ht] at hsplit
    obtain rfl : t = u.setInum (u.inum + 1) := Result.ok.inj hsplit
    rw [setInum_inum] at hinum
    exact ⟨u, rfl, by rw [ht, hinum]⟩

/-- The increment as a number (R170). -/
theorem inum_succ_toNat (n : BitVec 10) : (n + 1).toNat = (n.toNat + 1) % 1024 := BitVec.toNat_add n 1

/-- Settles O39: PRND's commands and message are chosen by the same residues. -/
theorem prndPerformsOneIteration : Obligations.PrndPerformsOneIteration := by
  refine ⟨rfl, ?_⟩
  intro s hfault n pw salt int message
  refine ⟨?commands, ?hash⟩
  case commands =>
    obtain ⟨u, hu, hprnd⟩ := prndCommands_complete s
    have hseq := execSeq_eq (prndCommands n) s hfault (prndCommands_wellFormed n)
    rw [hu, outcome_ok] at hseq
    refine ⟨u, .trans (congrArg (execSeq · s) ?_) hseq, ?_⟩
    · simp only [prndCommands, roundSources, n]
      split_ifs <;> rfl
    · rw [← inum_succ_toNat, BitVec.ofNat_toNat, BitVec.setWidth_eq]
      exact congrArg Result.outcome hprnd
  case hash =>
    obtain ⟨t, hrun, hdig, -, hkept⟩ := prnd_eq s
    have hmessage : message = roundMessage s.password s.saltBytes s.int s.inum.toNat := by
      simp only [message, roundMessage, n, pw, salt, int]
      split_ifs <;> simp_all
    refine ⟨_, congrArg Result.outcome hrun, hmessage ▸ hdig, inum_succ_toNat s.inum, ?_⟩
    exact congrArg (fun u : State => (u.setInt t.dig).setInum (s.inum + 1)) hkept.eq_update

end Sys2Proof.Machine
end

section
/-! PWH: its stages, the function it computes, and that OUT depends on the arguments alone
(`42_pwhash.md` R160, R171, R174). -/

namespace Sys2Proof.Machine

/-- The commands of PWH (R171). -/
def pwhCommands : List Instr := [.palt, .pint, .clri] ++ List.replicate 1000 .prnd ++ [.enc .int]

theorem pwhCommands_wellFormed : ∀ i ∈ pwhCommands, i.wellFormed = true := by
  intro i hi
  simp only [pwhCommands, List.mem_append, List.mem_cons, List.mem_replicate, List.not_mem_nil, or_false] at hi
  obtain ((rfl | rfl | rfl) | ⟨-, rfl⟩) | rfl := hi <;> rfl

section
variable {s s' t : State}

theorem run_pwhCommands : run (pwhCommands.map resultOf) s = pwh s := by
  rw [pwhCommands, List.map_append, List.map_append, List.map_replicate]
  rfl

/-- The frame of the stages as one update: what they keep is as it was in `s`. -/
theorem KeptByStage.eq_update (h : KeptByStage s t) :
    t = { t with pw := s.pw, pwlen := s.pwlen, salt := s.salt, busy := s.busy, fault := s.fault, fcause := s.fcause,
                 rst := s.rst, host := s.host } := by
  rw [← h.pw, ← h.pwlen, ← h.salt, ← h.busy, ← h.fault, ← h.fcause, ← h.rst, ← h.host]

/-- The encoder's writes after the stages keep the same. -/
theorem KeptByStage.encode_eq_update (h : KeptByStage s t) (x : Digest) (y : Vector Code 22) (z : Vector Byte 22) :
    ((t.setPerm x).setCode y).setOut z =
      { ((t.setPerm x).setCode y).setOut z with
        pw := s.pw, pwlen := s.pwlen, salt := s.salt, busy := s.busy, fault := s.fault, fcause := s.fcause,
        rst := s.rst, host := s.host } :=
  congrArg (fun u : State => ((u.setPerm x).setCode y).setOut z) h.eq_update

/-- PWH completes with the hash of the password and the salt in OUT. -/
theorem exec_pwh_hashPassword (s : State) : ∃ t, exec .pwh s = .next t ∧ t.fault = s.fault ∧
    t.out = hashPassword s.password s.saltBytes ∧ t.int = chainHash s.password s.saltBytes 1000 := by
  obtain ⟨t, hrun, hint, -, -, -, -, hkept⟩ := pwh_eq s
  exact ⟨t.encoded .int, congrArg Result.outcome hrun, hkept.fault, congrArg encodeText hint, hint⟩

theorem saltBytes_congr (h : s'.salt = s.salt) : s'.saltBytes = s.saltBytes := congrArg Vector.toList h

/-- The password is the cells of PW below PWLEN. -/
theorem password_congr (hlen : s'.pwlen = s.pwlen)
    (hcells : ∀ (k : Nat) (hk : k < 15), k < s.pwlen.toNat → s'.pw[k] = s.pw[k]) : s'.password = s.password := by
  refine List.ext_getElem (by rw [length_password, length_password, hlen]) fun k _ hk => ?_
  have hk15 := hk.trans_le (length_password_le s)
  rw [length_password] at hk
  simpa [State.password] using hcells k hk15 hk

end

/-- Settles O40: PWH is `run` of its stages, and ENC writes OUT from the last INT. -/
theorem pwhRunsItsStages : Obligations.PwhRunsItsStages := by
  refine ⟨rfl, fun s hfault => ⟨exec_eq_execSeq hfault rfl pwhCommands_wellFormed run_pwhCommands, ?_⟩⟩
  obtain ⟨t, hrun, -, hinum, -, -, -, hkept⟩ := pwh_eq s
  refine ⟨t.encoded .int, congrArg Result.outcome hrun, BitVec.eq_of_toNat_eq hinum, rfl, ?_⟩
  rw [State.encoded]
  exact hkept.encode_eq_update _ _ _

/-- Settles O41: the spec of PWH, and STATUS is as before. -/
theorem pwhRefinesHashPassword : Obligations.PwhRefinesHashPassword := by
  intro s hfault
  obtain ⟨t, hexec, hstatus, hout, hint⟩ := exec_pwh_hashPassword s
  exact ⟨t, hexec, hstatus.trans hfault, hout, hint⟩

/-- Settles O42: both OUTs are `hashPassword` of the one password and salt. -/
theorem pwhDependsOnItsArgumentsAlone : Obligations.PwhDependsOnItsArgumentsAlone := by
  intro s s' hfault hfault' hpwlen hsalt hcells
  obtain ⟨t, hexec, hstatus, hout, -⟩ := exec_pwh_hashPassword s
  obtain ⟨t', hexec', hstatus', hout', -⟩ := exec_pwh_hashPassword s'
  refine ⟨t, t', hexec, hexec', hstatus.trans hfault, hstatus'.trans hfault', ?_⟩
  rw [hout, hout', password_congr hpwlen hcells, saltBytes_congr hsalt]

end Sys2Proof.Machine
end

section
/-! The encoder: its three commands, ENC, which runs them, and that the text determines the digest
(`43_encoder.md` R201 to R205). -/

namespace Sys2Proof.Machine

section
variable (q : DigestSource) (s : State)

theorem exec_eprm : exec (.eprm q) s = .next (s.setPerm (permuted (digestOf q s))) :=
  congrArg Result.outcome (eprm_eq q s)
theorem exec_epak : exec .epak s = .next (s.setCode (packCodes s.perm)) := rfl
theorem exec_emap : exec .emap s = .next (s.setOut (s.code.map alphaRom)) := rfl
theorem exec_enc : exec (.enc q) s = .next (s.encoded q) := congrArg Result.outcome (enc_eq q s)

@[simp] theorem encoded_out : (s.encoded q).out = encodeText (digestOf q s) := rfl

end

section
variable (x y z : Byte)

/-- A full group's code as a number: a six-bit piece of the group's 24-bit number (`43_encoder.md` R202). -/
theorem toNat_packGroup_getElem (j : Nat) (hj : j < 4) :
    (packGroup x y z)[j].toNat = (x.toNat + 2 ^ 8 * y.toNat + 2 ^ 16 * z.toNat) / 2 ^ (6 * j) % 64 := by
  rw [packGroup_getElem _ _ _ _ hj, BitVec.extractLsb'_toNat, toNat_group, Nat.shiftRight_eq_div_pow]

/-- The last group's code as a number (`43_encoder.md` R202). -/
theorem toNat_packLast_getElem (j : Nat) (hj : j < 2) : (packLast x)[j].toNat = x.toNat / 2 ^ (6 * j) % 64 := by
  rw [packLast_getElem _ _ hj, BitVec.extractLsb'_toNat, Nat.shiftRight_eq_div_pow]

end

section
variable (p : Digest)

theorem packCodes_getElem_full (t j : Nat) (ht : t < 5) (hj : j < 4) :
    (packCodes p)[4 * t + j] = (packGroup p[3 * t] p[3 * t + 1] p[3 * t + 2])[j] := by
  rw [packCodes, Vector.getElem_ofFn, packedCode, dif_pos (show 4 * t + j < 20 by omega)]
  simp only [show (4 * t + j) / 4 = t by omega, show (4 * t + j) % 4 = j by omega]

theorem packCodes_getElem_last (j : Nat) (hj : j < 2) : (packCodes p)[20 + j] = (packLast p[15])[j] := by
  rw [packCodes, Vector.getElem_ofFn, packedCode, dif_neg (show ¬ 20 + j < 20 by omega)]
  simp only [Nat.add_sub_cancel_left]

end

/-- The table of R37 is `destRom`. -/
theorem dest_table (j : Fin 16) :
    [2, 5, 8, 11, 14, 12, 1, 4, 7, 10, 13, 15, 0, 3, 6, 9].getD j.val 0 = destRom[j].val := by
  revert j; decide

/-- Byte `j` of the digest stands at DEST[j] of PERM (`43_encoder.md` R201). -/
theorem permuted_getElem_dest (d : Digest) (j : Fin 16) : (permuted d)[destRom[j]] = d[j] := by
  fin_cases j <;> rfl

/-- Settles O43: the sixteen writes leave `permuted` of the digest. -/
theorem eprmPermutes : Obligations.EprmPermutes := by
  refine ⟨rfl, rfl, fun q s => ⟨permuted (digestOf q s), exec_eprm q s, rfl, fun j => ?_⟩⟩
  have hcell : (permuted (digestOf q s)).toList.getD destRom[j].val 0 = (permuted (digestOf q s))[destRom[j]] := by simp
  rw [dest_table, hcell, permuted_getElem_dest]
  rfl

/-- Bits placed above those of `lo` add to it. -/
theorem or_mul_two_pow (i : Nat) {lo : Nat} (h : lo < 2 ^ i) (hi : Nat) : (lo ||| hi * 2 ^ i) = lo + hi * 2 ^ i := by
  rw [Nat.or_comm, Nat.mul_comm, ← Nat.two_pow_add_eq_or_of_lt h, Nat.add_comm]

/-- Settles O44: a full group's codes are the pieces of its number, and in each of them the two bytes' parts lie side by
side. -/
theorem epakPacksSixBitCodes : Obligations.EpakPacksSixBitCodes := by
  refine ⟨rfl, fun s => ⟨packCodes s.perm, exec_epak s, ?full, ?last0, ?last1⟩⟩
  case full =>
    intro t x y z n
    have hcode (j : Nat) (hj : j < 4) : (packCodes s.perm)[4 * t.val + j].toNat = n / 2 ^ (6 * j) % 64 := by
      rw [packCodes_getElem_full _ _ _ t.isLt hj, toNat_packGroup_getElem _ _ _ _ hj]
    have hn : n = x + 2 ^ 8 * y + 2 ^ 16 * z := rfl
    have hx : x < 2 ^ 8 := s.perm[3 * t.val].isLt
    have hy : y < 2 ^ 8 := s.perm[3 * t.val + 1].isLt
    have hz : z < 2 ^ 8 := s.perm[3 * t.val + 2].isLt
    have had : (x / 64 ||| y % 16 * 4) = x / 64 + y % 16 * 4 := or_mul_two_pow 2 (by omega) _
    have hcf : (y / 16 ||| z % 4 * 16) = y / 16 + z % 4 * 16 := or_mul_two_pow 4 (by omega) _
    refine ⟨(hcode 0 (by decide)).trans ?_, (hcode 1 (by decide)).trans ?_, (hcode 2 (by decide)).trans ?_,
      (hcode 3 (by decide)).trans ?_, fun j => hcode j j.isLt⟩
    · omega
    · rw [had]; omega
    · rw [hcf]; omega
    · omega
  case last0 =>
    rw [packCodes_getElem_last s.perm 0 (by decide), toNat_packLast_getElem _ 0 (by decide)]; omega
  case last1 =>
    have hlt := s.perm[15].isLt
    rw [packCodes_getElem_last s.perm 1 (by decide), toNat_packLast_getElem _ 1 (by decide)]; omega

/-- Settles O45: ALPHA by ranges is the alphabet's string. -/
theorem emapMapsToTheAlphabet : Obligations.EmapMapsToTheAlphabet := by
  refine ⟨rfl, fun s => ⟨s.code.map alphaRom, exec_emap s, fun k => ?_⟩⟩
  exact (Vector.getElem_map ..).trans (alphaRom_eq s.code[k])

/-- The table of R204 is `groupNumber`. -/
theorem groupNumber_table (d : Digest) (t : Nat) (h : t < 6) :
    [d[12].toNat + 2 ^ 8 * d[6].toNat + 2 ^ 16 * d[0].toNat,
     d[13].toNat + 2 ^ 8 * d[7].toNat + 2 ^ 16 * d[1].toNat,
     d[14].toNat + 2 ^ 8 * d[8].toNat + 2 ^ 16 * d[2].toNat,
     d[15].toNat + 2 ^ 8 * d[9].toNat + 2 ^ 16 * d[3].toNat,
     d[5].toNat + 2 ^ 8 * d[10].toNat + 2 ^ 16 * d[4].toNat,
     d[11].toNat].getD t 0 = groupNumber d t := by
  interval_cases t <;> rfl

/-- Settles O47: ENC is `run` of its commands, and OUT is `encodeText` of the selected digest. -/
theorem encWritesTheText : Obligations.EncWritesTheText := by
  refine ⟨rfl, rfl, ?_⟩
  intro q s src ascii group
  refine ⟨fun hfault => exec_eq_execSeq hfault rfl (by simp [Instr.wellFormed]) rfl, s.encoded q, exec_enc q s, rfl,
    fun k => ?_⟩
  have hgroup : group (k.val / 4) = groupNumber (digestOf q s) (k.val / 4) := groupNumber_table _ _ (by omega)
  rw [hgroup, encoded_out]
  exact Vector.getElem_ofFn _

/-- Every character of ALPHA is one of the alphabet's (`43_encoder.md` R205). -/
theorem alphaRom_mem_alphabet (c : Code) : Char.ofNat (alphaRom c).toNat ∈ alphabet.toList := by
  revert c; decide

/-- The place of ALPHA's character in the alphabet gives the code back. -/
theorem idxOf_alphaRom (c : Code) : BitVec.ofNat 6 (alphabet.toList.idxOf (Char.ofNat (alphaRom c).toNat)) = c := by
  revert c; decide

theorem alphaRom_injective : Function.Injective alphaRom := by
  intro c c' h
  rw [← idxOf_alphaRom c, h, idxOf_alphaRom]

/-- A code of two bits is one of ALPHA's first four characters. -/
theorem alphaRom_of_lt_four (c : Code) (h : c.toNat < 4) :
    alphaRom c = 0x2E ∨ alphaRom c = 0x2F ∨ alphaRom c = 0x30 ∨ alphaRom c = 0x31 := by
  revert c; decide

/-- A number of 24 bits is known from its four six-bit pieces. -/
theorem eq_of_six_bit_pieces {n n' : Nat} (hn : n < 2 ^ 24) (hn' : n' < 2 ^ 24)
    (h : ∀ j < 4, n / 2 ^ (6 * j) % 64 = n' / 2 ^ (6 * j) % 64) : n = n' := by
  have h0 := h 0 (by decide)
  have h1 := h 1 (by decide)
  have h2 := h 2 (by decide)
  have h3 := h 3 (by decide)
  omega

/-- The four codes hold all 24 bits of a full group. -/
theorem packGroup_inj {x y z x' y' z' : Byte} (h : packGroup x y z = packGroup x' y' z') :
    x = x' ∧ y = y' ∧ z = z' := by
  have hnumber : x.toNat + 2 ^ 8 * y.toNat + 2 ^ 16 * z.toNat = x'.toNat + 2 ^ 8 * y'.toNat + 2 ^ 16 * z'.toNat := by
    refine eq_of_six_bit_pieces (by omega) (by omega) fun j hj => ?_
    rw [← toNat_packGroup_getElem x y z j hj, ← toNat_packGroup_getElem x' y' z' j hj, h]
  refine ⟨?_, ?_, ?_⟩ <;> (apply BitVec.eq_of_toNat_eq; omega)

/-- The two codes hold all 8 bits of the last byte. -/
theorem packLast_injective : Function.Injective packLast := by
  intro x x' h
  have hpiece (j : Nat) (hj : j < 2) := toNat_packLast_getElem x j hj
  simp only [h, toNat_packLast_getElem x'] at hpiece
  have h0 := hpiece 0 (by decide)
  have h1 := hpiece 1 (by decide)
  apply BitVec.eq_of_toNat_eq
  omega

/-- EPAK loses nothing: group by group, then the last byte. -/
theorem packCodes_injective : Function.Injective packCodes := by
  intro p p' h
  have hgroup (t : Nat) (ht : t < 5) :
      p[3 * t] = p'[3 * t] ∧ p[3 * t + 1] = p'[3 * t + 1] ∧ p[3 * t + 2] = p'[3 * t + 2] := by
    refine packGroup_inj (Vector.ext fun j hj => ?_)
    rw [← packCodes_getElem_full p t j ht hj, ← packCodes_getElem_full p' t j ht hj, h]
  have hlast : p[15] = p'[15] := by
    refine packLast_injective (Vector.ext fun j hj => ?_)
    rw [← packCodes_getElem_last p j hj, ← packCodes_getElem_last p' j hj, h]
  refine Vector.ext fun i hi => ?_
  by_cases h15 : i = 15
  · subst h15; exact hlast
  · obtain ⟨hx, hy, hz⟩ := hgroup (i / 3) (by omega)
    obtain hr | hr | hr : i = 3 * (i / 3) ∨ i = 3 * (i / 3) + 1 ∨ i = 3 * (i / 3) + 2 := by omega
    · simpa only [← hr] using hx
    · simpa only [← hr] using hy
    · simpa only [← hr] using hz

/-- Every byte of the digest stands in PERM. -/
theorem permuted_injective : Function.Injective permuted := by
  intro d d' h
  refine Vector.ext fun i hi => ?_
  have hcell := (permuted_getElem_dest d ⟨i, hi⟩).symm
  rwa [h, permuted_getElem_dest] at hcell

/-- The Encoder loses nothing: ALPHA, EPAK and EPRM are injective (`43_encoder.md` R205). -/
theorem encodeText_injective : Function.Injective encodeText := by
  intro d d' h
  rw [← map_packCodes, ← map_packCodes, Vector.map_inj_right (fun _ _ e => alphaRom_injective e)] at h
  exact permuted_injective (packCodes_injective h)

/-- The last character is that of the top two bits of a byte (`43_encoder.md` R205). -/
theorem encodeText_last (d : Digest) : ∃ c : Code, c.toNat < 4 ∧ (encodeText d)[21] = alphaRom c := by
  refine ⟨(packCodes (permuted d))[21], ?_, by rw [← map_packCodes, Vector.getElem_map]⟩
  have hlt := (permuted d)[15].isLt
  rw [packCodes_getElem_last _ 1 (by decide), toNat_packLast_getElem _ 1 (by decide)]
  omega

/-- Settles O48: what ALPHA answers, the last code of two bits, and the Encoder's injectivity. -/
theorem encodingIsInjective : Obligations.EncodingIsInjective := by
  refine ⟨?alphabet, ?last, ?injective⟩
  case alphabet =>
    intro s t h k
    obtain rfl := Host.Outcome.next.inj ((exec_emap s).symm.trans h)
    have hchar : (s.code.map alphaRom)[k] = alphaRom s.code[k] := Vector.getElem_map ..
    rw [setOut_out, hchar]
    exact alphaRom_mem_alphabet _
  case last =>
    intro q s t h
    obtain rfl := Host.Outcome.next.inj ((exec_enc q s).symm.trans h)
    obtain ⟨c, hc, hout⟩ := encodeText_last (digestOf q s)
    rw [encoded_out, hout]
    exact alphaRom_of_lt_four c hc
  case injective =>
    intro q q' s s' t t' h h' hout
    obtain rfl := Host.Outcome.next.inj ((exec_enc q s).symm.trans h)
    obtain rfl := Host.Outcome.next.inj ((exec_enc q' s').symm.trans h')
    exact encodeText_injective hout

end Sys2Proof.Machine
end

section
/-! The exception: which commands raise it, and what fault entry leaves (`60_exceptions.md` R221, R226). -/

namespace Sys2Proof.Machine

/-- The table of R221: the commands that raise, and when. -/
def Overflows (i : Instr) (s : State) : Prop :=
  (∃ imm8, i = .bapb imm8 ∧ s.len = 64) ∨
  (∃ sel, i = .baps sel ∧ s.len.toNat + (sourceBytes sel s).length > 64) ∨
  (i = .mpad ∧ 56 ≤ s.len.toNat) ∨
  (i = .md5h ∧ 56 ≤ s.len.toNat)

section
variable {i : Instr} {s t u : State}

theorem len_eq_64_iff (hs : s.len.toNat ≤ 64) : s.len = 64 ↔ 64 ≤ s.len.toNat :=
  ⟨fun h => by simp [h], fun h => BitVec.eq_of_toNat_eq (Nat.le_antisymm hs h)⟩

theorem mpad_raised_of_ge (s : State) (h : 56 ≤ s.len.toNat) : ∃ u, mpad s = .raised u := by
  obtain ⟨u, hu, -⟩ := md5h_of_gt s h
  exact ⟨u, hu⟩

/-- Each row of the table raises. -/
theorem Overflows.raised (hs : s.len.toNat ≤ 64) (h : Overflows i s) : ∃ u, resultOf i s = .raised u := by
  obtain ⟨imm8, rfl, hlen⟩ | ⟨sel, rfl, hlen⟩ | ⟨rfl, hlen⟩ | ⟨rfl, hlen⟩ := h
  · exact ⟨s, appendByte_of_ge imm8 s ((len_eq_64_iff hs).mp hlen)⟩
  · exact ⟨s, appendBytes_of_over _ s hlen⟩
  · exact mpad_raised_of_ge s hlen
  · obtain ⟨u, -, hu⟩ := md5h_of_gt s hlen
    exact ⟨u, hu⟩

/-- No command raises outside the table. -/
theorem overflows_of_raised (hs : s.len.toNat ≤ 64) (h : resultOf i s = .raised u) : Overflows i s := by
  obtain ⟨⟨imm8, rfl⟩, hlen, -⟩ | ⟨⟨sel, rfl, hlen⟩, -⟩ | ⟨rfl | rfl, hlen, -⟩ := resultOf_raised h
  · exact .inl ⟨imm8, rfl, (len_eq_64_iff hs).mpr hlen⟩
  · exact .inr (.inl ⟨sel, rfl, hlen⟩)
  · exact .inr (.inr (.inl ⟨rfl, hlen⟩))
  · exact .inr (.inr (.inr ⟨rfl, hlen⟩))

/-- From a healthy state FAULT = 1 afterwards is fault entry, from the state the raising command left. -/
theorem exec_raised_of_fault (hf : s.fault = false) (hx : exec i s = .next t) (ht : t.fault = true) :
    ∃ u, resultOf i s = .raised u ∧ t = faultEntry u := by
  obtain ⟨-, hok | hraised⟩ := exec_cases hx
  · have hk := (resultOf_keeps i s).fault
    rw [hok, state_ok, ht, hf] at hk
    cases hk
  · exact hraised

/-- A command takes fault entry exactly in the rows of the table (`60_exceptions.md` R221). -/
theorem exec_fault_iff (hf : s.fault = false) (hs : s.len.toNat ≤ 64) (hx : exec i s = .next t) :
    t.fault = true ↔ Overflows i s := by
  refine ⟨fun ht => ?_, fun h => ?_⟩
  · obtain ⟨u, hu, -⟩ := exec_raised_of_fault hf hx ht
    exact overflows_of_raised hs hu
  · obtain ⟨u, hu⟩ := h.raised hs
    obtain ⟨hw, -⟩ := exec_cases hx
    rw [exec_eq i s hw, hu, outcome_raised] at hx
    cases hx
    rfl

/-- A source has at most 16 bytes, so one that does not fit is not empty and meets a LEN of at least 49. -/
theorem Overflows.of_baps {sel : BapsSource} (hs : s.len.toNat ≤ 64) (h : Overflows (.baps sel) s) :
    49 ≤ s.len.toNat ∧ sourceBytes sel s ≠ [] := by
  have hover : s.len.toNat + (sourceBytes sel s).length > 64 := by simpa [Overflows] using h
  have hmax := length_sourceBytes_le sel s
  exact ⟨by omega, List.ne_nil_of_length_pos (by omega)⟩

/-- What the completed steps of a command that raised had written: MPAD's 0x80 byte, if there was room for it, and else
nothing (`60_exceptions.md` R226). -/
theorem state_of_raised (h : resultOf i s = .raised u) :
    u = if hmid : (i = .mpad ∨ i = .md5h) ∧ s.len.toNat < 64 then
      s.setBuf (s.buf.set s.len.toNat 0x80 hmid.2) (s.len + 1) else s := by
  obtain ⟨⟨imm8, rfl⟩, -, rfl⟩ | ⟨⟨sel, rfl, -⟩, rfl⟩ | ⟨hi, hlen, hu⟩ := resultOf_raised h
  · simp
  · simp
  · by_cases hlt : s.len.toNat < 64
    · rw [mpad_of_mid s hlen hlt] at hu
      rw [dif_pos ⟨hi, hlt⟩, Result.raised.inj hu]
    · rw [mpad_of_full s (Nat.le_of_not_lt hlt)] at hu
      rw [dif_neg fun hmid => hlt hmid.2, Result.raised.inj hu]

@[simp] theorem faultEntry_status : (faultEntry s).status = 0x06 := by simp [State.status]

@[simp] theorem faultEntry_cmdReady : (faultEntry s).cmdReady = false := by simp [State.cmdReady]

end

/-- Settles O49: a well-formed command answers, and the rows of `Overflows` are the statement's. -/
theorem whichCommandsFault : Obligations.WhichCommandsFault := by
  intro i s hw hf hs
  obtain ⟨t, hx⟩ := exec_next_of_wellFormed i s hw
  have hiff := exec_fault_iff hf hs hx
  refine ⟨t, hx, hiff, ?_⟩
  rintro sel rfl ht
  exact (hiff.mp ht).of_baps hs

/-- Settles O50: fault entry on what the completed steps left. -/
theorem faultEntryRule : Obligations.FaultEntry := by
  intro i s t hf _ hx ht
  obtain ⟨u, hu, rfl⟩ := exec_raised_of_fault hf hx ht
  refine ⟨faultEntry_status, faultEntry_cmdReady, ?_⟩
  rw [state_of_raised hu]
  split_ifs <;> rfl

end Sys2Proof.Machine
end

section
/-! A step without an event, and no return from the fault (`60_exceptions.md` R228, R236). -/

namespace Sys2Proof.Machine

/-- No command clears FAULT (`60_exceptions.md` R228). -/
theorem exec_fault_of_fault {i : Instr} {s t : State} (hf : s.fault = true) (hx : exec i s = .next t) :
    t.fault = true := by
  obtain rfl | rfl := exec_state hx
  · rw [(resultOf_keeps i s).fault, hf]
  · rfl

/-- A core with a latched fault accepts no word (`30_encoding.md` R81). -/
theorem not_accepts_of_fault {s : State} (hf : s.fault = true) : ¬ s.accepts = true := fun ha => by
  rw [fault_of_accepts ha] at hf
  cases hf

/-- Settles O9: the equation of `step` with no event. -/
theorem idleCoreKeepsItsState : Obligations.IdleCoreKeepsItsState := fun _ => step_idle

/-- Settles O10: a faulted core accepts no word, so its step only moves the wire and the event list, or releases reset. -/
theorem faultIsLeftOnlyByReset : Obligations.FaultIsLeftOnlyByReset := by
  refine ⟨fun i s t => exec_fault_of_fault, fun s t hf h => ?_⟩
  have hdeaf := not_accepts_of_fault hf
  obtain ⟨-, rfl⟩ | ⟨rest, -, rfl⟩ | ⟨rest, hh, rfl⟩ | ⟨cw, rest, -, -, rfl⟩ | ⟨cw, rest, i, u, -, ha, -⟩ |
    ⟨cw, rest, -, -, rfl⟩ | ⟨cw, rest, i, -, ha, -⟩ := step_cases h
  · exact .inl rfl
  · exact .inl rfl
  · cases hr : s.rst with
    | true => rw [releaseRst_of_asserted s rest hr]; exact .inr ⟨rfl, rfl, rest, hh⟩
    | false => rw [releaseRst_of_released s rest hr]; exact .inl rfl
  · exact .inl rfl
  · exact absurd ha hdeaf
  · exact .inl rfl
  · exact absurd ha hdeaf

end Sys2Proof.Machine
end

section
/-! A padded buffer is used once: every further append overflows until BCLR (`70_reset_and_hazards.md` R257). -/

namespace Sys2Proof.Machine

section
variable {i : Instr} {s t : State}

theorem Overflows.wellFormed (h : Overflows i s) : i.wellFormed = true := by
  obtain ⟨_, rfl, -⟩ | ⟨_, rfl, -⟩ | ⟨rfl, -⟩ | ⟨rfl, -⟩ := h <;> rfl

/-- On a full buffer a command that overflows has nothing to leave behind: it is fault entry alone
(`60_exceptions.md` R226). -/
theorem Overflows.exec_of_full (hlen : s.len = 64) (h : Overflows i s) : exec i s = .next (faultEntry s) := by
  obtain ⟨u, hu⟩ := h.raised (by simp [hlen])
  have hkept := state_of_raised hu
  rw [dif_neg (by simp [hlen])] at hkept
  rw [exec_eq i s h.wellFormed, hu, outcome_raised, hkept]

/-- MPAD and MD5H complete on at most 55 bytes, and leave the whole block in BUF (`41_md5.md` R121, R130). -/
theorem len_of_padding_completes (hi : i = .mpad ∨ i = .md5h) (hf : s.fault = false) (hs : s.len.toNat ≤ 64)
    (hx : exec i s = .next t) (ht : t.fault = false) : t.len = 64 := by
  have hfits : s.len.toNat ≤ 55 := by
    by_contra hgt
    have hover : Overflows i s := by
      obtain rfl | rfl := hi
      · exact .inr (.inr (.inl ⟨rfl, by omega⟩))
      · exact .inr (.inr (.inr ⟨rfl, by omega⟩))
    rw [(exec_fault_iff hf hs hx).mpr hover] at ht
    cases ht
  obtain rfl | rfl := hi
  · rw [exec_mpad, mpad_of_le s hfits, outcome_ok] at hx
    rw [← Host.Outcome.next.inj hx, setBuf_len]
  · rw [exec_md5h_of_le hfits] at hx
    rw [← Host.Outcome.next.inj hx, hashed_len]

end

/-- Settles O33: MPAD and MD5H fill the buffer, where every append, MPAD and MD5H is a row of `Overflows`. -/
theorem paddedBufferIsSingleUse : Obligations.PaddedBufferIsSingleUse := by
  intro i s t hi hf hs hx ht
  have hlen := len_of_padding_completes hi hf hs hx ht
  have h64 : t.len.toNat = 64 := by simp [hlen]
  refine ⟨hlen, fun b => ?bapb, fun sel hsel => ?baps, ?mpad, ?md5h, ?bclr⟩
  case bapb => exact Overflows.exec_of_full hlen (.inl ⟨b, rfl, hlen⟩)
  case baps =>
    have hpos := List.length_pos_of_ne_nil hsel
    exact Overflows.exec_of_full hlen (.inr (.inl ⟨sel, rfl, by omega⟩))
  case mpad => exact Overflows.exec_of_full hlen (.inr (.inr (.inl ⟨rfl, by omega⟩)))
  case md5h => exact Overflows.exec_of_full hlen (.inr (.inr (.inr ⟨rfl, by omega⟩)))
  case bclr =>
    have hexec : exec .bclr t = .next ((t.draw 64).setBuf (freeBuf t.freeCtr) 0) := congrArg Result.outcome (bclr_eq t)
    exact ⟨_, hexec, setBuf_len _ _ _, by rw [setBuf_fault, draw_fault, ht]⟩

end Sys2Proof.Machine
end

section
/-! The reset input: asserted between two commands, and inside one (`70_reset_and_hazards.md` R250). -/

namespace Sys2Proof.Machine

section
variable {s s' : State} {rest : List HostEvent} {cw : CmdWord} {i : Instr}

theorem accepts_of_asserted (h : s.rst = true) : s.accepts = false := by
  simp [State.accepts, h]

theorem step_release_of_asserted (hr : s.rst = true) (h : s.host = .releaseReset :: rest) :
    step s = .next (State.atReset s.freeCtr rest) := by
  rw [step_releaseReset h, releaseRst_of_asserted s rest hr]

/-- A reset inside an accepted command, whichever command it is. -/
theorem step_abandons (h : s.host = .presentThenReset cw :: rest) (ha : s.accepts = true) (hd : decode cw = .instr i) :
    step s = .next (abandonCommand rest s) := by
  rw [step_presentThenReset_of_accepts h ha, abandonWord_of_instr hd]

/-- An abandoned command leaves nothing of the registers, only STATUS and the position of the free values. -/
theorem abandonCommand_congr (hctr : s'.freeCtr = s.freeCtr) (hfault : s'.fault = s.fault) (hfcause : s'.fcause = s.fcause) :
    abandonCommand rest s' = abandonCommand rest s := by
  rw [abandonCommand, abandonCommand, hctr, hfault, hfcause]

end

/-- Settles O12: the equation of `step` at an assertion, and that a core held in reset accepts no word. -/
theorem assertedResetStopsTheCore : Obligations.AssertedResetStopsTheCore :=
  ⟨fun _ _ h => step_assertReset h, fun _ _ _ hr h => step_present_of_ignores h (accepts_of_asserted hr)⟩

/-- Settles O57: the step is `abandonCommand`, its release is `State.atReset`, and a word not accepted only moves the
wire. -/
theorem resetAbandonsTheCommand : Obligations.ResetAbandonsTheCommand := by
  refine ⟨fun s cw rest i h ha hd => ?abandoned, fun s s' cw cw' rest i i' h ha hd h' ha' hd' hctr hfcause => ?alike,
    fun _ _ _ h ha => step_presentThenReset_of_ignores h ha⟩
  case abandoned =>
    refine ⟨abandonCommand rest s, step_abandons h ha hd, rfl, rfl, ?_, rfl, rfl, rfl, fun rest' hrest => ?_⟩
    · rw [abandonCommand_fault, fault_of_accepts ha]
    · exact ⟨_, step_release_of_asserted rfl hrest, by simp⟩
  case alike =>
    have hfault : s'.fault = s.fault := (fault_of_accepts ha').trans (fault_of_accepts ha).symm
    rw [step_abandons h ha hd, step_abandons h' ha' hd', abandonCommand_congr hctr hfault hfcause]

end Sys2Proof.Machine
end

section
/-! The host's procedures: hash a message, hash a password, encode a digest (`70_reset_and_hazards.md` R252 to R255). -/

namespace Sys2Proof.Machine

section
variable {i : Instr} {is : List Instr} {s t : State}

/-- The last command of a procedure runs on what the commands before it left (`30_encoding.md` R81). -/
theorem execSeq_concat_of_ok (hs : s.fault = false) (his : ∀ j ∈ is, j.wellFormed = true) (hi : i.wellFormed = true)
    (hrun : run (is.map resultOf) s = .ok t) : execSeq (is ++ [i]) s = exec i t := by
  have hwf : ∀ j ∈ is ++ [i], j.wellFormed = true := by
    simpa [or_imp, forall_and, hi] using his
  rw [execSeq_eq _ s hs hwf, exec_eq i t hi, List.map_append, run_append, hrun, andThen_ok]
  cases h : resultOf i t <;> simp [h]

/-- A list of BAPB in a chain of appends. -/
theorem Appended.run_bapbs {c : List Byte} (h : Appended s t c) (bs : List Byte) (hfit : c.length + bs.length ≤ 64) :
    ∃ t', run (bs.map Machine.bapb) t = .ok t' ∧ Appended s t' (c ++ bs) := by
  induction bs generalizing t c with
  | nil => exact ⟨t, rfl, by rwa [List.append_nil]⟩
  | cons b bs ih =>
    rw [List.length_cons] at hfit
    obtain ⟨t1, e1, h1⟩ := h.bapb b (by omega)
    obtain ⟨t2, e2, h2⟩ := ih h1 (by rw [List.length_append, List.length_singleton]; omega)
    rw [List.append_assoc, List.singleton_append] at h2
    exact ⟨t2, by rw [List.map_cons, run_cons, e1, andThen_ok, e2], h2⟩

end

/-- Settles O54: the appends after BCLR build the message, and MD5H hashes the content. -/
theorem hostHashesAMessage : Obligations.HostHashesAMessage := by
  intro s msg hf hmsg
  obtain ⟨t0, e0, h0⟩ := bclr_appended s
  obtain ⟨t1, e1, h1⟩ := h0.run_bapbs msg (by rw [List.length_nil]; omega)
  obtain ⟨hmd5h, hdig, -, hkept⟩ := h1.hashed hmsg
  refine ⟨t1.hashed, ?_, hkept.fault.trans hf, hdig⟩
  have hwf : ∀ j ∈ [Instr.bclr] ++ msg.map Instr.bapb, j.wellFormed = true := by simp [Instr.wellFormed]
  have hrun : run (([Instr.bclr] ++ msg.map Instr.bapb).map resultOf) s = .ok t1 := by
    rw [List.map_append, List.map_map, run_append, List.map_singleton, run_cons, resultOf, e0, andThen_ok, run_nil,
      andThen_ok]
    exact e1
  rw [execSeq_concat_of_ok hf hwf rfl hrun, exec_md5h, hmd5h, outcome_ok]

/-- A cell's index, and a password's length, fit the four bits of their operand (`30_encoding.md` R72). -/
theorem toNat_cellIndex {k : Nat} (hk : k < 16) : (BitVec.ofNat 4 k).toNat = k :=
  (BitVec.toNat_ofNat k 4).trans (Nat.mod_eq_of_lt hk)

/-- A register of `m` byte cells, read and written as a whole. -/
structure ByteFile (m : Nat) where
  read : State → Vector Byte m
  write : State → Vector Byte m → State
  read_write : ∀ s v, read (write s v) = v
  write_write : ∀ s v w, write (write s v) w = write s w
  write_read : ∀ s, write s (read s) = s

namespace ByteFile

/-! The registers the host loads cell by cell (`42_pwhash.md` R161, R163, R164). -/

def pw : ByteFile 15 := ⟨State.pw, State.setPw, fun _ _ => rfl, fun _ _ _ => rfl, fun _ => rfl⟩
def salt : ByteFile 8 := ⟨State.salt, State.setSalt, fun _ _ => rfl, fun _ _ _ => rfl, fun _ => rfl⟩
def dig : ByteFile 16 := ⟨State.dig, State.setDig, fun _ _ => rfl, fun _ _ _ => rfl, fun _ => rfl⟩

variable {m : Nat} (F : ByteFile m)

/-- `cmd` loads cell `k` of the register, for each of its cells. -/
def LoadedBy (cmd : BitVec 4 → Byte → Instr) : Prop :=
  ∀ (k : Nat) (hk : k < m) (b : Byte) (s : State),
    resultOf (cmd (BitVec.ofNat 4 k) b) s = .ok (F.write s ((F.read s).set k b hk))

theorem pw_loadedBy : pw.LoadedBy .ldpw := by
  intro k hk b s
  simp only [resultOf, toNat_cellIndex (show k < 16 by omega), dif_pos hk]
  rfl

theorem salt_loadedBy : salt.LoadedBy .ldsl := by
  intro k hk b s
  simp only [resultOf, toNat_cellIndex (show k < 16 by omega), dif_pos hk]
  rfl

theorem dig_loadedBy : dig.LoadedBy .lddg := by
  intro k hk b s
  simp only [resultOf, toNat_cellIndex hk]
  rfl

/-- The commands that load the first `n` bytes of `bs`, from cell 0 on. -/
def loads (cmd : BitVec 4 → Byte → Instr) (bs : List Byte) (n : Nat) : List Instr :=
  (List.range n).map fun k => cmd (BitVec.ofNat 4 k) (bs.getD k 0)

variable {F} {cmd : BitVec 4 → Byte → Instr} {bs : List Byte}

/-- The loads of the first `n` bytes leave these bytes in the first `n` cells, and move nothing but the register. -/
theorem LoadedBy.run_take (h : F.LoadedBy cmd) (hm : bs.length ≤ m) (s : State) (n : Nat) (hn : n ≤ bs.length) :
    ∃ v, run ((loads cmd bs n).map resultOf) s = .ok (F.write s v) ∧ v.toList.take n = bs.take n := by
  induction n with
  | zero => exact ⟨F.read s, by rw [F.write_read]; rfl, rfl⟩
  | succ n ih =>
    obtain ⟨v, hrun, hv⟩ := ih (by omega)
    refine ⟨v.set n (bs.getD n 0) (by omega), ?_, ?_⟩
    · rw [loads, List.range_succ, List.map_append, List.map_append, run_append, ← loads, hrun, andThen_ok,
        List.map_singleton, List.map_singleton, run_cons, h n (by omega), andThen_ok, run_nil, F.read_write, F.write_write]
    · have hcell : n < (v.toList.set n (bs.getD n 0)).length := by simp; omega
      rw [Vector.toList_set, List.take_succ_eq_append_getElem hcell, List.take_set_of_le (Nat.le_refl n), hv,
        List.getElem_set_self, List.getD_eq_getElem _ _ hn, ← List.take_succ_eq_append_getElem hn]

/-- All of the loads: the register holds the bytes. -/
theorem LoadedBy.run_loads (h : F.LoadedBy cmd) (hm : bs.length ≤ m) (s : State) :
    ∃ v, run ((loads cmd bs bs.length).map resultOf) s = .ok (F.write s v) ∧ v.toList.take bs.length = bs := by
  obtain ⟨v, hrun, hv⟩ := h.run_take hm s bs.length (Nat.le_refl _)
  exact ⟨v, hrun, hv.trans List.take_length⟩

end ByteFile

/-- The host's commands before PWH: the password's bytes, its length, the salt's bytes (R253). -/
def argumentLoads (pw salt : List Byte) : List Instr :=
  ByteFile.loads .ldpw pw pw.length ++ [.ldpl (BitVec.ofNat 4 pw.length)] ++ ByteFile.loads .ldsl salt salt.length

theorem argumentLoads_wellFormed {pw salt : List Byte} (hpw : pw.length ≤ 15) (hsalt : salt.length = 8) :
    ∀ i ∈ argumentLoads pw salt, i.wellFormed = true := by
  intro i hi
  simp only [argumentLoads, ByteFile.loads, List.mem_append, List.mem_map, List.mem_range, List.mem_singleton] at hi
  obtain (⟨k, hk, rfl⟩ | rfl) | ⟨k, hk, rfl⟩ := hi
  · exact decide_eq_true (by rw [toNat_cellIndex (by omega)]; omega)
  · rfl
  · exact decide_eq_true (by rw [toNat_cellIndex (by omega)]; omega)

/-- The loads leave the password and the salt in their registers, and FAULT as it was. -/
theorem run_argumentLoads {pw salt : List Byte} (hpw : pw.length ≤ 15) (hsalt : salt.length = 8) (s : State) :
    ∃ t, run ((argumentLoads pw salt).map resultOf) s = .ok t ∧ t.fault = s.fault ∧ t.password = pw ∧
      t.saltBytes = salt := by
  obtain ⟨v, hrunPw, hv⟩ := ByteFile.pw_loadedBy.run_loads hpw s
  obtain ⟨w, hrunSalt, hw⟩ := ByteFile.salt_loadedBy.run_loads hsalt.le ((s.setPw v).setPwlen (BitVec.ofNat 4 pw.length))
  refine ⟨((s.setPw v).setPwlen (BitVec.ofNat 4 pw.length)).setSalt w, ?_, rfl, ?_, ?_⟩
  · rw [argumentLoads, List.map_append, List.map_append, run_append, run_append, hrunPw, andThen_ok]
    exact hrunSalt
  · rw [State.password, setSalt_pw, setPwlen_pw, setPw_pw, setSalt_pwlen, setPwlen_pwlen, toNat_cellIndex (by omega), hv]
  · rw [State.saltBytes, setSalt_salt, ← hw, hsalt]
    exact (List.take_of_length_le (by simp)).symm

/-- Settles O55: PWH on the registers the loads leave. -/
theorem hostHashesAPassword : Obligations.HostHashesAPassword := by
  intro s pw salt hf hpw hsalt
  obtain ⟨t, hrun, hfault, hpassword, hsaltBytes⟩ := run_argumentLoads hpw hsalt s
  obtain ⟨u, hexec, hkept, hout, -⟩ := exec_pwh_hashPassword t
  have hseq := execSeq_concat_of_ok hf (argumentLoads_wellFormed hpw hsalt) (i := .pwh) rfl hrun
  rw [argumentLoads, hsalt, hexec] at hseq
  exact ⟨u, hseq, hkept.trans (hfault.trans hf), by rw [hout, hpassword, hsaltBytes]⟩

/-- The sixteen loads of a digest, indexed by its cells (R255). -/
theorem loads_lddg (d : Digest) :
    ByteFile.loads .lddg d.toList d.toList.length =
      (List.finRange 16).map fun k => .lddg (BitVec.ofNat 4 k.val) d[k] := by
  rw [ByteFile.loads, Vector.length_toList, ← List.map_coe_finRange_eq_range, List.map_map]
  refine List.map_congr_left fun k _ => ?_
  simp

/-- Settles O56: ENC on the DIG the loads leave. -/
theorem hostEncodesADigest : Obligations.HostEncodesADigest := by
  intro s d hf
  have hlen : d.toList.length = 16 := Vector.length_toList
  obtain ⟨v, hrun, hv⟩ := ByteFile.dig_loadedBy.run_loads hlen.le s
  obtain rfl : v = d := Vector.toList_inj.mp (by rwa [List.take_of_length_le (by simp)] at hv)
  rw [loads_lddg] at hrun
  refine ⟨(s.setDig v).encoded .dig, ?_, hf, rfl, encoded_out .dig _⟩
  rw [execSeq_concat_of_ok hf (by simp [Instr.wellFormed]) rfl hrun]
  exact exec_enc .dig _

end Sys2Proof.Machine
end
